-- ==== Sys2Proof/Word.lean ====
section
/-! DEFINITION. The word types of the RLE codec block: a byte (R8) and the 16-bit size registers' contents (R21, R22). -/

namespace Sys2Proof

/-- A byte is 8 bits (R8). -/
abbrev Byte := BitVec 8

/-- The contents of a 16-bit register (R21, R22). -/
abbrev Half := BitVec 16

/-- A pixel is a sequence of `BPP` opaque bytes, lowest offset first (R23, R52). -/
abbrev Pixel := List Byte

end Sys2Proof
end

