-- ==== Sys2Proof/Config.lean ====
section
/-! DEFINITION. What is fixed for the machine (R6) and the free values: constants without a body that stand for what the
spec leaves unspecified (R208, R231, N16). -/

namespace Sys2Proof.Config

/-- `MAX_CHUNK`: the most pixels one packet can hold (R6). -/
def maxChunk : Nat := 128

/-- `PIXBUF_CAP`: the physical capacity of the pixel memory in bytes; R6 leaves it open and gives this default, which
every legal configuration fits. DESIGN CHOICE (log 5): the default is taken. -/
def pixbufCap : Nat := 2 ^ 32

/-- The byte at an offset of `PIXBUF` after a failed or abandoned decode (R208, R231, U5); first argument: the draw. -/
opaque freePixByte : Nat → Nat → Byte

/-- `IN.POS` after a failed or abandoned decode, before its bound is applied (R208, U11). -/
opaque freeInPos : Nat → Nat

/-- `COUNT` after a failed decode, before its range is applied (R208, U10). -/
opaque freeCount : Nat → Nat

/-- `H` after a failed decode (R208, U10). -/
opaque freeHeader : Nat → Byte

/-- The bytes of `PIXLATCH` after a failed decode (R208, U10). -/
opaque freeLatchByte : Nat → Nat → Byte

/-- `CURPIX` after a failed encode, before its range is applied (R208, U10). -/
opaque freeCurPix : Nat → Nat

/-- `RUNLEN` after a failed encode, before its range is applied (R208, U10). -/
opaque freeRunLen : Nat → Nat

/-- `MODE` after a failed encode, as a number read modulo three (R208, U10). -/
opaque freeMode : Nat → Nat

/-- How many bytes of the packet in progress an abandoned encode has written, before its bound is applied (R231). -/
opaque freeOutTail : Nat → Nat

/-- The byte a scaled colour channel becomes when the exact product of channel and factor is not a whole number: the spec
does not say how it is rounded (R161, N16). -/
opaque roundChannel : Rat → Byte

end Sys2Proof.Config
end

