-- ==== Sys2Proof/Syntax.lean ====
section
/-! DEFINITION. The instructions: one constructor per row of spec/opcode_table.json, and the packet as a whole
(header and payload, R80, R92). -/

namespace Sys2Proof

/-- The instructions of the block: two packet kinds, fetched from `IN` by the decoder (R80), and two host commands,
written to `CMD` (R90). The count is the number of pixels the packet stands for. -/
inductive Instr where
  /-- `LIT n`: a literal packet of `n` pixels; `n * BPP` payload bytes follow the header in `IN` (R133). -/
  | lit (n : Nat)
  /-- `REP n`: a repeat packet of `n` pixels; the `BPP` bytes of one pixel follow the header in `IN` (R134). -/
  | rep (n : Nat)
  /-- `ENC_START`: start an encode (R100). -/
  | encStart
  /-- `DEC_START`: start a decode (R130). -/
  | decStart
  deriving DecidableEq, Repr

/-- Where a byte stands says how it is decoded: as a header byte in the packet stream (R81) or as a byte written to `CMD`
(R90). -/
inductive Space where
  | packet
  | command
  deriving DecidableEq, Repr

/-- The space an instruction belongs to (R80, R90). -/
def Instr.space : Instr → Space
  | .lit _ => .packet
  | .rep _ => .packet
  | .encStart => .command
  | .decStart => .command

/-- A whole packet in the spec's notation (R92): `LIT n: p1 ... pn` or `REP n: p`. -/
inductive Packet where
  | lit (pixels : List Pixel)
  | rep (n : Nat) (pixel : Pixel)
  deriving DecidableEq, Repr

/-- The packet's instruction: its kind and its pixel count (R80). -/
def Packet.instr : Packet → Instr
  | .lit ps => .lit ps.length
  | .rep n _ => .rep n

/-- The payload in stream order (R85). -/
def Packet.payload : Packet → List Byte
  | .lit ps => ps.flatten
  | .rep _ p => p

/-- The pixels a packet stands for (R80). -/
def Packet.expand : Packet → List Pixel
  | .lit ps => ps
  | .rep n p => List.replicate n p

end Sys2Proof
end

