-- ==== Sys2Proof/WellFormed.lean ====
section
/-! DEFINITION. Which instructions and packets exist: a packet's count is 1 to 128 (R82, R92), a pixel has `BPP` bytes
(R80). -/

namespace Sys2Proof

/-- A pixel count is 1 to 128 (R82: "There is no zero-length packet and no count above 128"). -/
def countOk (n : Nat) : Bool := 1 ≤ n && n ≤ Config.maxChunk

/-- The check on an instruction. -/
def Instr.wf : Instr → Bool
  | .lit n => countOk n
  | .rep n => countOk n
  | .encStart => true
  | .decStart => true

/-- The check on a whole packet under a pixel size: count 1 to 128, every pixel of `bpp` bytes (R80). -/
def Packet.wf (bpp : Nat) : Packet → Bool
  | .lit ps => countOk ps.length && ps.all (fun p => p.length == bpp)
  | .rep n p => countOk n && p.length == bpp

end Sys2Proof
end

