-- ==== Sys2Proof/Decode.lean ====
section
/-! DEFINITION. The decoder, total on any bytes, and the encoder, both from the field tables of 30_encoding.md (R80 to
R84, R90, R91), and the host's entry to them by table word. -/

namespace Sys2Proof

/-- Why bytes are no instruction. -/
inductive DecodeError where
  /-- There is no byte to decode. -/
  | noByte
  /-- A value of `CMD` that is no command (R91): reserved, and its write changes nothing. -/
  | reservedCommand (b : Byte)
  deriving DecidableEq, Repr

/-- The field `T`, bit 7 of the header byte: true for a repeat packet (R81). -/
def headerType (h : Byte) : Bool := h.getLsbD 7

/-- The pixel count `zext(h[6:0]) + 1` (R82). -/
def headerCount (h : Byte) : Nat := (h.extractLsb' 0 7).toNat + 1

/-- The packet a header byte opens; every one of the 256 values is legal (R81, R86). -/
def decodeHeader (h : Byte) : Instr :=
  if headerType h then .rep (headerCount h) else .lit (headerCount h)

/-- The command a byte written to `CMD` stands for (R90, R91). -/
def decodeCommand (b : Byte) : Except DecodeError Instr :=
  if b = 0x01#8 then .ok .encStart
  else if b = 0x02#8 then .ok .decStart
  else .error (.reservedCommand b)

/-- Decode the instruction at the head of `bytes` in a space, with the bytes after it. -/
def decode (sp : Space) : List Byte → Except DecodeError (Instr × List Byte)
  | [] => .error .noByte
  | b :: rest =>
    match sp with
    | .packet => .ok (decodeHeader b, rest)
    | .command =>
      match decodeCommand b with
      | .ok i => .ok (i, rest)
      | .error e => .error e

/-- The byte of a well-formed instruction: header `n - 1` or `128 + (n - 1)` (R84), command 0x01 or 0x02 (R90). -/
def encodeByte : Instr → Byte
  | .lit n => BitVec.ofNat 8 (n - 1)
  | .rep n => BitVec.ofNat 8 (128 + (n - 1))
  | .encStart => 0x01#8
  | .decStart => 0x02#8

/-- The bytes of a well-formed instruction: one (R80, R90). -/
def encode (i : Instr) : List Byte := [encodeByte i]

/-- How many payload bytes follow a header under a pixel size (R80, R83). -/
def payloadLength (bpp : Nat) : Instr → Nat
  | .lit n => n * bpp
  | .rep _ => bpp
  | .encStart => 0
  | .decStart => 0

/-- Length of a packet in bytes: `1 + n * BPP` or `1 + BPP` (R83). -/
def packetLength (bpp : Nat) (i : Instr) : Nat := 1 + payloadLength bpp i

/-- The bytes of a packet: its header, then its payload (R80, R85, R92). -/
def encodePacket (p : Packet) : List Byte := encodeByte p.instr :: p.payload

/-- Cut `n` pixels of `bpp` bytes off the head of a byte sequence. -/
def cutPixels (bpp : Nat) : Nat → List Byte → List Pixel
  | 0, _ => []
  | n + 1, bs => bs.take bpp :: cutPixels bpp n (bs.drop bpp)

/-- Read one whole packet off the head of a byte sequence, or nothing when the bytes run out (R80, R83, R89). -/
def decodePacket (bpp : Nat) : List Byte → Option (Packet × List Byte)
  | [] => none
  | h :: rest =>
    let i := decodeHeader h
    let len := payloadLength bpp i
    if rest.length < len then none
    else
      match i with
      | .rep n => some (.rep n (rest.take len), rest.drop len)
      | _ => some (.lit (cutPixels bpp (headerCount h) rest), rest.drop len)

/-- The space in which a byte of the opcode table is read when nothing says where it stands: the row that fixes all eight
bits wins over the row that fixes one (DESIGN CHOICE, log 3). -/
def tableSpace (b : Byte) : Space :=
  if b = 0x01#8 || b = 0x02#8 then .command else .packet

/-- The instruction the decoder reads from a table word: every row is one byte, its bits 7 to 0. -/
def decodeTableWord (nbits w : Nat) : Option Instr :=
  if nbits = 8 ∧ w < 256 then
    let b : Byte := BitVec.ofNat 8 w
    match decode (tableSpace b) [b] with
    | .ok (i, _) => some i
    | .error _ => none
  else none

end Sys2Proof
end

