-- ==== Sys2Proof/Machine/State.lean ====
section
/-! DEFINITION. The state of the block, exactly the list of R20, with the streams and the host's pending moves as plain
data; the faults and refusals; the state after reset (R40, R230). -/

namespace Sys2Proof.Machine

/-- `STATUS.STATE`: the five values that occur (R26). -/
inductive RunState where
  | idle
  | busyEnc
  | busyDec
  | done
  | error
  deriving DecidableEq, Repr

/-- `STATUS.ERR`: no error, or RS's five kinds in RS's order (R27). -/
inductive ErrKind where
  | noError
  | invalidDimensions
  | unsupportedFormat
  | outOfRange
  | corruptStream
  | ioFailure
  deriving DecidableEq, Repr

/-- `MODE`: the classification of the run being built (R31). -/
inductive Mode where
  | undet
  | literal
  | repeating
  deriving DecidableEq, Repr

/-- What a read past the last byte of `IN` answers (R37, R57). -/
inductive Term where
  | endOfStream
  | failure
  deriving DecidableEq, Repr

/-- The five registers the host reaches (R21 to R25). -/
inductive Reg where
  | cmd
  | status
  | cfgWidth
  | cfgHeight
  | cfgBpp
  deriving DecidableEq, Repr

/-- The register numbers, identifiers and not bus addresses (R21 to R25; N3). -/
def Reg.number : Reg → Nat
  | .cmd => 0
  | .status => 1
  | .cfgWidth => 2
  | .cfgHeight => 3
  | .cfgBpp => 4

/-- The configuration registers (R21 to R23). -/
structure Cfg where
  width : Half
  height : Half
  bpp : Byte
  deriving DecidableEq, Repr

/-- The two fields of `STATUS` (R25 to R27). -/
structure Status where
  state : RunState
  err : ErrKind
  deriving DecidableEq, Repr

/-- The encoder's working registers (R29 to R31). -/
structure EncRegs where
  curPix : Nat
  runLen : Nat
  mode : Mode
  deriving DecidableEq, Repr

/-- The decoder's working registers (R32 to R34). -/
structure DecRegs where
  count : Nat
  h : Byte
  pixLatch : Pixel
  deriving DecidableEq, Repr

/-- The pixel memory: its written bytes as pairs of offset and byte, offsets strictly rising. An offset that is not listed
holds no value (R36, R238). -/
abbrev Mem := List Host.Cell

/-- The input stream (R37, R57, R58): what the environment put there, the point in it from which the decoder reads, what a
read past its end answers, and the number of bytes taken since `DEC_START`. -/
structure InStream where
  content : List Byte
  point : Nat
  term : Term
  pos : Nat
  deriving DecidableEq, Repr

/-- `IN.data`: the bytes from the point on (R37, R58). -/
def InStream.data (i : InStream) : List Byte := i.content.drop i.point

/-- The output stream (R38): the bytes written so far and the failure point; no failure point is infinity. -/
structure OutStream where
  data : List Byte
  failAt : Option Nat
  deriving DecidableEq, Repr

/-- One move of the host or the environment (R42, R58, R230, R244). `wait` leaves the step to the block. -/
inductive HostMove where
  | wait
  | writeCmd (v : Byte)
  | writeStatus (v : Byte)
  | writeWidth (v : Half)
  | writeHeight (v : Half)
  | writeBpp (v : Byte)
  | readReg (r : Reg)
  | writePix (offset : Nat) (v : Byte)
  | readPix (offset : Nat)
  | setIn (content : List Byte) (point : Nat) (term : Term)
  | setOut (data : List Byte) (failAt : Option Nat)
  | reset
  deriving DecidableEq, Repr

/-- What a host read answered: an 8-bit register, a 16-bit register, or a byte of `PIXBUF` (R244). -/
inductive HostAnswer where
  | reg8 (v : Byte)
  | reg16 (v : Half)
  | pix (v : Byte)
  deriving DecidableEq, Repr

/-- The state (R20). `host`, `lastRead` and `draws` are the model's own (log 1, log 16, log 9): the moves still to be made,
the last host read's answer, and how often free values were drawn. -/
structure State where
  cfg : Cfg
  status : Status
  enc : EncRegs
  dec : DecRegs
  pixbuf : Mem
  input : InStream
  output : OutStream
  host : List HostMove
  lastRead : Option HostAnswer
  draws : Nat
  deriving DecidableEq, Repr

/-- The faults of a step. -/
inductive Fault where
  /-- Raised by a host access to a pixel offset at or beyond `PIXBUF_CAP`, which does not exist (R6, R63). Safe. -/
  | outsidePixelMemory
  /-- Raised by the block's packet step (`ENC_PACKET`, `LIT`, `REP`) in a state where its precondition (R109, R139) does not
  hold: busy with no step possible, which is no end of a run (R216). Never from a state that meets the invariant. Safe. -/
  | noStepPossible
  deriving DecidableEq, Repr

/-- The refusals of a step. -/
inductive Refusal where
  /-- Raised by `exec` for an instruction that has no meaning yet. Safe. -/
  | notModelled (mnemonic : String)
  /-- Raised by a host or environment move that touches `PIXBUF`, `IN` or `OUT` while an operation runs (R235). Safe. -/
  | hostTouchedDuringOperation
  /-- Raised by `ENC_START`, `ENC_PACKET` and a host read over a byte of `PIXBUF` that nothing has written (R238). Safe. -/
  | unwrittenPixel
  deriving DecidableEq, Repr

/-- The answer of a step. -/
abbrev Result := Host.Outcome State Fault Refusal

/-! ### Updates of one group of the state -/

def State.withCfg (s : State) (c : Cfg) : State := { s with cfg := c }
def State.withStatus (s : State) (st : Status) : State := { s with status := st }
def State.withEnc (s : State) (e : EncRegs) : State := { s with enc := e }
def State.withDec (s : State) (d : DecRegs) : State := { s with dec := d }
def State.withPixbuf (s : State) (m : Mem) : State := { s with pixbuf := m }
def State.withInput (s : State) (i : InStream) : State := { s with input := i }
def State.withOutput (s : State) (o : OutStream) : State := { s with output := o }
def State.withHost (s : State) (h : List HostMove) : State := { s with host := h }
def State.withLastRead (s : State) (a : HostAnswer) : State := { s with lastRead := some a }
/-- Count one draw of free values. -/
def State.drawn (s : State) : State := { s with draws := s.draws + 1 }

/-! ### Reset -/

/-- The configuration after reset: illegal on purpose (R40). -/
def Cfg.reset : Cfg := { width := 0, height := 0, bpp := 0 }

/-- `STATUS` after reset: IDLE, NONE (R40). -/
def Status.reset : Status := { state := .idle, err := .noError }

/-- The encoder's working registers after reset: unspecified (R40); DESIGN CHOICE (log 7). -/
def EncRegs.reset : EncRegs := { curPix := 0, runLen := 1, mode := .undet }

/-- The decoder's working registers after reset: unspecified (R40); DESIGN CHOICE (log 7). -/
def DecRegs.reset : DecRegs := { count := 0, h := 0, pixLatch := [0, 0, 0, 0] }

/-- The machine right after power-up and reset (R40, R230). The contents of the streams are the environment's (log 8). -/
def State.reset : State :=
  { cfg := Cfg.reset
    status := Status.reset
    enc := EncRegs.reset
    dec := DecRegs.reset
    pixbuf := []
    input := { content := [], point := 0, term := .endOfStream, pos := 0 }
    output := { data := [], failAt := none }
    host := []
    lastRead := none
    draws := 0 }

end Sys2Proof.Machine
end

