-- ==== Sys2Proof/Machine/Operands.lean ====
section
/-! DEFINITION. The values derived from the configuration (R39), its legality (R201, R202), and the addresses of pixels
(R51). -/

namespace Sys2Proof.Machine

/-- The size test: width and height, as signed 16-bit numbers, are at least 1 (R100, R130, R201). -/
def Cfg.dimsOk (c : Cfg) : Bool := decide (1 ≤ c.width.toInt) && decide (1 ≤ c.height.toInt)

/-- The format test: 1, 3 or 4 bytes per pixel (R202). -/
def Cfg.bppOk (c : Cfg) : Bool := c.bpp == 1 || c.bpp == 3 || c.bpp == 4

/-- A legal configuration (R21 to R23). -/
def Cfg.legal (c : Cfg) : Bool := c.dimsOk && c.bppOk

/-- `BPP` as a number (R23). -/
def Cfg.bytesPerPixel (c : Cfg) : Nat := c.bpp.toNat

/-- The width as a number; for a legal configuration the signed and the unsigned reading agree (R21). -/
def Cfg.w (c : Cfg) : Nat := c.width.toNat

/-- The height as a number (R22). -/
def Cfg.hgt (c : Cfg) : Nat := c.height.toNat

/-- `NPIX = WIDTH * HEIGHT` (R39). -/
def Cfg.npix (c : Cfg) : Nat := c.w * c.hgt

/-- `ROWBYTES = WIDTH * BPP` (R39). -/
def Cfg.rowBytes (c : Cfg) : Nat := c.w * c.bytesPerPixel

/-- `NBYTES = NPIX * BPP` (R39). -/
def Cfg.nbytes (c : Cfg) : Nat := c.npix * c.bytesPerPixel

/-- The offset of the first byte of pixel `i` (R51). -/
def pixAddr (bpp i : Nat) : Nat := i * bpp

/-- How many pixels are left in the row that holds pixel `c` (R112). -/
def leftInRow (w c : Nat) : Nat := w - c % w

/-- The most pixels a run starting at pixel `c` can have (R114 `lim`). -/
def runLimit (w c : Nat) : Nat := min Config.maxChunk (leftInRow w c)

end Sys2Proof.Machine
end

