-- ==== Sys2Proof/Machine/Flags.lean ====
section
/-! DEFINITION. The status fields and the condition flag: the numbers of `STATE` and `ERR`, the `STATUS` byte (R25 to
R27), busy, and the fixing of `MODE` (R105). -/

namespace Sys2Proof.Machine

/-- The number of a value of `STATE` (R26). -/
def RunState.code : RunState → Byte
  | .idle => 0
  | .busyEnc => 1
  | .busyDec => 2
  | .done => 3
  | .error => 4

/-- The number of a value of `ERR` (R27, R200). -/
def ErrKind.code : ErrKind → Byte
  | .noError => 0
  | .invalidDimensions => 1
  | .unsupportedFormat => 2
  | .outOfRange => 3
  | .corruptStream => 4
  | .ioFailure => 5

/-- The byte a read of `STATUS` answers: `(ERR << 4) | STATE` (R25). -/
def Status.byte (st : Status) : Byte := (st.err.code <<< 4) ||| st.state.code

/-- `STATE` is BUSY_ENC or BUSY_DEC (R42). -/
def RunState.busy : RunState → Bool
  | .busyEnc => true
  | .busyDec => true
  | .idle => false
  | .done => false
  | .error => false

/-- An operation is running. -/
def State.busy (s : State) : Bool := s.status.state.busy

/-- The operation has ended: DONE or ERROR (R216); what a platform may wire to an interrupt line (R210). -/
def State.ended (s : State) : Bool := s.status.state == .done || s.status.state == .error

/-- Set `STATE` alone. -/
def State.setRunState (s : State) (r : RunState) : State := s.withStatus { s.status with state := r }

/-- The mode after a comparison: the first comparison of a step fixes it, later ones leave it (R105). -/
def fixMode (runLen : Nat) (eq : Bool) (m : Mode) : Mode :=
  if runLen = 1 then (if eq then .repeating else .literal) else m

/-- The precondition of the encoder's step (R109); `NPIX` means something only for a legal configuration (R39). -/
def State.encReady (s : State) : Bool :=
  s.status.state == .busyEnc && s.cfg.legal && decide (s.enc.curPix < s.cfg.npix)

/-- The precondition of the decoder's step (R139). -/
def State.decReady (s : State) : Bool :=
  s.status.state == .busyDec && s.cfg.legal && decide (s.dec.count < s.cfg.npix)

end Sys2Proof.Machine
end

