-- ==== Sys2Proof/Machine/Ops.lean ====
section
/-! DEFINITION. The named operations over memory, streams and status: the primitives of R10, and the raising of an error
(R206) with what it leaves unspecified (R208). There is no return from an error (R211). -/

namespace Sys2Proof.Machine

/-! ### The pixel memory -/

/-- The canonical form: offsets strictly rising. (An unlisted offset holds no value, so no listed byte can equal it.) -/
def Mem.wf : Mem → Bool
  | [] => true
  | c :: m => m.all (fun d => c.1 < d.1) && Mem.wf m

/-- The byte at an offset, or nothing when nothing has been written there (R36, R238). -/
def Mem.read : Mem → Nat → Option Byte
  | [], _ => none
  | c :: m, a => if a = c.1 then some c.2 else Mem.read m a

/-- Store one byte, keeping the canonical form. -/
def Mem.write (a : Nat) (b : Byte) : Mem → Mem
  | [] => [(a, b)]
  | c :: m =>
    if a < c.1 then (a, b) :: c :: m
    else if a = c.1 then (a, b) :: m
    else c :: Mem.write a b m

/-- `MemRead(addr, n)`: `n` bytes, lowest offset first; nothing when one of them holds no value (R53, R238). -/
def Mem.readN (m : Mem) (a : Nat) : Nat → Option (List Byte)
  | 0 => some []
  | n + 1 =>
    match m.read a with
    | none => none
    | some b => (Mem.readN m (a + 1) n).map (b :: ·)

/-- `MemWrite(addr, n, v)`: the bytes of `v` from `addr` up (R54). -/
def Mem.writeN (a : Nat) : List Byte → Mem → Mem
  | [], m => m
  | b :: bs, m => Mem.writeN (a + 1) bs (m.write a b)

/-- Every byte from `a` on, `n` of them, holds a value (R238). -/
def Mem.written (m : Mem) (a n : Nat) : Bool := (m.readN a n).isSome

/-- `Pix(i)` (R10). -/
def Mem.pix (m : Mem) (bpp i : Nat) : Option Pixel := m.readN (pixAddr bpp i) bpp

/-- `PixEq(i, j)` (R10): all bytes equal. -/
def Mem.pixEq (m : Mem) (bpp i j : Nat) : Bool := m.pix bpp i == m.pix bpp j

/-- `PixWrite(i, p)` (R10). -/
def Mem.pixWrite (bpp i : Nat) (p : Pixel) (m : Mem) : Mem := m.writeN (pixAddr bpp i) p

/-- The cells of offsets 0 to `n - 1` with the bytes a function gives. -/
def cellsBelow (n : Nat) (f : Nat → Byte) : Mem := (List.range n).map (fun a => (a, f a))

/-- Give every byte below `n` the value `f` gives it; bytes from `n` on stay (R208). -/
def Mem.overwriteBelow (n : Nat) (f : Nat → Byte) (m : Mem) : Mem :=
  cellsBelow n f ++ m.filter (fun c => n ≤ c.1)

/-! ### The input stream -/

/-- The answer of one stream read, with the stream after it. -/
inductive InAnswer where
  | byte (b : Byte) (i : InStream)
  | stop (t : Term) (i : InStream)
  deriving DecidableEq, Repr

/-- `InRead()`: the byte at `IN.POS`, which then advances by 1; or the terminator, and `IN.POS` stays (R57). -/
def inRead (i : InStream) : InAnswer :=
  match i.data[i.pos]? with
  | some b => .byte b { i with pos := i.pos + 1 }
  | none => .stop i.term i

/-- The answer of a read of several bytes. -/
inductive InAnswerN where
  | bytes (bs : List Byte) (i : InStream)
  | stop (t : Term) (i : InStream)
  deriving DecidableEq, Repr

/-- `InReadN(n)`: `n` reads in order; the first `End` or `Fail` is the answer of the whole (R10). -/
def inReadN : Nat → InStream → InAnswerN
  | 0, i => .bytes [] i
  | n + 1, i =>
    match inRead i with
    | .stop t i' => .stop t i'
    | .byte b i' =>
      match inReadN n i' with
      | .bytes bs i'' => .bytes (b :: bs) i''
      | .stop t i'' => .stop t i''

/-- The error a stream's answer stops the decoder with: `End` is CorruptStream, `Fail` is IOFailure (R138). -/
def Term.errKind : Term → ErrKind
  | .endOfStream => .corruptStream
  | .failure => .ioFailure

/-- Mark the present position as the point from which the next decode counts its reads: `IN.POS <- 0` without moving the
stream (R130, R58). DEDUCED (log 12). -/
def InStream.restart (i : InStream) : InStream := { i with point := i.point + i.pos, pos := 0 }

/-! ### The output stream -/

/-- The answer of a stream write (R59). -/
inductive OutAnswer where
  | ok
  | fail
  deriving DecidableEq, Repr

/-- One more byte does not pass the failure point: `|OUT.data| + 1 <= OUT.failat` (R59). -/
def OutStream.room (o : OutStream) : Bool :=
  match o.failAt with
  | none => true
  | some f => o.data.length + 1 ≤ f

/-- `OutWrite(b)` (R59). -/
def outWrite (b : Byte) (o : OutStream) : OutAnswer × OutStream :=
  if o.room then (.ok, { o with data := o.data ++ [b] }) else (.fail, o)

/-- `OutWriteN(s)`: every byte in order; the first `Fail` is the answer of the whole write (R10). -/
def outWriteN : List Byte → OutStream → OutAnswer × OutStream
  | [], o => (.ok, o)
  | b :: bs, o =>
    match outWrite b o with
    | (.ok, o') => outWriteN bs o'
    | (.fail, o') => (.fail, o')

/-! ### Errors -/

/-- `raise E`: `STATUS.ERR <- code(E)`, `STATUS.STATE <- ERROR`, and nothing else (R206). -/
def raiseError (e : ErrKind) (s : State) : State := s.withStatus { state := .error, err := e }

/-- The mode a free number stands for. -/
def modeOfNat (n : Nat) : Mode :=
  if n % 3 = 0 then .undet else if n % 3 = 1 then .literal else .repeating

/-- What a failed or abandoned decode leaves of `PIXBUF` and `IN.POS` (R208, R231): every byte below `NBYTES` has a free
value, bytes beyond it stay; `IN.POS` is free but at most `bound`. -/
def State.freeDecodeMemory (bound : Nat) (s : State) : State :=
  (s.withPixbuf (s.pixbuf.overwriteBelow s.cfg.nbytes (Config.freePixByte s.draws))).withInput
    { s.input with pos := Config.freeInPos s.draws % (bound + 1) }

/-- The decoder's working registers after an error: free within their ranges (R208, R20). -/
def State.freeDecRegs (s : State) : State :=
  s.withDec
    { count := Config.freeCount s.draws % 2 ^ 31
      h := Config.freeHeader s.draws
      pixLatch := (List.range s.cfg.bytesPerPixel).map (Config.freeLatchByte s.draws) }

/-- The encoder's working registers after an error: free within their ranges (R208, R20). -/
def State.freeEncRegs (s : State) : State :=
  s.withEnc
    { curPix := Config.freeCurPix s.draws % 2 ^ 30
      runLen := Config.freeRunLen s.draws % Config.maxChunk + 1
      mode := modeOfNat (Config.freeMode s.draws) }

/-- An error in a decode: raised, and everything R208 leaves unspecified is free (log 9). `IN.POS` stays at or below the
position the reads had reached, which is the end of the overrunning packet or of the stream. DESIGN CHOICE (log 9): the free
values depend on the draw counter alone, so two failed decodes with the same counter are left the same ones (`IN.POS` within
its bound), where R208 says any value for each. -/
def failDecode (e : ErrKind) (s : State) : State :=
  ((raiseError e s).freeDecodeMemory s.input.pos).freeDecRegs.drawn

/-- An error in an encode: raised; `OUT` keeps the bytes written (R113), the working registers are free (log 10). DESIGN CHOICE
(log 9): the free values depend on the draw counter alone. -/
def failEncode (e : ErrKind) (s : State) : State := (raiseError e s).freeEncRegs.drawn

end Sys2Proof.Machine
end

