-- ==== Sys2Proof/Machine/Packet.lean ====
section
/-! DEFINITION. The meanings of the two packet instructions, `LIT` (R133) and `REP` (R134), with the count update and the
one check (R135), the dropping of pixels beyond the image (R136) and the completion (R131, R139). -/

namespace Sys2Proof.Machine

/-- How the execution of a packet ends by the step rules, with the exact state they give there (R139). -/
inductive PacketEnd where
  | completed (s : State)
  | raised (e : ErrKind) (s : State)
  deriving DecidableEq, Repr

/-- The state a packet leaves: after an error everything R208 leaves unspecified is free. -/
def PacketEnd.settle : PacketEnd → State
  | .completed s => s
  | .raised e s => failDecode e s

/-- Write pixel `idx` if it is inside the image, else drop it (R136). -/
def putPixel (bpp npix idx : Nat) (p : Pixel) (m : Mem) : Mem :=
  if idx < npix then m.pixWrite bpp idx p else m

/-- How the copying of literal pixels ends. -/
inductive CopyEnd where
  | copied (i : InStream) (m : Mem)
  | stopped (t : Term) (i : InStream) (m : Mem)
  deriving DecidableEq, Repr

/-- The loop of `LIT`: read a pixel, write it, `k` times, from pixel index `idx` on (R133). -/
def copyPixels (bpp npix : Nat) : (k idx : Nat) → InStream → Mem → CopyEnd
  | 0, _, i, m => .copied i m
  | k + 1, idx, i, m =>
    match inReadN bpp i with
    | .stop t i' => .stopped t i' m
    | .bytes p i' => copyPixels bpp npix k (idx + 1) i' (putPixel bpp npix idx p m)

/-- The loop of `REP`: write the latched pixel `k` times from pixel index `idx` on (R134). -/
def replicatePixel (bpp npix : Nat) (p : Pixel) : (k idx : Nat) → Mem → Mem
  | 0, _, m => m
  | k + 1, idx, m => replicatePixel bpp npix p k (idx + 1) (putPixel bpp npix idx p m)

/-- After the payload: `COUNT <- COUNT + n`, the overrun check, and DONE at `NPIX` (R135, R131). -/
def countPacket (n : Nat) (s : State) : PacketEnd :=
  let s' := s.withDec { s.dec with count := s.dec.count + n }
  if s.cfg.npix < s.dec.count + n then .raised .corruptStream s'
  else if s.dec.count + n = s.cfg.npix then .completed (s'.setRunState .done)
  else .completed s'

/-- `LIT n` by the step rules (R133, R135, R138). -/
def literalPacket (n : Nat) (s : State) : PacketEnd :=
  match copyPixels s.cfg.bytesPerPixel s.cfg.npix n s.dec.count s.input s.pixbuf with
  | .stopped t i m => .raised t.errKind ((s.withInput i).withPixbuf m)
  | .copied i m => countPacket n ((s.withInput i).withPixbuf m)

/-- `REP n` by the step rules (R134, R135, R138): the payload is latched before any pixel is written. -/
def repeatPacket (n : Nat) (s : State) : PacketEnd :=
  match inReadN s.cfg.bytesPerPixel s.input with
  | .stop t i => .raised t.errKind (s.withInput i)
  | .bytes p i =>
    countPacket n
      (((s.withInput i).withDec { s.dec with pixLatch := p }).withPixbuf
        (replicatePixel s.cfg.bytesPerPixel s.cfg.npix p n s.dec.count s.pixbuf))

/-- The meaning of `LIT n` (R133), once its header byte has been fetched. Outside a decode there is no such step (R139,
precondition). -/
def execLit (n : Nat) (s : State) : Result :=
  if s.decReady then .next (literalPacket n s).settle else .fault .noStepPossible

/-- The meaning of `REP n` (R134), once its header byte has been fetched. Outside a decode there is no such step (R139,
precondition). -/
def execRep (n : Nat) (s : State) : Result :=
  if s.decReady then .next (repeatPacket n s).settle else .fault .noStepPossible

end Sys2Proof.Machine
end

