-- ==== Sys2Proof/Machine/Decoder.lean ====
section
/-! DEFINITION. The fetch of a packet's header byte (R132) and the decoder as a pure function (R140). -/

namespace Sys2Proof.Machine

/-- What the fetch of a header byte gives: the instruction with the state after the read, or the error the stream's answer
raises (R132, R138). -/
inductive Fetched where
  | instr (i : Instr) (s : State)
  | stopped (e : ErrKind) (s : State)
  deriving DecidableEq, Repr

/-- `H <- InRead()`, and the packet `H` opens (R132). -/
def fetchPacket (s : State) : Fetched :=
  match inRead s.input with
  | .byte b i => .instr (decodeHeader b) ((s.withInput i).withDec { s.dec with h := b })
  | .stop t i => .stopped t.errKind (s.withInput i)

/-! ### The decoder as a function (R140) -/

/-- The result of `Decode`: the buffer and the position, or the error kind. -/
inductive Decoded where
  | ok (buf : List Byte) (pos : Nat)
  | err (e : ErrKind)
  deriving DecidableEq, Repr

/-- A byte sequence with `bs` put at `a`, and what does not fit in its length dropped (R140: pixels `cnt` to
`min(cnt + n, N) - 1` are set). -/
def putBytes (a : Nat) (bs buf : List Byte) : List Byte :=
  buf.take a ++ bs.take (buf.length - a) ++ buf.drop (a + bs.length)

/-- `Step(cnt, pos, buf)` (R140); the fuel bounds the packets. -/
def decodeStep (npix bpp : Nat) (s : List Byte) (term : Term) : (fuel cnt pos : Nat) → List Byte → Decoded
  | 0, _, _, _ => .err .corruptStream
  | fuel + 1, cnt, pos, buf =>
    match s[pos]? with
    | none => .err term.errKind
    | some h =>
      let n := h.toNat % 128 + 1
      let len := if h.toNat < 128 then n * bpp else bpp
      if s.length < pos + 1 + len then .err term.errKind
      else
        let body := (s.drop (pos + 1)).take len
        let pixels := if h.toNat < 128 then body else (List.replicate n body).flatten
        let buf' := putBytes (cnt * bpp) pixels buf
        if npix < cnt + n then .err .corruptStream
        else if cnt + n = npix then .ok buf' (pos + 1 + len)
        else decodeStep npix bpp s term fuel (cnt + n) (pos + 1 + len) buf'

/-- `Decode(W, H, B, s, term)` (R140). The starting buffer does not matter to an `ok` result; zeros are taken, as RS's
`Create` gives them (R166). A packet counts at least one pixel, so `W * H` packets are enough (R131). -/
def decodeImage (w h bpp : Nat) (s : List Byte) (term : Term) : Decoded :=
  decodeStep (w * h) bpp s term (w * h) 0 0 (List.replicate (w * h * bpp) 0)

end Sys2Proof.Machine
end

