-- ==== Sys2Proof/Machine/Command.lean ====
section
/-! DEFINITION. The meanings of the two host commands, `ENC_START` (R100) and `DEC_START` (R130). -/

namespace Sys2Proof.Machine

/-- The configuration test both commands make, dimensions before format (R100, R130, R209): the error, if there is one. -/
def Cfg.startError (c : Cfg) : Option ErrKind :=
  if !c.dimsOk then some .invalidDimensions
  else if !c.bppOk then some .unsupportedFormat
  else none

/-- The meaning of `ENC_START` (R100): ignored while busy; a configuration error at once; else the encode starts. Over a
buffer with an unwritten byte it is refused (R238). -/
def execEncStart (s : State) : Result :=
  if s.busy then .next s
  else
    match s.cfg.startError with
    | some e => .next (raiseError e s)
    | none =>
      if s.pixbuf.written 0 s.cfg.nbytes then
        .next ((s.withEnc { s.enc with curPix := 0 }).withStatus { state := .busyEnc, err := .noError })
      else .refused .unwrittenPixel

/-- The meaning of `DEC_START` (R130): ignored while busy; a configuration error at once; else the decode starts. -/
def execDecStart (s : State) : Result :=
  if s.busy then .next s
  else
    match s.cfg.startError with
    | some e => .next (raiseError e s)
    | none =>
      .next (((s.withDec { s.dec with count := 0 }).withInput s.input.restart).withStatus
        { state := .busyDec, err := .noError })

end Sys2Proof.Machine
end

