-- ==== Sys2Proof/Machine/Encoder.lean ====
section
/-! DEFINITION. The encoder's packet step `ENC_PACKET` (R102 to R113), and the encoder as a pure function (R114). -/

namespace Sys2Proof.Machine

/-- The extension loop of R109 from a mode and a run length: the guard is tested before each comparison (R103), the
comparison is of neighbours (R104), the first fixes the mode (R105), an equal pair in literal mode gives one pixel back
(R106), a differing one in repeat mode stops (R107), else the pixel joins (R108). The fuel bounds the turns. -/
def scanLoop (pixEq : Nat → Nat → Bool) (w cur : Nat) : (fuel : Nat) → Mode → Nat → Mode × Nat
  | 0, m, r => (m, r)
  | fuel + 1, m, r =>
    if r < Config.maxChunk ∧ cur % w + r < w then
      let eq := pixEq (cur + r - 1) (cur + r)
      let m' := fixMode r eq m
      if m' = .literal ∧ eq = true then (m', r - 1)
      else if m' = .repeating ∧ eq = false then (m', r)
      else scanLoop pixEq w cur fuel m' (r + 1)
    else (m, r)

/-- The scan of one run: `RUNLEN <- 1`, `MODE <- UNDET`, then the loop (R102, R109). -/
def scanRun (pixEq : Nat → Nat → Bool) (w cur : Nat) : Mode × Nat :=
  scanLoop pixEq w cur Config.maxChunk .undet 1

/-- The instruction a run is emitted as: repeat in mode REPEAT, literal in mode LITERAL or UNDET (R110, R111). -/
def runInstr : Mode × Nat → Instr
  | (.repeating, r) => .rep r
  | (.literal, r) => .lit r
  | (.undet, r) => .lit r

/-- The scan at `CURPIX` over the state's pixels (R109). -/
def State.run (s : State) : Mode × Nat :=
  scanRun (s.pixbuf.pixEq s.cfg.bytesPerPixel) s.cfg.w s.enc.curPix

/-- The bytes of the packet at `CURPIX`: header, then one pixel or the run verbatim (R84, R110, R111). -/
def State.packetBytes (s : State) : Option (List Byte) :=
  let i := runInstr s.run
  (s.pixbuf.readN (pixAddr s.cfg.bytesPerPixel s.enc.curPix) (payloadLength s.cfg.bytesPerPixel i)).map
    (encodeByte i :: ·)

/-- Every pixel the scan at `CURPIX` may read holds a value (R112, R238). -/
def State.rowWritten (s : State) : Bool :=
  s.pixbuf.written (pixAddr s.cfg.bytesPerPixel s.enc.curPix)
    (runLimit s.cfg.w s.enc.curPix * s.cfg.bytesPerPixel)

/-- The state with the scan's mode and run length in the scratch registers (R30, R31). -/
def State.scanned (s : State) : State := s.withEnc { s.enc with runLen := s.run.2, mode := s.run.1 }

/-- `CURPIX <- CURPIX + RUNLEN`, and DONE at `NPIX` (R112, R101). -/
def State.advance (s : State) : State :=
  let c := s.enc.curPix + s.enc.runLen
  let s' := s.withEnc { s.enc with curPix := c }
  if c = s.cfg.npix then s'.setRunState .done else s'

/-- `ENC_PACKET` (R109): scan, emit, advance; IOFailure at the first write that fails (R113). -/
def encPacket (s : State) : Result :=
  if !s.encReady then .fault .noStepPossible
  else if !s.rowWritten then .refused .unwrittenPixel
  else
    match s.packetBytes with
    | none => .refused .unwrittenPixel
    | some bs =>
      match outWriteN bs s.output with
      | (.fail, o) => .next (failEncode .ioFailure (s.withOutput o))
      | (.ok, o) => .next (s.scanned.withOutput o).advance

/-! ### The encoder as a function (R114) -/

/-- `pix(i)` of a byte sequence (R114). -/
def pixOf (bpp : Nat) (buf : List Byte) (i : Nat) : Pixel := (buf.drop (i * bpp)).take bpp

/-- `Run(c)`: mode and length of the run at pixel `c`, in closed form (R114). -/
def runAt (w bpp : Nat) (buf : List Byte) (c : Nat) : Mode × Nat :=
  let pix := pixOf bpp buf
  let lim := runLimit w c
  if lim = 1 then (.undet, 1)
  else if pix c = pix (c + 1) then
    (.repeating, ((List.range lim).takeWhile (fun j => pix (c + j) == pix c)).length)
  else
    (.literal, ((List.range' 1 (lim - 2)).find? (fun j => pix (c + j) == pix (c + j + 1))).getD lim)

/-- `Packet(c)` (R114). -/
def packetAt (w bpp : Nat) (buf : List Byte) (c : Nat) : List Byte :=
  let run := runAt w bpp buf c
  if run.1 = .repeating then BitVec.ofNat 8 (127 + run.2) :: pixOf bpp buf c
  else BitVec.ofNat 8 (run.2 - 1) :: (buf.drop (c * bpp)).take (run.2 * bpp)

/-- `Encode from c` (R114); the fuel bounds the packets. -/
def encodeFrom (w h bpp : Nat) (buf : List Byte) : (fuel c : Nat) → List Byte
  | 0, _ => []
  | fuel + 1, c =>
    if w * h ≤ c then []
    else packetAt w bpp buf c ++ encodeFrom w h bpp buf fuel (c + (runAt w bpp buf c).2)

/-- `Encode(W, H, B, buf)` (R114): a packet takes in at least one pixel, so `W * H` packets are enough (R101). -/
def encodeImage (w h bpp : Nat) (buf : List Byte) : List Byte := encodeFrom w h bpp buf (w * h) 0

end Sys2Proof.Machine
end

