-- ==== Sys2Proof/Machine/HostBus.lean ====
section
/-! DEFINITION. One turn of the machine: the block's own step by `STATE` (R101, R131, R214), and the moves of the host and
the environment (R21 to R25, R42, R58, R230, R231, R235 to R237). -/

namespace Sys2Proof.Machine

/-! ### The block -/

/-- `DEC_PACKET` (R139): fetch the header byte, then run the packet it opens. -/
def decPacket (s : State) : Result :=
  if !s.decReady then .fault .noStepPossible
  else
    match fetchPacket s with
    | .instr i s' => exec i s'
    | .stopped e s' => .next (failDecode e s')

/-- The block's step: a packet while an operation runs, else nothing at all (R101, R131, R214, R230). -/
def blockStep (s : State) : Result :=
  match s.status.state with
  | .busyEnc => encPacket s
  | .busyDec => decPacket s
  | .idle => .next s
  | .done => .next s
  | .error => .next s

/-! ### The host and the environment -/

/-- A write to `CMD` (R24): a command is executed; a reserved value changes nothing (R91). The commands themselves ignore a
write while busy (R100, R130, R237). -/
def writeCommand (v : Byte) (s : State) : Result :=
  match decodeCommand v with
  | .ok i => exec i s
  | .error _ => .next s

/-- A write to a configuration register: stored as written, and lost while an operation runs (R21 to R23, R236). -/
def writeConfig (c : Cfg) (s : State) : Result := if s.busy then .next s else .next (s.withCfg c)

/-- What a read of a register answers (R21 to R25): `CMD` reads as 0. -/
def regValue (r : Reg) (s : State) : HostAnswer :=
  match r with
  | .cmd => .reg8 0
  | .status => .reg8 s.status.byte
  | .cfgWidth => .reg16 s.cfg.width
  | .cfgHeight => .reg16 s.cfg.height
  | .cfgBpp => .reg8 s.cfg.bpp

/-- A move that touches `PIXBUF` or a stream: given no meaning while an operation runs, so the run is refused (R42,
R235). -/
def whenOwned (s : State) (r : Result) : Result := if s.busy then .refused .hostTouchedDuringOperation else r

/-- The host's write of one byte of `PIXBUF`; the memory ends at `PIXBUF_CAP` (R42, R6). -/
def hostWritePix (a : Nat) (v : Byte) (s : State) : Result :=
  if Config.pixbufCap ≤ a then .fault .outsidePixelMemory else .next (s.withPixbuf (s.pixbuf.write a v))

/-- The host's read of one byte of `PIXBUF`: a byte nothing has written holds no value (R42, R238). -/
def hostReadPix (a : Nat) (s : State) : Result :=
  if Config.pixbufCap ≤ a then .fault .outsidePixelMemory
  else
    match s.pixbuf.read a with
    | some v => .next (s.withLastRead (.pix v))
    | none => .refused .unwrittenPixel

/-- The registers at their reset values; memory and streams as they stand (R230, R40). -/
def resetRegisters (s : State) : State :=
  (((s.withCfg Cfg.reset).withStatus Status.reset).withEnc EncRegs.reset).withDec DecRegs.reset

/-- What an abandoned encode leaves: of the packet in progress, `OUT` has taken a free number of bytes, a
function of the draw counter (R231, log 11, log 9). -/
def State.abandonEncode (s : State) : State :=
  let bs := if s.encReady && s.rowWritten then s.packetBytes.getD [] else []
  (s.withOutput (outWriteN (bs.take (Config.freeOutTail s.draws % (bs.length + 1))) s.output).2).drawn

/-- What an abandoned decode leaves: `PIXBUF` and `IN.POS` unspecified (R231, R208), free values that depend on the draw counter
alone (log 9, log 11). -/
def State.abandonDecode (s : State) : State := (s.freeDecodeMemory s.input.data.length).drawn

/-- The reset input (R230); during an operation it abandons the operation (R231). -/
def resetBlock (s : State) : State :=
  resetRegisters
    (match s.status.state with
    | .busyEnc => s.abandonEncode
    | .busyDec => s.abandonDecode
    | .idle => s
    | .done => s
    | .error => s)

/-- One move of the host or the environment, already taken off the list of pending moves (R244). -/
def hostMove (m : HostMove) (s : State) : Result :=
  match m with
  | .wait => blockStep s
  | .writeCmd v => writeCommand v s
  | .writeStatus _ => .next s
  | .writeWidth v => writeConfig { s.cfg with width := v } s
  | .writeHeight v => writeConfig { s.cfg with height := v } s
  | .writeBpp v => writeConfig { s.cfg with bpp := v } s
  | .readReg r => .next (s.withLastRead (regValue r s))
  | .writePix a v => whenOwned s (hostWritePix a v s)
  | .readPix a => whenOwned s (hostReadPix a s)
  | .setIn c p t => whenOwned s (.next (s.withInput { content := c, point := p, term := t, pos := 0 }))
  | .setOut d f => whenOwned s (.next (s.withOutput { data := d, failAt := f }))
  | .reset => .next (resetBlock s)

/-- One turn: the next pending move, or the block's step when the host has none (log 1). -/
def turn (s : State) : Result :=
  match s.host with
  | [] => blockStep s
  | m :: rest => hostMove m (s.withHost rest)

/-! ### Placing one instruction where the next turn takes it -/

/-- The input stream with a header byte and 512 zero bytes of payload at its read position. -/
def InStream.place (b : Byte) (i : InStream) : InStream :=
  let front := i.content.take (i.point + i.pos)
  { i with
    content := front ++ b :: List.replicate 512 0
    point := min i.point front.length
    pos := front.length - min i.point front.length }

/-- A running decode with at least one pixel to go: the state's own if its configuration allows one, else 128 by 1 pixels of
1 byte, the smallest image every packet fits. -/
def State.decoding (s : State) : State :=
  let s' := s.withStatus { state := .busyDec, err := .noError }
  if s'.decReady then s'
  else (s'.withCfg { width := 128, height := 1, bpp := 1 }).withDec { s.dec with count := 0 }

/-- Place a table word's byte where the next turn takes it: a command as the host's next move, a packet header at the
decoder's read position of a running decode, with the step left to the block (log 2). -/
def placeWord (s : State) (w : Nat) : State :=
  let b : Byte := BitVec.ofNat 8 w
  match tableSpace b with
  | .command => s.withHost (.writeCmd b :: s.host)
  | .packet => (s.decoding.withInput (s.input.place b)).withHost (.wait :: s.host)

end Sys2Proof.Machine
end

