-- ==== Sys2Proof/Machine/Step.lean ====
section
/-! DEFINITION. The step of the machine, and the placing of one instruction where the step takes it. -/

namespace Sys2Proof.Machine

/-- One step: the next move of the host, or the block's own step (R62, R101, R131; log 1). -/
def step (s : State) : Host.Outcome State Fault Refusal := turn s

/-- The state with one instruction, its bits as the opcode table numbers them, where the next step takes it (log 2). Every
row of the table is one byte. -/
def State.withFetchWord (s : State) (_nbits w : Nat) : State := placeWord s w

end Sys2Proof.Machine
end

