-- ==== Sys2Proof/Machine/Codec.lean ====
section
/-! DEFINITION. The host software around the block (42_host_context.md, outside the block by R4), as pure functions: the
pixel format, colour, pixel buffer, TGA header, Save and Load (R160 to R185), and the host's scripts for the block (R176,
R181, R233, R234). -/

namespace Sys2Proof.Codec

open Sys2Proof.Machine

/-- PixelFormat (R160). -/
inductive PixelFormat where
  | grayscale
  | rgb
  | rgba
  deriving DecidableEq, Repr

/-- The format's value is its bytes per pixel (R160). -/
def PixelFormat.bytesPerPixel : PixelFormat → Nat
  | .grayscale => 1
  | .rgb => 3
  | .rgba => 4

/-- The format of a number of bytes per pixel; any other number is no format (R160). -/
def PixelFormat.ofBytes (n : Nat) : Option PixelFormat :=
  if n = 1 then some .grayscale else if n = 3 then some .rgb else if n = 4 then some .rgba else none

/-! ### Color -/

/-- Color: a packed 32-bit value, tagged with the format of the buffer it was read from (R161). -/
structure Color where
  packed : BitVec 32
  tag : PixelFormat
  deriving DecidableEq, Repr

/-- `(blue<<24)|(green<<16)|(red<<8)|alpha` (R161). -/
def packColor (blue green red alpha : Byte) : BitVec 32 := blue ++ green ++ red ++ alpha

/-- Index 0 is the highest byte, index 3 the lowest (R161). -/
def Color.index (c : Color) (i : Nat) : Byte := c.packed.extractLsb' (8 * (3 - i)) 8

/-- A factor clamped to [0, 1] (R161). -/
def clampFactor (f : Rat) : Rat := if f < 0 then 0 else if 1 < f then 1 else f

/-- The byte of a product of a channel and a clamped factor: the product itself where it is a whole number, which is then at
most 255 (R161); its rounding, which is free, where it is not (N16; log 18). -/
def channelByte (p : Rat) : Byte := if p.den = 1 then BitVec.ofNat 8 p.num.toNat else Config.roundChannel p

/-- Intensity scaling: the first three channels by the clamped factor, the fourth unchanged (R161). That the result keeps the
tag of the color scaled is a DESIGN CHOICE (log 18): R161 speaks only of the tag of a Color that `GetPixel` returns. -/
def Color.scale (f : Rat) (c : Color) : Color :=
  let channel (i : Nat) : Byte := channelByte (((c.index i).toNat : Rat) * clampFactor f)
  { c with packed := packColor (channel 0) (channel 1) (channel 2) (c.index 3) }

/-! ### PixelBuffer -/

/-- PixelBuffer (R162). -/
structure PixelBuffer where
  width : Nat
  height : Nat
  format : PixelFormat
  bytes : List Byte
  deriving DecidableEq, Repr

/-- Width and height are positive and the bytes are as many as they say (R162). -/
def PixelBuffer.wf (b : PixelBuffer) : Bool :=
  decide (0 < b.width) && decide (0 < b.height) &&
    decide (b.bytes.length = b.height * b.width * b.format.bytesPerPixel)

/-- `Create`: zero-filled; nothing for a width or height that is not positive, which is the caller's error (R166, U2). -/
def create (width height : Int) (format : PixelFormat) : Option PixelBuffer :=
  if 0 < width ∧ 0 < height then
    some
      { width := width.toNat
        height := height.toNat
        format := format
        bytes := List.replicate (height.toNat * width.toNat * format.bytesPerPixel) 0 }
  else none

/-- `BytesPerRow` (R167). -/
def PixelBuffer.bytesPerRow (b : PixelBuffer) : Nat := b.width * b.format.bytesPerPixel

/-- A coordinate is inside the buffer (R168). -/
def PixelBuffer.inside (b : PixelBuffer) (x y : Int) : Bool :=
  decide (0 ≤ x) && decide (x < b.width) && decide (0 ≤ y) && decide (y < b.height)

/-- The row-major offset `(y * width + x) * bytesPerPixel(format)` (R168). -/
def PixelBuffer.offset (b : PixelBuffer) (x y : Int) : Nat :=
  (y.toNat * b.width + x.toNat) * b.format.bytesPerPixel

/-- The channel `i` of a pixel: its byte, or 0xFF where the format has fewer channels (R168). -/
def channelOf (p : Pixel) (i : Nat) : Byte := p.getD i 0xFF#8

/-- `GetPixel(x, y)`: OutOfRange outside the buffer; missing channels are 0xFF; index 0 first (R168; DEDUCED, N17). -/
def getPixel (x y : Int) (b : PixelBuffer) : Except ErrKind Color :=
  if b.inside x y then
    let p := (b.bytes.drop (b.offset x y)).take b.format.bytesPerPixel
    .ok
      { packed := packColor (channelOf p 0) (channelOf p 1) (channelOf p 2) (channelOf p 3)
        tag := b.format }
  else .error .outOfRange

/-- `SetPixel(x, y, color)`: silently ignored outside the buffer; the first channels to ascending offsets (R169). -/
def setPixel (x y : Int) (c : Color) (b : PixelBuffer) : PixelBuffer :=
  if b.inside x y then
    { b with bytes := putBytes (b.offset x y) ((List.range b.format.bytesPerPixel).map c.index) b.bytes }
  else b

/-- `Clear()` (R170). -/
def clear (b : PixelBuffer) : PixelBuffer := { b with bytes := List.replicate b.bytes.length 0 }

/-- Row `l`: the `ROWBYTES` bytes from offset `l * ROWBYTES` (R171). -/
def rowOf (rowBytes l : Nat) (bytes : List Byte) : List Byte := (bytes.drop (l * rowBytes)).take rowBytes

/-- Swap two rows (R171). -/
def swapRows (rowBytes l m : Nat) (bytes : List Byte) : List Byte :=
  putBytes (m * rowBytes) (rowOf rowBytes l bytes) (putBytes (l * rowBytes) (rowOf rowBytes m bytes) bytes)

/-- Swap row `l` with row `height - 1 - l` for every `l` below a bound (R171). -/
def flipRows (rowBytes height : Nat) : Nat → List Byte → List Byte
  | 0, bytes => bytes
  | l + 1, bytes => swapRows rowBytes l (height - 1 - l) (flipRows rowBytes height l bytes)

/-- `VerticalFlip()`: row `l` with row `Height-1-l` for `l` in `[0, Height/2)` (R171). -/
def verticalFlip (b : PixelBuffer) : PixelBuffer :=
  { b with bytes := flipRows b.bytesPerRow b.height (b.height / 2) b.bytes }

/-! ### The TGA header -/

/-- TGAHeader (R163). -/
structure TgaHeader where
  idLength : Byte
  colorMapType : Byte
  dataTypeCode : Byte
  colorMapOrigin : Half
  colorMapLength : Half
  colorMapDepth : Byte
  originX : Half
  originY : Half
  width : Half
  height : Half
  bitsPerPixel : Byte
  imageDescriptor : Byte
  deriving DecidableEq, Repr

/-- An i16 field as 2 bytes, low byte first (R163). -/
def halfBytes (v : Half) : List Byte := [v.extractLsb' 0 8, v.extractLsb' 8 8]

/-- The 18 bytes of the header, in field order (R164, R174). -/
def TgaHeader.bytes (h : TgaHeader) : List Byte :=
  [h.idLength, h.colorMapType, h.dataTypeCode] ++ halfBytes h.colorMapOrigin ++ halfBytes h.colorMapLength ++
    [h.colorMapDepth] ++ halfBytes h.originX ++ halfBytes h.originY ++ halfBytes h.width ++ halfBytes h.height ++
    [h.bitsPerPixel, h.imageDescriptor]

/-- The number two bytes stand for, low byte first (R163). -/
def half (lo hi : Byte) : Half := hi ++ lo

/-- The header at the head of a file and the bytes after it; nothing when 18 bytes are not there (R177). -/
def parseHeader : List Byte → Option (TgaHeader × List Byte)
  | b0 :: b1 :: b2 :: b3 :: b4 :: b5 :: b6 :: b7 :: b8 :: b9 :: b10 :: b11 :: b12 :: b13 :: b14 :: b15 :: b16 :: b17 :: rest =>
    some
      ({ idLength := b0
         colorMapType := b1
         dataTypeCode := b2
         colorMapOrigin := half b3 b4
         colorMapLength := half b5 b6
         colorMapDepth := b7
         originX := half b8 b9
         originY := half b10 b11
         width := half b12 b13
         height := half b14 b15
         bitsPerPixel := b16
         imageDescriptor := b17 }, rest)
  | _ => none

/-- DataTypeCode (R165). -/
inductive DataType where
  | noImageData
  | uncompressedColorMapped
  | uncompressedTrueColor
  | uncompressedGrayscale
  | rleColorMapped
  | rleTrueColor
  | rleGrayscale
  deriving DecidableEq, Repr

/-- The on-disk tag (R165). -/
def DataType.code : DataType → Byte
  | .noImageData => 0
  | .uncompressedColorMapped => 1
  | .uncompressedTrueColor => 2
  | .uncompressedGrayscale => 3
  | .rleColorMapped => 9
  | .rleTrueColor => 10
  | .rleGrayscale => 11

/-- The four codes Load accepts, with whether the pixel data is RLE; every other byte is rejected (R165, R178). -/
def acceptedDataType (code : Byte) : Option Bool :=
  if code = DataType.uncompressedTrueColor.code ∨ code = DataType.uncompressedGrayscale.code then some false
  else if code = DataType.rleTrueColor.code ∨ code = DataType.rleGrayscale.code then some true
  else none

/-! ### Save -/

/-- The data type code Save writes (R172). -/
def saveDataType (rle : Bool) (f : PixelFormat) : DataType :=
  match f, rle with
  | .grayscale, true => .rleGrayscale
  | .grayscale, false => .uncompressedGrayscale
  | .rgb, true => .rleTrueColor
  | .rgb, false => .uncompressedTrueColor
  | .rgba, true => .rleTrueColor
  | .rgba, false => .uncompressedTrueColor

/-- `0x20`, with `8` for RGBA (R173). -/
def saveDescriptor (f : PixelFormat) : Byte := if f = .rgba then 0x28#8 else 0x20#8

/-- The header Save builds (R172, R173). -/
def saveHeader (rle : Bool) (b : PixelBuffer) : TgaHeader :=
  { idLength := 0
    colorMapType := 0
    dataTypeCode := (saveDataType rle b.format).code
    colorMapOrigin := 0
    colorMapLength := 0
    colorMapDepth := 0
    originX := 0
    originY := 0
    width := BitVec.ofNat 16 b.width
    height := BitVec.ofNat 16 b.height
    bitsPerPixel := BitVec.ofNat 8 (b.format.bytesPerPixel * 8)
    imageDescriptor := saveDescriptor b.format }

/-- The pixel data Save writes: the raw bytes, or the packets of the encoder (R175, R176). -/
def savePixels (rle : Bool) (b : PixelBuffer) : List Byte :=
  if rle then encodeImage b.width b.height b.format.bytesPerPixel b.bytes else b.bytes

/-- The bytes Save writes when no write fails: the header, then the pixel data (R174 to R176). -/
def saveFile (rle : Bool) (b : PixelBuffer) : List Byte := (saveHeader rle b).bytes ++ savePixels rle b

/-- How Save ends: with everything written; with an error of RS's kinds, and the partial output it leaves (R183, R184); or
refused, for a size above 32767, the caller's error (U1). -/
inductive SaveEnd where
  | saved (o : OutStream)
  | failed (e : ErrKind) (o : OutStream)
  | sizeTooLarge
  deriving DecidableEq, Repr

/-- `Save(B, rle)` onto an output stream (R172 to R176). The first write that fails, in the header, the raw bytes or the packets,
ends it at once with IOFailure, and the bytes written before it stay (R183, R184, R59; for the packets R113, log 10). -/
def save (rle : Bool) (b : PixelBuffer) (o : OutStream) : SaveEnd :=
  if b.width ≤ 32767 ∧ b.height ≤ 32767 then
    match outWriteN (saveHeader rle b).bytes o with
    | (.fail, o') => .failed .ioFailure o'
    | (.ok, o') =>
      match outWriteN (savePixels rle b) o' with
      | (.fail, o'') => .failed .ioFailure o''
      | (.ok, o'') => .saved o''
  else .sizeTooLarge

/-! ### Load -/

/-- How Load ends without a buffer: an error of RS's kinds, or a file the model refuses, one with an id field (U9). -/
inductive LoadStop where
  | failed (e : ErrKind)
  | idFieldPresent
  deriving DecidableEq, Repr

/-- The three tests of Load, in order: size, format, data type (R178); the format and whether the data is RLE. -/
def validateHeader (h : TgaHeader) : Except ErrKind (PixelFormat × Bool) :=
  if ¬ (1 ≤ h.width.toInt ∧ 1 ≤ h.height.toInt) then .error .invalidDimensions
  else
    match PixelFormat.ofBytes (h.bitsPerPixel.toNat / 8) with
    | none => .error .unsupportedFormat
    | some f =>
      match acceptedDataType h.dataTypeCode with
      | none => .error .unsupportedFormat
      | some rle => .ok (f, rle)

/-- The pixel data of Load: exactly `height*BytesPerRow` raw bytes, or the decoder's buffer (R180, R181). -/
def loadPixels (rle : Bool) (w h bpp : Nat) (rest : List Byte) (term : Term) : Except ErrKind (List Byte) :=
  if rle then
    match decodeImage w h bpp rest term with
    | .ok buf _ => .ok buf
    | .err e => .error e
  else if rest.length < h * (w * bpp) then .error term.errKind
  else .ok (rest.take (h * (w * bpp)))

/-- `Load` of a file whose bytes end in `term` (R177 to R182): the flip is last, when the origin bit is 0. -/
def load (file : List Byte) (term : Term) : Except LoadStop PixelBuffer :=
  match parseHeader file with
  | none => .error (.failed term.errKind)
  | some (h, rest) =>
    match validateHeader h with
    | .error e => .error (.failed e)
    | .ok (f, rle) =>
      if h.idLength ≠ 0 then .error .idFieldPresent
      else
        match loadPixels rle h.width.toNat h.height.toNat f.bytesPerPixel rest term with
        | .error e => .error (.failed e)
        | .ok bytes =>
          let b : PixelBuffer :=
            { width := h.width.toNat
              height := h.height.toNat
              format := f
              bytes := bytes }
          .ok (if h.imageDescriptor &&& 0x20#8 = 0 then verticalFlip b else b)

/-! ### The host's scripts for the block -/

/-- The three configuration writes (R233, R234). -/
def configureScript (w h bpp : Nat) : List HostMove :=
  [.writeWidth (BitVec.ofNat 16 w), .writeHeight (BitVec.ofNat 16 h), .writeBpp (BitVec.ofNat 8 bpp)]

/-- The writes that put bytes into `PIXBUF` from an offset on (R233). -/
def fillScript : Nat → List Byte → List HostMove
  | _, [] => []
  | a, b :: bs => .writePix a b :: fillScript (a + 1) bs

/-- What a host does to have the block encode a buffer after a header (R176, R233). -/
def encodeScript (b : PixelBuffer) (header : List Byte) (failAt : Option Nat) : List HostMove :=
  configureScript b.width b.height b.format.bytesPerPixel ++ fillScript 0 b.bytes ++
    [.setOut header failAt, .writeCmd 0x01#8]

/-- What a host does to have the block decode the packet stream at a point of a file (R181, R234). -/
def decodeScript (w h bpp : Nat) (file : List Byte) (point : Nat) (term : Term) : List HostMove :=
  configureScript w h bpp ++ [.setIn file point term, .writeCmd 0x02#8]

end Sys2Proof.Codec
end

