-- ==== Sys2Proof/Safety.lean ====
section
/-! DEFINITION. What counts as a sound state and a legal move of the status: the invariants the statements speak of. -/

namespace Sys2Proof.Machine

/-- The pixel memory is in canonical form and lies below `PIXBUF_CAP` (R6, R36). -/
def State.memSound (s : State) : Prop :=
  s.pixbuf.wf = true ∧ ∀ a, Config.pixbufCap ≤ a → s.pixbuf.read a = none

/-- `ERR` is 0 exactly when `STATE` is not ERROR (R27), and the block never sets OutOfRange (R203). -/
def State.statusSound (s : State) : Prop :=
  (s.status.err = .noError ↔ s.status.state ≠ .error) ∧ s.status.err ≠ .outOfRange

/-- A running encode has a legal configuration, a pixel to go and a fully written image (R109, R112, R238). -/
def State.encSound (s : State) : Prop :=
  s.status.state = .busyEnc → s.cfg.legal = true ∧ s.enc.curPix < s.cfg.npix ∧ s.pixbuf.written 0 s.cfg.nbytes = true

/-- A running decode has a legal configuration and a pixel to go (R139). -/
def State.decSound (s : State) : Prop :=
  s.status.state = .busyDec → s.cfg.legal = true ∧ s.dec.count < s.cfg.npix

/-- The working registers are in their ranges: `CURPIX` below 2^30, `RUNLEN` 1 to 128, `COUNT` below 2^31, `PIXLATCH` at
most 4 bytes (R20). -/
def State.rangesSound (s : State) : Prop :=
  s.enc.curPix < 2 ^ 30 ∧ 1 ≤ s.enc.runLen ∧ s.enc.runLen ≤ 128 ∧ s.dec.count < 2 ^ 31 ∧ s.dec.pixLatch.length ≤ 4

/-- `IN.POS` never exceeds `|IN.data|` (R57). -/
def State.streamSound (s : State) : Prop := s.input.pos ≤ s.input.data.length

/-- The invariant of the machine. -/
structure State.Inv (s : State) : Prop where
  mem : s.memSound
  status : s.statusSound
  enc : s.encSound
  dec : s.decSound
  ranges : s.rangesSound
  stream : s.streamSound

/-- What a decoder step never touches: the configuration, the encoder's registers, `OUT`, what the environment put in `IN`, the
host's moves and the last read's answer (R60). -/
def State.decodeFrame (s t : State) : Prop :=
  t.cfg = s.cfg ∧ t.enc = s.enc ∧ t.output = s.output ∧ t.input.content = s.input.content ∧
    t.input.point = s.input.point ∧ t.input.term = s.input.term ∧ t.host = s.host ∧ t.lastRead = s.lastRead

/-- What an encoder step never touches: the configuration, the decoder's registers, `PIXBUF`, `IN`, the failure point of
`OUT`, the host's moves and the last read's answer (R60). -/
def State.encodeFrame (s t : State) : Prop :=
  t.cfg = s.cfg ∧ t.dec = s.dec ∧ t.pixbuf = s.pixbuf ∧ t.input = s.input ∧ t.output.failAt = s.output.failAt ∧
    t.host = s.host ∧ t.lastRead = s.lastRead

/-- A decode stopped by an error, from a state: `STATUS` says which, no byte outside the image has changed, `IN.POS` is at most
a bound (R206, R208). -/
def State.decodeFailed (s t : State) (e : ErrKind) (bound : Nat) : Prop :=
  t.status = { state := .error, err := e } ∧ s.decodeFrame t ∧ t.input.pos ≤ bound ∧
    ∀ a, s.cfg.nbytes ≤ a → t.pixbuf.read a = s.pixbuf.read a

/-- The next step is the block's own: no move of the host is pending, or its move is `wait` (log 1). -/
def State.blockTurn (s : State) : Prop := s.host = [] ∨ s.host.head? = some .wait

end Sys2Proof.Machine
end

