-- ==== Sys2Proof/Certificates/Slice0/Obligations.lean ====
section
/-! DEFINITION. The statements for the provers, from the numbered rules of spec/. -/

open Sys2Proof Sys2Proof.Machine Sys2Proof.Codec

/-! ### Encoding (30_encoding.md) -/

/-- Decoding the byte of a well-formed instruction in its own space gives the instruction back, and the bytes after it (R84:
the header formula is the inverse of the decoder's; R90: the command values). -/
def Obligations.DecodeOfEncodeIsIdentity : Prop :=
  ∀ (i : Instr) (rest : List Byte), i.wf = true → decode i.space (encode i ++ rest) = .ok (i, rest)

/-- Every one of the 256 header bytes opens a well-formed packet, and that packet's header is the byte (R86). -/
def Obligations.EveryHeaderByteIsAPacket : Prop :=
  ∀ h : Byte, (decodeHeader h).wf = true ∧ (decodeHeader h).space = .packet ∧ encodeByte (decodeHeader h) = h

/-- The pixel count of a header byte: `h + 1` for a literal, `h - 127` for a repeat, which is the low seven bits plus one
(R82). -/
def Obligations.HeaderGivesKindAndCount : Prop :=
  ∀ h : Byte, (h.toNat < 128 → decodeHeader h = .lit (h.toNat + 1)) ∧
    (128 ≤ h.toNat → decodeHeader h = .rep (h.toNat - 127)) ∧
    headerCount h = (h &&& 0x7F#8).toNat + 1 ∧ 1 ≤ headerCount h ∧ headerCount h ≤ 128

/-- The header byte of a run of `n` pixels is `n - 1` for a literal and `128 + (n - 1)` for a repeat; neither leaves 8 bits, and
each decodes to `n` with its own type bit (R84). -/
def Obligations.HeaderByteOfARun : Prop :=
  ∀ n : Nat, 1 ≤ n → n ≤ 128 →
    ((encodeByte (.lit n)).toNat = n - 1 ∧ headerType (encodeByte (.lit n)) = false ∧
      decodeHeader (encodeByte (.lit n)) = .lit n) ∧
    ((encodeByte (.rep n)).toNat = 128 + (n - 1) ∧ headerType (encodeByte (.rep n)) = true ∧
      decodeHeader (encodeByte (.rep n)) = .rep n)

/-- Words written out from the spec's tables decode to the instructions they stand for (95_test_vectors.md E1 to E8, R90,
R91). -/
def Obligations.WrittenWordsDecode : Prop :=
  decode .packet [0x00#8] = .ok (.lit 1, []) ∧ decode .packet [0x2A#8] = .ok (.lit 43, []) ∧
    decode .packet [0x7F#8] = .ok (.lit 128, []) ∧ decode .packet [0x80#8] = .ok (.rep 1, []) ∧
    decode .packet [0xAB#8] = .ok (.rep 44, []) ∧ decode .packet [0xFF#8] = .ok (.rep 128, []) ∧
    decode .command [0x01#8] = .ok (.encStart, []) ∧ decode .command [0x02#8] = .ok (.decStart, []) ∧
    decode .command [0x00#8] = .error (.reservedCommand 0x00#8) ∧
    decode .command [0x03#8] = .error (.reservedCommand 0x03#8)

/-- A whole packet, its payload included, is read back from its bytes, which are as many as R83 says (R80, R83, R92). -/
def Obligations.PacketReadBackFromItsBytes : Prop :=
  ∀ (bpp : Nat) (p : Packet) (rest : List Byte), p.wf bpp = true →
    decodePacket bpp (encodePacket p ++ rest) = some (p, rest) ∧
      (encodePacket p).length = packetLength bpp p.instr

/-! ### Primitives (00_scope.md R10, 20_memory.md) -/

/-- `InRead()` (R57). -/
def Obligations.InReadAnswersNextByteOrTerminator : Prop :=
  ∀ i : InStream,
    (∀ b, i.data[i.pos]? = some b → inRead i = .byte b { i with pos := i.pos + 1 }) ∧
      (i.data.length ≤ i.pos → inRead i = .stop i.term i)

/-- `OutWrite(b)` (R59). -/
def Obligations.OutWriteAppendsOrFails : Prop :=
  ∀ (b : Byte) (o : OutStream),
    (o.failAt = none → outWrite b o = (.ok, { o with data := o.data ++ [b] })) ∧
      ∀ f, o.failAt = some f →
        (o.data.length + 1 ≤ f → outWrite b o = (.ok, { o with data := o.data ++ [b] })) ∧
          (f < o.data.length + 1 → outWrite b o = (.fail, o))

/-- `MemWrite` stores its bytes from the address up and changes no other byte (R54); `MemRead` gives them back in order
(R53); the memory keeps its canonical form. -/
def Obligations.MemWriteStoresExactlyItsBytes : Prop :=
  ∀ (m : Mem) (a : Nat) (v : List Byte),
    (m.writeN a v).readN a v.length = some v ∧
      (∀ x, (x < a ∨ a + v.length ≤ x) → (m.writeN a v).read x = m.read x) ∧
      (m.wf = true → (m.writeN a v).wf = true)

/-- `raise E` writes the two fields of `STATUS` and nothing else (R206). -/
def Obligations.RaiseWritesStatusOnly : Prop :=
  ∀ (e : ErrKind) (s : State), raiseError e s = { s with status := { state := .error, err := e } }

/-! ### Registers and reset (10_state.md, 70_reset_and_hazards.md) -/

/-- What State.reset holds where the spec gives a value (R40): an illegal configuration of zeros, `STATUS` 0x00, no byte of
`PIXBUF` with a value; and from there the block does nothing (R230). -/
def Obligations.ResetStateHoldsResetValues : Prop :=
  State.reset.cfg = { width := 0#16, height := 0#16, bpp := 0#8 } ∧ State.reset.cfg.legal = false ∧
    State.reset.status = { state := .idle, err := .noError } ∧ State.reset.status.byte = 0x00#8 ∧
    (∀ a, State.reset.pixbuf.read a = none) ∧ step State.reset = .next State.reset

/-- The reset input: registers at their reset values, and outside an operation `PIXBUF`, `IN` and `OUT` unchanged (R230). -/
def Obligations.ResetInputSetsRegisters : Prop :=
  ∀ (s : State) (rest : List HostMove), s.host = .reset :: rest →
    ∃ t, step s = .next t ∧ t.cfg = { width := 0#16, height := 0#16, bpp := 0#8 } ∧
      t.status = { state := .idle, err := .noError } ∧ t.host = rest ∧
      (s.busy = false → t.pixbuf = s.pixbuf ∧ t.input = s.input ∧ t.output = s.output)

/-- A reset during an operation abandons it: `STATUS` reads 0x00; an abandoned decode leaves `OUT` and every byte outside the
image, with `IN.POS` inside the data; an abandoned encode leaves `PIXBUF` and `IN` and has `OUT` end in a leading part of the
packet in progress (R231, R208). That the part belongs to the one packet in progress is the model's (log 11). -/
def Obligations.ResetDuringOperationAbandonsIt : Prop :=
  ∀ (s : State) (rest : List HostMove), s.host = .reset :: rest →
    ∃ t, step s = .next t ∧ t.status.byte = 0x00#8 ∧
      (s.status.state = .busyDec →
        t.output = s.output ∧ t.input.data = s.input.data ∧ t.input.term = s.input.term ∧
          t.input.pos ≤ s.input.data.length ∧
          ∀ a, s.cfg.nbytes ≤ a → t.pixbuf.read a = s.pixbuf.read a) ∧
      (s.status.state = .busyEnc →
        t.pixbuf = s.pixbuf ∧ t.input = s.input ∧
          ∃ part, part <+: s.packetBytes.getD [] ∧ t.output.data = s.output.data ++ part)

/-- A write to a configuration register while an operation runs changes nothing; otherwise the register holds what was written
and nothing else changes (R21, R22, R23, R236). -/
def Obligations.ConfigWriteStoresUnlessBusy : Prop :=
  ∀ (s : State) (rest : List HostMove),
    (∀ v, s.host = .writeWidth v :: rest →
      step s = .next (if s.busy then { s with host := rest }
        else { s with host := rest, cfg := { s.cfg with width := v } })) ∧
    (∀ v, s.host = .writeHeight v :: rest →
      step s = .next (if s.busy then { s with host := rest }
        else { s with host := rest, cfg := { s.cfg with height := v } })) ∧
    (∀ v, s.host = .writeBpp v :: rest →
      step s = .next (if s.busy then { s with host := rest }
        else { s with host := rest, cfg := { s.cfg with bpp := v } }))

/-- What a read of each register answers, at any time: `CMD` 0, `STATUS` its byte, the configuration as stored; a read changes
nothing but the answer (R21 to R25). -/
def Obligations.RegisterReadAnswers : Prop :=
  ∀ (s : State) (r : Reg) (rest : List HostMove), s.host = .readReg r :: rest →
    step s = .next { s with
      host := rest
      lastRead := some
        (match r with
        | .cmd => .reg8 0x00#8
        | .status => .reg8 s.status.byte
        | .cfgWidth => .reg16 s.cfg.width
        | .cfgHeight => .reg16 s.cfg.height
        | .cfgBpp => .reg8 s.cfg.bpp) }

/-- `STATUS`: a read answers `(ERR << 4) | STATE` at any time, bits 2 to 0 the number of `STATE`, bit 3 zero, bits 6 to 4 the
number of `ERR`, bit 7 zero; a write changes nothing (R25 to R27). -/
def Obligations.StatusRegisterReadsItsFields : Prop :=
  ∀ (s : State) (rest : List HostMove),
    (s.host = .readReg .status :: rest →
      step s = .next { s with host := rest, lastRead := some (.reg8 s.status.byte) }) ∧
    (∀ v, s.host = .writeStatus v :: rest → step s = .next { s with host := rest }) ∧
    s.status.byte = (s.status.err.code <<< 4) ||| s.status.state.code ∧
    (s.status.byte.extractLsb' 0 3).toNat =
        (match s.status.state with | .idle => 0 | .busyEnc => 1 | .busyDec => 2 | .done => 3 | .error => 4) ∧
      (s.status.byte.extractLsb' 4 3).toNat =
        (match s.status.err with
        | .noError => 0 | .invalidDimensions => 1 | .unsupportedFormat => 2 | .outOfRange => 3 | .corruptStream => 4
        | .ioFailure => 5) ∧
      s.status.byte.getLsbD 3 = false ∧ s.status.byte.getLsbD 7 = false

/-- Every reserved value written to `CMD` changes nothing, and so does any value while an operation runs (R91, R237). -/
def Obligations.ReservedOrBusyCommandChangesNothing : Prop :=
  ∀ (s : State) (v : Byte) (rest : List HostMove), s.host = .writeCmd v :: rest →
    ((v ≠ 0x01#8 ∧ v ≠ 0x02#8) ∨ s.busy = true) → step s = .next { s with host := rest }

/-! ### Whose step it is -/

/-- With no move pending, a running decode with a byte at its read position runs the instruction that byte decodes to, with the
byte taken from `IN` and latched in `H` (R132, R139). -/
def Obligations.StepRunsThePacketFetched : Prop :=
  ∀ (s : State) (h : Byte) (i : Instr) (rest : List Byte),
    s.host = [] → s.status.state = .busyDec → s.cfg.legal = true → s.dec.count < s.cfg.npix →
    s.input.data.drop s.input.pos = h :: rest → decode .packet (h :: rest) = .ok (i, rest) →
    step s = exec i { s with
      input := { s.input with pos := s.input.pos + 1 }
      dec := { s.dec with h := h } }

/-- A byte written to `CMD` that decodes to a command runs it (R24, R90). -/
def Obligations.StepRunsTheCommandWritten : Prop :=
  ∀ (s : State) (v : Byte) (i : Instr) (rest : List HostMove),
    s.host = .writeCmd v :: rest → decode .command [v] = .ok (i, []) → step s = exec i { s with host := rest }

/-- A `wait` at the head of the host's moves leaves the step to the block: the step is the block's own, as with no move
pending, and takes the `wait` off the list (R62, R101, R131). That host moves and packet steps interleave so is the model's
(log 1), and that the values left unspecified after an error are the same is its choice too (log 9). With this, what is
stated of a block step with no move pending holds after every `wait`. -/
def Obligations.WaitLeavesTheStepToTheBlock : Prop :=
  ∀ (s : State) (rest : List HostMove), s.host = .wait :: rest →
    step s =
      match step (s.withHost []) with
      | .next t => .next (t.withHost rest)
      | .fault f => .fault f
      | .refused r => .refused r

/-- When no operation runs and no move is pending the block does nothing (R214, R230). -/
def Obligations.IdleBlockKeepsAllState : Prop :=
  ∀ s : State, s.host = [] → s.busy = false → step s = .next s

/-! ### The commands (R100, R130) -/

/-- `ENC_START` (R100, R209): ignored while busy; dimensions tested before format; accepted with a legal configuration, over an
image whose every byte holds a value (R233), it clears `CURPIX` and `ERR` and goes to BUSY_ENC. Nothing else changes. -/
def Obligations.EncStartEffect : Prop :=
  ∀ s : State,
    (s.busy = true → exec .encStart s = .next s) ∧
    (s.busy = false → ¬ (1 ≤ s.cfg.width.toInt ∧ 1 ≤ s.cfg.height.toInt) →
      exec .encStart s = .next { s with status := { state := .error, err := .invalidDimensions } }) ∧
    (s.busy = false → 1 ≤ s.cfg.width.toInt → 1 ≤ s.cfg.height.toInt →
      (s.cfg.bpp ≠ 1#8 ∧ s.cfg.bpp ≠ 3#8 ∧ s.cfg.bpp ≠ 4#8) →
      exec .encStart s = .next { s with status := { state := .error, err := .unsupportedFormat } }) ∧
    (s.busy = false → 1 ≤ s.cfg.width.toInt → 1 ≤ s.cfg.height.toInt →
      (s.cfg.bpp = 1#8 ∨ s.cfg.bpp = 3#8 ∨ s.cfg.bpp = 4#8) →
      (∀ a < s.cfg.nbytes, (s.pixbuf.read a).isSome = true) →
      exec .encStart s = .next { s with
        enc := { s.enc with curPix := 0 }
        status := { state := .busyEnc, err := .noError } })

/-- `ENC_START` over an image with a byte that nothing has written is refused; `DEC_START` has no such demand. R238 and U12 say
only that a model refuses such a run; that the command itself is the place of the refusal is the model's choice (log 6,
DEDUCED). -/
def Obligations.EncStartRefusesUnwrittenImage : Prop :=
  ∀ (s : State) (a : Nat), s.busy = false → s.cfg.legal = true → a < s.cfg.nbytes → s.pixbuf.read a = none →
    exec .encStart s = .refused .unwrittenPixel ∧ ∃ t, exec .decStart s = .next t ∧ t.status.state = .busyDec

/-- `DEC_START` (R130, R209): ignored while busy; dimensions tested before format; accepted with a legal configuration it clears
`COUNT`, `IN.POS` and `ERR` and goes to BUSY_DEC; the stream is not moved, so what is read next is what was left (the model's
reading, log 12). Nothing else changes. -/
def Obligations.DecStartEffect : Prop :=
  ∀ s : State,
    (s.busy = true → exec .decStart s = .next s) ∧
    (s.busy = false → ¬ (1 ≤ s.cfg.width.toInt ∧ 1 ≤ s.cfg.height.toInt) →
      exec .decStart s = .next { s with status := { state := .error, err := .invalidDimensions } }) ∧
    (s.busy = false → 1 ≤ s.cfg.width.toInt → 1 ≤ s.cfg.height.toInt →
      (s.cfg.bpp ≠ 1#8 ∧ s.cfg.bpp ≠ 3#8 ∧ s.cfg.bpp ≠ 4#8) →
      exec .decStart s = .next { s with status := { state := .error, err := .unsupportedFormat } }) ∧
    (s.busy = false → 1 ≤ s.cfg.width.toInt → 1 ≤ s.cfg.height.toInt →
      (s.cfg.bpp = 1#8 ∨ s.cfg.bpp = 3#8 ∨ s.cfg.bpp = 4#8) →
      ∃ t, exec .decStart s = .next t ∧ t.dec = { s.dec with count := 0 } ∧
        t.status = { state := .busyDec, err := .noError } ∧ t.input.pos = 0 ∧ t.input.content = s.input.content ∧
        t.input.term = s.input.term ∧ t.input.data = s.input.data.drop s.input.pos ∧ t.cfg = s.cfg ∧ t.enc = s.enc ∧
        t.pixbuf = s.pixbuf ∧ t.output = s.output ∧ t.host = s.host ∧ t.lastRead = s.lastRead ∧ t.draws = s.draws)

/-! ### The packets (R133 to R139) -/

/-- `LIT n` with its payload there and no overrun: the `n * BPP` bytes land at pixel `COUNT` in stream order, `COUNT` grows by
`n`, `STATE` is DONE exactly when `COUNT` reaches `NPIX` (R133, R135, R131); every other byte and register stays. That the
working registers keep these values between steps and after DONE is the model's choice (log 13). -/
def Obligations.LiteralPacketCopiesPixels : Prop :=
  ∀ (n : Nat) (s : State),
    (Instr.lit n).wf = true → s.status.state = .busyDec → s.cfg.legal = true → s.dec.count < s.cfg.npix →
    s.input.pos + n * s.cfg.bytesPerPixel ≤ s.input.data.length → s.dec.count + n ≤ s.cfg.npix →
    ∃ t, exec (.lit n) s = .next t ∧ s.decodeFrame t ∧ t.draws = s.draws ∧
      t.input.pos = s.input.pos + n * s.cfg.bytesPerPixel ∧
      t.dec = { s.dec with count := s.dec.count + n } ∧
      t.status = { s.status with state := if s.dec.count + n = s.cfg.npix then .done else .busyDec } ∧
      ∀ a, t.pixbuf.read a =
        if s.dec.count * s.cfg.bytesPerPixel ≤ a ∧ a < (s.dec.count + n) * s.cfg.bytesPerPixel then
          s.input.data[s.input.pos + (a - s.dec.count * s.cfg.bytesPerPixel)]?
        else s.pixbuf.read a

/-- `REP n` with its pixel there and no overrun: the pixel is latched and written `n` times from pixel `COUNT` on, `COUNT` grows
by `n`, `STATE` is DONE exactly when `COUNT` reaches `NPIX` (R134, R135, R131); every other byte and register stays. That the
working registers keep these values between steps and after DONE is the model's choice (log 13). -/
def Obligations.RepeatPacketReplicatesPixel : Prop :=
  ∀ (n : Nat) (s : State),
    (Instr.rep n).wf = true → s.status.state = .busyDec → s.cfg.legal = true → s.dec.count < s.cfg.npix →
    s.input.pos + s.cfg.bytesPerPixel ≤ s.input.data.length → s.dec.count + n ≤ s.cfg.npix →
    ∃ t, exec (.rep n) s = .next t ∧ s.decodeFrame t ∧ t.draws = s.draws ∧
      t.input.pos = s.input.pos + s.cfg.bytesPerPixel ∧
      t.dec = { s.dec with
        count := s.dec.count + n
        pixLatch := (s.input.data.drop s.input.pos).take s.cfg.bytesPerPixel } ∧
      t.status = { s.status with state := if s.dec.count + n = s.cfg.npix then .done else .busyDec } ∧
      ∀ a, t.pixbuf.read a =
        if s.dec.count * s.cfg.bytesPerPixel ≤ a ∧ a < (s.dec.count + n) * s.cfg.bytesPerPixel then
          s.input.data[s.input.pos + (a - s.dec.count * s.cfg.bytesPerPixel) % s.cfg.bytesPerPixel]?
        else s.pixbuf.read a

/-- A packet whose payload is there but that counts beyond `NPIX` raises CorruptStream; no byte outside the image changes and
`IN.POS` is not beyond the packet's end (R135, R136, R204, R208). -/
def Obligations.OverrunRaisesCorruptStream : Prop :=
  ∀ (i : Instr) (n : Nat) (s : State),
    (i = .lit n ∨ i = .rep n) → i.wf = true → s.status.state = .busyDec → s.cfg.legal = true →
    s.dec.count < s.cfg.npix →
    s.input.pos + payloadLength s.cfg.bytesPerPixel i ≤ s.input.data.length → s.cfg.npix < s.dec.count + n →
    ∃ t, exec i s = .next t ∧
      s.decodeFailed t .corruptStream (s.input.pos + payloadLength s.cfg.bytesPerPixel i)

/-- Every stream read of the decoder that answers `End` stops the decode with CorruptStream, every one that answers `Fail` with
IOFailure, at the header byte and at every payload byte alike, whether or not the packet would overrun (R138; R208 for what is
left). -/
def Obligations.StreamAnswersStopTheDecode : Prop :=
  (∀ s : State,
    s.host = [] → s.status.state = .busyDec → s.cfg.legal = true → s.dec.count < s.cfg.npix →
    s.input.pos = s.input.data.length →
    ∃ t, step s = .next t ∧
      s.decodeFailed t (if s.input.term = .endOfStream then .corruptStream else .ioFailure)
        s.input.data.length) ∧
  (∀ (i : Instr) (n : Nat) (s : State),
    (i = .lit n ∨ i = .rep n) → i.wf = true → s.status.state = .busyDec → s.cfg.legal = true →
    s.dec.count < s.cfg.npix → s.input.pos ≤ s.input.data.length →
    s.input.data.length < s.input.pos + payloadLength s.cfg.bytesPerPixel i →
    ∃ t, exec i s = .next t ∧
      s.decodeFailed t (if s.input.term = .endOfStream then .corruptStream else .ioFailure)
        s.input.data.length)

/-- Outside a running decode with a pixel to go there is no packet step: `LIT` and `REP` stop there by name (R139's
precondition; D28: busy with no possible step is no end). The stop is the model's choice (log 14). -/
def Obligations.PacketOutsideDecodeStops : Prop :=
  ∀ (i : Instr) (n : Nat) (s : State), (i = .lit n ∨ i = .rep n) →
    ¬ (s.status.state = .busyDec ∧ s.cfg.legal = true ∧ s.dec.count < s.cfg.npix) →
    exec i s = .fault .noStepPossible

/-- The decoder does not read `PIXBUF`: two running decodes that differ only there end their step in states that differ only
there, and each byte of `PIXBUF` either holds the same in both after the step or is untouched in both (R60). Where the step
ends in ERROR, R208 leaves the image, `IN.POS`, `COUNT`, `H` and `PIXLATCH` unspecified; that they are the same in both is the
model's choice, since free values depend on the draw counter alone (log 9, DESIGN CHOICE). -/
def Obligations.DecoderIgnoresPixbufContents : Prop :=
  ∀ (s t : State) (m : Mem), s.host = [] → s.status.state = .busyDec → step s = .next t →
    ∃ t', step { s with pixbuf := m } = .next t' ∧ t' = { t with pixbuf := t'.pixbuf } ∧
      ∀ a, t'.pixbuf.read a = t.pixbuf.read a ∨
        (t.pixbuf.read a = s.pixbuf.read a ∧ t'.pixbuf.read a = m.read a)

/-- The decoder knows no rows: two running decodes whose configurations differ but have the same number of pixels and the same
pixel size do the same, so a packet over a row boundary is decoded like any other (R137). Where the step ends in ERROR, R208
leaves the image, `IN.POS`, `COUNT`, `H` and `PIXLATCH` unspecified, and R137 says nothing of the registers; that they are the
same in both is the model's choice, since free values depend on the draw counter alone (log 9, DESIGN CHOICE). -/
def Obligations.DecoderIgnoresRows : Prop :=
  ∀ (s t : State) (c : Cfg), s.host = [] → s.status.state = .busyDec → c.legal = s.cfg.legal → c.npix = s.cfg.npix →
    c.bpp = s.cfg.bpp → step s = .next t → step (s.withCfg c) = .next (t.withCfg c)

/-! ### The encoder (R101 to R116) -/

/-- The closed form of a run is what the loop finds, at every pixel of every image (R114, R109). -/
def Obligations.ScanFindsTheClosedFormRun : Prop :=
  ∀ (w bpp c : Nat) (buf : List Byte), 1 ≤ w →
    scanRun (fun i j => pixOf bpp buf i == pixOf bpp buf j) w c = runAt w bpp buf c

/-- A run has 1 to 128 pixels, stays in the row of `CURPIX` and in the image (R103, R112). -/
def Obligations.RunStaysInItsRow : Prop :=
  ∀ s : State, s.cfg.legal = true → s.enc.curPix < s.cfg.npix →
    1 ≤ s.run.2 ∧ s.run.2 ≤ 128 ∧ s.enc.curPix % s.cfg.w + s.run.2 ≤ s.cfg.w ∧
      s.enc.curPix + s.run.2 ≤ s.cfg.npix

/-- The encoder never emits header byte 0x80: a repeat run begins with two equal pixels, has at least 2 and a header of 0x81 to
0xFF, a single pixel is a literal with header 0x00, and no packet of an image begins with 0x80. Every other value is the first
byte of the encoding of some image. The decoder takes 0x80 as one pixel (R87). -/
def Obligations.EncoderEmitsEveryHeaderButRepeatOfOne : Prop :=
  (∀ (pixEq : Nat → Nat → Bool) (w cur : Nat), encodeByte (runInstr (scanRun pixEq w cur)) ≠ 0x80#8 ∧
    ((scanRun pixEq w cur).1 = .repeating →
      pixEq cur (cur + 1) = true ∧ 2 ≤ (scanRun pixEq w cur).2 ∧
        0x81 ≤ (encodeByte (runInstr (scanRun pixEq w cur))).toNat) ∧
    ((scanRun pixEq w cur).2 = 1 → encodeByte (runInstr (scanRun pixEq w cur)) = 0x00#8)) ∧
    (∀ (w bpp c : Nat) (buf : List Byte), 1 ≤ w → (packetAt w bpp buf c).head? ≠ some 0x80#8) ∧
    (∀ b : Byte, b ≠ 0x80#8 →
      ∃ (w : Nat) (buf : List Byte), 1 ≤ w ∧ w ≤ 32767 ∧ buf.length = w * 1 * 1 ∧
        (encodeImage w 1 1 buf).head? = some b) ∧
    decodeHeader 0x80#8 = .rep 1

/-- One encoder step over a written image appends the packet of R114 at `CURPIX`, leaves the run in `RUNLEN` and `MODE`, advances
`CURPIX` by it, and is DONE exactly at `NPIX` (R109 to R114); nothing else changes. That the working registers keep these
values between steps and after DONE is the model's choice (log 13). -/
def Obligations.EncoderStepEmitsThePacket : Prop :=
  ∀ (s : State) (buf : List Byte),
    s.host = [] → s.status.state = .busyEnc → s.cfg.legal = true → s.enc.curPix < s.cfg.npix →
    s.pixbuf.readN 0 s.cfg.nbytes = some buf →
    (∀ f, s.output.failAt = some f →
      s.output.data.length + (packetAt s.cfg.w s.cfg.bytesPerPixel buf s.enc.curPix).length ≤ f) →
    ∃ t, step s = .next t ∧ s.encodeFrame t ∧ t.draws = s.draws ∧
      t.output.data = s.output.data ++ packetAt s.cfg.w s.cfg.bytesPerPixel buf s.enc.curPix ∧
      t.enc =
        { curPix := s.enc.curPix + (runAt s.cfg.w s.cfg.bytesPerPixel buf s.enc.curPix).2
          runLen := (runAt s.cfg.w s.cfg.bytesPerPixel buf s.enc.curPix).2
          mode := (runAt s.cfg.w s.cfg.bytesPerPixel buf s.enc.curPix).1 } ∧
      t.status = { s.status with state := if t.enc.curPix = s.cfg.npix then .done else .busyEnc }

/-- An encoder step whose packet passes the failure point appends the bytes before it, then raises IOFailure (R113, R205). A claim
after ERROR may rest only on the bounds of R208, some proper leading part of the encoding; that exactly these bytes are left
in `OUT` is the model's choice to follow R113 (log 10, DESIGN CHOICE, unsafe). -/
def Obligations.FailingOutputRaisesIOFailure : Prop :=
  ∀ (s : State) (bytes : List Byte) (f : Nat),
    s.host = [] → s.status.state = .busyEnc → s.cfg.legal = true → s.enc.curPix < s.cfg.npix →
    s.pixbuf.written 0 s.cfg.nbytes = true → s.packetBytes = some bytes → s.output.failAt = some f →
    f < s.output.data.length + bytes.length →
    ∃ t, step s = .next t ∧ t.status = { state := .error, err := .ioFailure } ∧ s.encodeFrame t ∧
      t.output.data = s.output.data ++ bytes.take (f - s.output.data.length)

/-- Every packet step of a running operation that does not end in ERROR makes progress towards `NPIX`, and it is DONE exactly
there (R101, R131). That `CURPIX` and `COUNT` keep their value after DONE is the model's choice (log 13). -/
def Obligations.PacketStepsProgressToNpix : Prop :=
  ∀ s t : State, s.host = [] → step s = .next t → t.status.state ≠ .error →
    (s.status.state = .busyEnc →
      s.enc.curPix < t.enc.curPix ∧ t.enc.curPix ≤ s.enc.curPix + 128 ∧ t.enc.curPix ≤ s.cfg.npix ∧
        (t.status.state = .done ↔ t.enc.curPix = s.cfg.npix)) ∧
    (s.status.state = .busyDec → (∀ h, s.input.data[s.input.pos]? = some h →
      t.dec.count = s.dec.count + headerCount h ∧ t.dec.count ≤ s.cfg.npix ∧
        (t.status.state = .done ↔ t.dec.count = s.cfg.npix)))

/-- A whole encode: from its start, over a written image and an output with room, the block reaches DONE in at most `NPIX` steps
with `OUT` extended by `Encode`; `PIXBUF`, `IN`, the configuration and the decoder's registers are unchanged (R101, R114,
R216). -/
def Obligations.EncodeRunReachesDone : Prop :=
  ∀ (s : State) (buf : List Byte),
    s.host = [] → s.status = { state := .busyEnc, err := .noError } → s.cfg.legal = true → s.enc.curPix = 0 →
    s.pixbuf.readN 0 s.cfg.nbytes = some buf →
    (∀ f, s.output.failAt = some f →
      s.output.data.length + (encodeImage s.cfg.w s.cfg.hgt s.cfg.bytesPerPixel buf).length ≤ f) →
    ∃ k t, k ≤ s.cfg.npix ∧ Sys2Proof.core.run k s = .next t ∧
      t.status = { state := .done, err := .noError } ∧ s.encodeFrame t ∧
      t.output.data = s.output.data ++ encodeImage s.cfg.w s.cfg.hgt s.cfg.bytesPerPixel buf

/-- The length of an encoding is between one header and pixel for every 128 pixels of a row, and one header for every pixel
beside the pixels' own bytes (R115 item 8). -/
def Obligations.EncodingLengthBounds : Prop :=
  ∀ (w h bpp : Nat) (buf : List Byte), 1 ≤ w → 1 ≤ bpp → buf.length = w * h * bpp →
    (encodeImage w h bpp buf).length ≤ w * h * bpp + w * h ∧
      h * ((w + 127) / 128) * (1 + bpp) ≤ (encodeImage w h bpp buf).length

/-- An image is encoded row by row: its encoding is the encodings of its rows taken alone, one after the other (R115 item 2,
95_test_vectors.md Part 7 property 6). -/
def Obligations.EncodingIsRowByRow : Prop :=
  ∀ (w h bpp : Nat) (buf : List Byte), 1 ≤ w → 1 ≤ bpp → buf.length = w * h * bpp →
    encodeImage w h bpp buf =
      (List.range h).flatMap (fun y => encodeImage w 1 bpp ((buf.drop (y * (w * bpp))).take (w * bpp)))

/-! ### The decoder as a whole (R140 to R144) -/

/-- A whole decode: from its start the block reaches in at most `NPIX` steps what `Decode` gives: DONE with its buffer in `PIXBUF`
and its position in `IN.POS`, or ERROR with its kind (R131, R140, R216). -/
def Obligations.DecodeRunAgreesWithDecode : Prop :=
  ∀ s : State,
    s.host = [] → s.status = { state := .busyDec, err := .noError } → s.cfg.legal = true → s.dec.count = 0 →
    s.input.pos = 0 →
    ∃ k t, k ≤ s.cfg.npix ∧ Sys2Proof.core.run k s = .next t ∧
      match decodeImage s.cfg.w s.cfg.hgt s.cfg.bytesPerPixel s.input.data s.input.term with
      | .ok buf pos =>
        t.status = { state := .done, err := .noError } ∧ t.input.pos = pos ∧
          t.pixbuf.readN 0 s.cfg.nbytes = some buf
      | .err e => t.status = { state := .error, err := e }

/-- A stream is accepted exactly when it begins with whole packets whose counts sum to the number of pixels; the buffer is their
expansions and the position their length; in every other case a stream that ends is CorruptStream (R143, R141). -/
def Obligations.AcceptedStreamsAreWholePackets : Prop :=
  ∀ (w h bpp : Nat) (s : List Byte), 1 ≤ w → 1 ≤ h → 1 ≤ bpp →
    (∀ (term : Term) (buf : List Byte) (pos : Nat),
      decodeImage w h bpp s term = .ok buf pos ↔
        ∃ (ps : List Packet) (rest : List Byte), (∀ p ∈ ps, p.wf bpp = true) ∧
          (ps.map (fun p => p.expand.length)).sum = w * h ∧ s = ps.flatMap encodePacket ++ rest ∧
          buf = (ps.flatMap Packet.expand).flatten ∧ pos = (ps.flatMap encodePacket).length) ∧
    ((∀ buf pos, decodeImage w h bpp s .endOfStream ≠ .ok buf pos) →
      decodeImage w h bpp s .endOfStream = .err .corruptStream)

/-- Decoding the encoding of any image gives the image back and consumes the whole stream (R144). -/
def Obligations.DecodeOfEncodeGivesTheImage : Prop :=
  ∀ (w h bpp : Nat) (buf : List Byte), 1 ≤ w → w ≤ 32767 → 1 ≤ h → h ≤ 32767 → (bpp = 1 ∨ bpp = 3 ∨ bpp = 4) →
    buf.length = w * h * bpp →
    decodeImage w h bpp (encodeImage w h bpp buf) .endOfStream = .ok buf (encodeImage w h bpp buf).length

/-! ### Rules of the whole machine -/

/-- The invariant holds after reset. -/
def Obligations.ResetMeetsTheInvariant : Prop := State.reset.Inv

/-- Every step keeps the invariant: canonical memory below `PIXBUF_CAP`, `ERR` 0 exactly outside ERROR and never OutOfRange,
a legal configuration and a pixel to go in every running operation, working registers in their ranges, `IN.POS` within the
data (R20, R27, R57, R109, R139, R203). -/
def Obligations.EveryStepKeepsTheInvariant : Prop :=
  ∀ s t : State, s.Inv → step s = .next t → t.Inv

/-- From a state that meets the invariant the block's own step always answers a next state: it is never stuck (R112, R139,
R215). -/
def Obligations.BlockIsNeverStuck : Prop :=
  ∀ s : State, s.Inv → s.host = [] → ∃ t, step s = .next t

/-- `STATE` makes only the moves of R26, each by its own event: to IDLE by reset alone; to BUSY_ENC and BUSY_DEC only from outside
an operation, by ENC_START and DEC_START with a legal configuration; to DONE only from BUSY, by the block's own step that
reaches `NPIX`; to ERROR by the block's own step in BUSY, or by a START command with an illegal configuration outside an
operation. (That `CURPIX` and `COUNT` stand at `NPIX` after DONE is log 13; whose turn a step is, log 1.) -/
def Obligations.StateMakesOnlyLegalMoves : Prop :=
  ∀ s t : State, step s = .next t →
    (t.status.state = .idle → s.status.state = .idle ∨ s.host.head? = some .reset) ∧
    (t.status.state = .busyEnc → s.status.state = .busyEnc ∨
      (s.busy = false ∧ s.host.head? = some (.writeCmd 0x01#8) ∧ s.cfg.legal = true)) ∧
    (t.status.state = .busyDec → s.status.state = .busyDec ∨
      (s.busy = false ∧ s.host.head? = some (.writeCmd 0x02#8) ∧ s.cfg.legal = true)) ∧
    (t.status.state = .done → s.status.state = .done ∨
      (s.blockTurn ∧
        ((s.status.state = .busyEnc ∧ t.enc.curPix = s.cfg.npix) ∨
          (s.status.state = .busyDec ∧ t.dec.count = s.cfg.npix)))) ∧
    (t.status.state = .error → s.status.state = .error ∨ (s.busy = true ∧ s.blockTurn) ∨
      (s.busy = false ∧ s.cfg.legal = false ∧
        (s.host.head? = some (.writeCmd 0x01#8) ∨ s.host.head? = some (.writeCmd 0x02#8))))

/-- The encoder never writes `PIXBUF` and never touches `IN`; the decoder never touches `OUT` and writes `PIXBUF` only inside the
image (R54, R60, R136). -/
def Obligations.EnginesTouchOnlyTheirOwn : Prop :=
  ∀ s t : State, s.host = [] → step s = .next t →
    (s.status.state = .busyEnc → s.encodeFrame t ∧ ∃ part, t.output.data = s.output.data ++ part) ∧
    (s.status.state = .busyDec →
      s.decodeFrame t ∧ ∀ a, s.cfg.nbytes ≤ a → t.pixbuf.read a = s.pixbuf.read a)

/-- While an operation runs no move but a reset changes the configuration, so `NPIX`, `ROWBYTES` and `NBYTES` are constant (R236,
R39). -/
def Obligations.ConfigConstantDuringOperation : Prop :=
  ∀ s t : State, s.busy = true → s.host.head? ≠ some .reset → step s = .next t →
    t.cfg = s.cfg ∧ t.cfg.npix = s.cfg.npix ∧ t.cfg.rowBytes = s.cfg.rowBytes ∧ t.cfg.nbytes = s.cfg.nbytes

/-- A host access to `PIXBUF`, or a change of a stream, while an operation runs is refused (R235). -/
def Obligations.HostTouchDuringOperationRefused : Prop :=
  ∀ (s : State) (m : HostMove) (rest : List HostMove), s.busy = true → s.host = m :: rest →
    ((∃ a v, m = .writePix a v) ∨ (∃ a, m = .readPix a) ∨ (∃ c p t, m = .setIn c p t) ∨ (∃ d f, m = .setOut d f)) →
    step s = .refused .hostTouchedDuringOperation

/-- Outside an operation the host writes and reads single bytes of `PIXBUF` below `PIXBUF_CAP`; a write changes that byte alone, a
read changes only the answer; and the environment sets up `IN` (its bytes, the point from which the decoder reads, its
terminator) and `OUT` (its bytes, its failure point), which changes nothing else (R42, R58). The end of the memory is the
default of R6 (log 5); that setting `IN` up makes `IN.POS` 0 at once is the model's choice (log 12). -/
def Obligations.HostOwnsPixbufOutsideOperations : Prop :=
  ∀ (s : State) (a : Nat) (v : Byte) (rest : List HostMove), s.busy = false →
    (s.host = .writePix a v :: rest → a < 2 ^ 32 →
      ∃ t, step s = .next t ∧ t = { s with host := rest, pixbuf := t.pixbuf } ∧
        ∀ x, t.pixbuf.read x = if x = a then some v else s.pixbuf.read x) ∧
    (s.host = .readPix a :: rest → a < 2 ^ 32 → s.pixbuf.read a = some v →
      step s = .next { s with host := rest, lastRead := some (.pix v) }) ∧
    ((s.host = .writePix a v :: rest ∨ s.host = .readPix a :: rest) → 2 ^ 32 ≤ a →
      step s = .fault .outsidePixelMemory) ∧
    (∀ content point term, s.host = .setIn content point term :: rest →
      ∃ t, step s = .next t ∧ t = { s with host := rest, input := t.input } ∧ t.input.data = content.drop point ∧
        t.input.content = content ∧ t.input.point = point ∧ t.input.term = term ∧ t.input.pos = 0) ∧
    (∀ data failAt, s.host = .setOut data failAt :: rest →
      step s = .next { s with host := rest, output := { data := data, failAt := failAt } })

/-! ### The host context (42_host_context.md) -/

/-- Intensity scaling: the fourth channel is kept; a factor of 0 or less gives 0, one of 1 or more keeps a channel, and wherever
the product with a factor between them is a whole number, that number is the channel (R161). How any other product is rounded
is free (N16, log 18). -/
def Obligations.ColorScaleIsExactOnWholeProducts : Prop :=
  ∀ (f : Rat) (c : Color),
    (c.scale f).index 3 = c.index 3 ∧
    (f ≤ 0 → ∀ i < 3, (c.scale f).index i = 0x00#8) ∧
    (1 ≤ f → ∀ i < 3, (c.scale f).index i = c.index i) ∧
    (0 ≤ f → f ≤ 1 → ∀ i < 3, ∀ n : Nat, ((c.index i).toNat : Rat) * f = n → ((c.scale f).index i).toNat = n)

/-- `VerticalFlip` is its own inverse (R171). -/
def Obligations.VerticalFlipIsItsOwnInverse : Prop :=
  ∀ b : PixelBuffer, b.wf = true → verticalFlip (verticalFlip b) = b

/-- Outside the buffer `GetPixel` fails with OutOfRange and `SetPixel` changes nothing (R168, R169, R185). -/
def Obligations.PixelAccessOutsideTheBuffer : Prop :=
  ∀ (b : PixelBuffer) (x y : Int) (c : Color), (x < 0 ∨ (b.width : Int) ≤ x ∨ y < 0 ∨ (b.height : Int) ≤ y) →
    getPixel x y b = .error .outOfRange ∧ setPixel x y c b = b

/-- `GetPixel` after `SetPixel` at the same place gives the channels the format has and 0xFF for the others (R168, R169). -/
def Obligations.GetPixelAfterSetPixel : Prop :=
  ∀ (b : PixelBuffer) (x y : Int) (c : Color), b.wf = true → b.inside x y = true →
    ∃ d, getPixel x y (setPixel x y c b) = .ok d ∧ d.tag = b.format ∧
      ∀ i < 4, d.index i = if i < b.format.bytesPerPixel then c.index i else 0xFF#8

/-- The 18-byte header is read back from its bytes (R163, R164, R174, R177). -/
def Obligations.HeaderReadBackFromItsBytes : Prop :=
  ∀ (h : TgaHeader) (rest : List Byte),
    h.bytes.length = 18 ∧ parseHeader (h.bytes ++ rest) = some (h, rest)

/-- Load of what Save writes gives the buffer back, with RLE and without (R144, R185). Onto an output with room Save appends that
file; onto one that fails inside it, Save ends with IOFailure and leaves the bytes before the failure point (R183, R184; that
the part of the packets left is exactly this one is R113, log 10). A buffer above 32767 is refused (U1). -/
def Obligations.LoadOfSaveGivesTheBuffer : Prop :=
  ∀ (b : PixelBuffer) (rle : Bool), b.wf = true →
    (b.width ≤ 32767 → b.height ≤ 32767 →
      load (saveFile rle b) .endOfStream = .ok b ∧
        ∀ o : OutStream,
          ((∀ f, o.failAt = some f → o.data.length + (saveFile rle b).length ≤ f) →
            save rle b o = .saved { o with data := o.data ++ saveFile rle b }) ∧
          ∀ f, o.failAt = some f → f < o.data.length + (saveFile rle b).length →
            save rle b o = .failed .ioFailure { o with data := o.data ++ (saveFile rle b).take (f - o.data.length) }) ∧
    ((32767 < b.width ∨ 32767 < b.height) → ∀ o : OutStream, save rle b o = .sizeTooLarge)

/-- Load's tests: size first, then format and data type. A header with width or height not positive is InvalidDimensions; with
a positive size, bits per pixel whose shift by 3 is not 1, 3 or 4, and every data type code but 2, 3, 10 and 11, are
UnsupportedFormat (R165, R177, R178, R185). -/
def Obligations.LoadTestsSizeThenFormatThenType : Prop :=
  ∀ (h : TgaHeader) (rest : List Byte) (term : Term),
    (¬ (1 ≤ h.width.toInt ∧ 1 ≤ h.height.toInt) →
      load (h.bytes ++ rest) term = .error (.failed .invalidDimensions)) ∧
    (1 ≤ h.width.toInt → 1 ≤ h.height.toInt →
      ((h.bitsPerPixel.toNat / 8 ≠ 1 ∧ h.bitsPerPixel.toNat / 8 ≠ 3 ∧ h.bitsPerPixel.toNat / 8 ≠ 4) ∨
        (h.dataTypeCode ≠ 2#8 ∧ h.dataTypeCode ≠ 3#8 ∧ h.dataTypeCode ≠ 10#8 ∧ h.dataTypeCode ≠ 11#8)) →
      load (h.bytes ++ rest) term = .error (.failed .unsupportedFormat))

/-- A host that follows RS's Save with RLE, from reset, ends with the block DONE and the file Save writes in `OUT` (R176, R233,
R216). -/
def Obligations.BlockWritesTheFileSaveWrites : Prop :=
  ∀ b : PixelBuffer, b.wf = true → b.width ≤ 32767 → b.height ≤ 32767 →
    ∃ k t, Sys2Proof.core.run k (State.reset.withHost (encodeScript b (saveHeader true b).bytes none)) = .next t ∧
      t.status = { state := .done, err := .noError } ∧
        save true b { data := [], failAt := none } = .saved t.output

/-- A host that follows RS's Load on a file that Save wrote with RLE, from reset, ends with the block DONE and the buffer's bytes in
`PIXBUF` (R181, R234, R144, R216). -/
def Obligations.BlockReadsBackTheFileSaveWrote : Prop :=
  ∀ (b : PixelBuffer) (o : OutStream), b.wf = true → save true b { data := [], failAt := none } = .saved o →
    ∃ k t, Sys2Proof.core.run k
        (State.reset.withHost (decodeScript b.width b.height b.format.bytesPerPixel o.data 18 .endOfStream)) = .next t ∧
      t.status = { state := .done, err := .noError } ∧ t.input.pos + 18 = o.data.length ∧
      t.pixbuf.readN 0 b.bytes.length = some b.bytes
end

