-- ==== Sys2Proof/Laws/Stream.lean ====
section
/-! SUPPORT. The laws of the streams: what one read and a read of several bytes answer, what a write of several bytes
leaves. -/

namespace Sys2Proof.Machine

/-! ### The input stream -/

/-- A read with a byte left answers it and advances by one (R57). -/
theorem inRead_byte {i : InStream} (h : i.pos < i.data.length) :
    inRead i = .byte i.data[i.pos] { i with pos := i.pos + 1 } := by
  simp [inRead, List.getElem?_eq_getElem h]

/-- A read at the end answers the terminator and moves nothing (R57). -/
theorem inRead_stop {i : InStream} (h : i.data.length ≤ i.pos) : inRead i = .stop i.term i := by
  simp [inRead, List.getElem?_eq_none h]

@[simp] theorem InStream.data_pos (i : InStream) (p : Nat) : ({ i with pos := p } : InStream).data = i.data := rfl

/-- A read of `n` bytes that are there: they are answered, and `IN.POS` moves past them (R10, R57). -/
theorem inReadN_bytes {n : Nat} {i : InStream} (h : i.pos + n ≤ i.data.length) :
    inReadN n i = .bytes ((i.data.drop i.pos).take n) { i with pos := i.pos + n } := by
  induction n generalizing i with
  | zero => simp [inReadN]
  | succ n ih =>
    rw [inReadN, inRead_byte (by omega)]
    simp only
    rw [ih (by simp only [InStream.data_pos]; omega)]
    simp only [InStream.data_pos]
    rw [List.drop_eq_getElem_cons (l := i.data) (i := i.pos) (by omega), List.take_succ_cons]
    simp only [InAnswerN.bytes.injEq, true_and, InStream.mk.injEq]
    omega

/-- A read of more bytes than are left answers the terminator, with `IN.POS` at the end of the data (R10, R57). -/
theorem inReadN_stop {n : Nat} {i : InStream} (hp : i.pos ≤ i.data.length) (h : i.data.length < i.pos + n) :
    inReadN n i = .stop i.term { i with pos := i.data.length } := by
  induction n generalizing i with
  | zero => omega
  | succ n ih =>
    by_cases hb : i.pos < i.data.length
    · rw [inReadN, inRead_byte hb]
      simp only
      rw [ih (by simpa using hb) (by simp only [InStream.data_pos]; omega)]
      rfl
    · rw [inReadN, inRead_stop (by omega)]
      have : i.pos = i.data.length := by omega
      rw [← this]

/-- Whatever a read of `n` bytes answers, the stream's content, point and terminator stay and `IN.POS` stays within the data
(R57). -/
theorem inReadN_keeps {n : Nat} {i : InStream} (hp : i.pos ≤ i.data.length) :
    (∃ bs, inReadN n i = .bytes bs { i with pos := i.pos + n } ∧ bs.length = n ∧ i.pos + n ≤ i.data.length) ∨
      inReadN n i = .stop i.term { i with pos := i.data.length } := by
  by_cases h : i.pos + n ≤ i.data.length
  · refine .inl ⟨_, inReadN_bytes h, ?_, h⟩
    simp; omega
  · exact .inr (inReadN_stop hp (by omega))

/-- A read that answers bytes moves nothing of the stream but `IN.POS` (R57). -/
theorem inReadN_stream {n : Nat} {i j : InStream} {bs : List Byte} (h : inReadN n i = .bytes bs j) :
    j = { i with pos := j.pos } := by
  induction n generalizing i bs with
  | zero => cases h; rfl
  | succ n ih =>
    rw [inReadN] at h
    unfold inRead at h
    cases hd : i.data[i.pos]? with
    | none => simp [hd] at h
    | some b =>
      simp only [hd] at h
      cases hr : inReadN n { i with pos := i.pos + 1 } with
      | stop t i' => simp [hr] at h
      | bytes cs i' =>
        rw [hr] at h
        cases h
        exact ih (i := { i with pos := i.pos + 1 }) hr

/-- A read that answers the terminator leaves the stream's content, point and terminator (R57). -/
theorem inReadN_stop_stream {n : Nat} {i j : InStream} {t : Term} (h : inReadN n i = .stop t j) :
    j.content = i.content ∧ j.point = i.point ∧ j.term = i.term := by
  induction n generalizing i with
  | zero => cases h
  | succ n ih =>
    rw [inReadN] at h
    unfold inRead at h
    cases hd : i.data[i.pos]? with
    | none =>
      simp only [hd] at h
      cases h
      exact ⟨rfl, rfl, rfl⟩
    | some b =>
      simp only [hd] at h
      cases hr : inReadN n { i with pos := i.pos + 1 } with
      | stop t' i' =>
        rw [hr] at h
        cases h
        exact ih (i := { i with pos := i.pos + 1 }) hr
      | bytes cs i' => simp [hr] at h

/-! ### The output stream -/

/-- With no failure point, or the bytes within it, a write of several bytes appends them all (R59). -/
theorem outWriteN_ok {bs : List Byte} {o : OutStream}
    (h : ∀ f, o.failAt = some f → o.data.length + bs.length ≤ f) :
    outWriteN bs o = (.ok, { o with data := o.data ++ bs }) := by
  induction bs generalizing o with
  | nil => simp [outWriteN]
  | cons b bs ih =>
    have hr : o.room = true := by
      unfold OutStream.room
      cases hf : o.failAt with
      | none => rfl
      | some f => have := h f hf; simp at this ⊢; omega
    rw [outWriteN, outWrite, if_pos hr]
    simp only
    rw [ih fun f hf => ?_]
    · simp
    · have := h f hf; simp at this ⊢; omega

/-- With the failure point inside the bytes, a write of several bytes appends those before it and fails (R59, R113). -/
theorem outWriteN_fail {bs : List Byte} {o : OutStream} {f : Nat} (hf : o.failAt = some f)
    (h : f < o.data.length + bs.length) (hne : bs ≠ []) :
    outWriteN bs o = (.fail, { o with data := o.data ++ bs.take (f - o.data.length) }) := by
  induction bs generalizing o with
  | nil => exact absurd rfl hne
  | cons b bs ih =>
    by_cases hr : o.data.length + 1 ≤ f
    · rw [outWriteN, outWrite, if_pos (by simp [OutStream.room, hf, hr])]
      simp only
      have hlen : bs ≠ [] := by rintro rfl; simp at h; omega
      rw [ih (by simpa using hf) (by simp at h ⊢; omega) hlen]
      simp only [List.length_append, List.length_singleton, List.append_assoc, Prod.mk.injEq, true_and,
        OutStream.mk.injEq, and_true]
      rw [show f - o.data.length = (f - (o.data.length + 1)) + 1 by omega]
      simp
    · rw [outWriteN, outWrite, if_neg (by simp [OutStream.room, hf]; omega)]
      simp [show f - o.data.length = 0 by omega]

/-- Two writes one after the other are the write of both; the first that fails ends it (R10). -/
theorem outWriteN_append (bs cs : List Byte) (o : OutStream) :
    outWriteN (bs ++ cs) o =
      match outWriteN bs o with
      | (.ok, o') => outWriteN cs o'
      | (.fail, o') => (.fail, o') := by
  induction bs generalizing o with
  | nil => rfl
  | cons b bs ih =>
    simp only [List.cons_append, outWriteN]
    rcases outWrite b o with ⟨_ | _, o'⟩
    · exact ih o'
    · rfl

/-- A write of several bytes leaves the failure point and appends a leading part of the bytes (R59). -/
theorem outWriteN_appends (bs : List Byte) (o : OutStream) :
    ∃ n, (outWriteN bs o).2 = { o with data := o.data ++ bs.take n } := by
  rcases Option.eq_none_or_eq_some o.failAt with hf | ⟨f, hf⟩
  · exact ⟨bs.length, by rw [outWriteN_ok (by simp [hf])]; simp⟩
  · by_cases h : o.data.length + bs.length ≤ f
    · exact ⟨bs.length, by rw [outWriteN_ok (by simpa [hf] using h)]; simp⟩
    · by_cases hne : bs = []
      · exact ⟨0, by simp [hne, outWriteN]⟩
      · exact ⟨_, by rw [outWriteN_fail hf (by omega) hne]⟩

end Sys2Proof.Machine
end

