-- ==== Sys2Proof/Laws/Codec.lean ====
section
/-! SUPPORT. The laws of the host software: the indices of a packed color, the byte of a scaled channel, and everything Save can
answer (R161, R183, R184). -/

namespace Sys2Proof.Codec

open Sys2Proof.Machine

/-! ### Color -/

/-- Packing and indexing agree, index by index (R161). -/
theorem index_packColor (b g r a : Byte) (t : PixelFormat) :
    (Color.mk (packColor b g r a) t).index 0 = b ∧ (Color.mk (packColor b g r a) t).index 1 = g ∧
      (Color.mk (packColor b g r a) t).index 2 = r ∧ (Color.mk (packColor b g r a) t).index 3 = a := by
  simp only [Color.index, packColor]
  refine ⟨?_, ?_, ?_, ?_⟩ <;> ext i hi <;>
    simp only [BitVec.getElem_extractLsb', BitVec.getLsbD_append] <;>
    split_ifs <;> first | omega | (rw [← BitVec.getLsbD_eq_getElem hi]; congr 1; omega)

/-- A whole product is the channel's byte (R161). -/
theorem channelByte_natCast (n : Nat) : channelByte (n : Rat) = BitVec.ofNat 8 n := by simp [channelByte]

theorem clampFactor_of_nonpos {f : Rat} (h : f ≤ 0) : clampFactor f = 0 := by
  unfold clampFactor
  split_ifs with h1 h2
  · rfl
  · exact absurd (lt_of_lt_of_le h2 h) (by norm_num)
  · exact le_antisymm h (not_lt.1 h1)

theorem clampFactor_of_one_le {f : Rat} (h : 1 ≤ f) : clampFactor f = 1 := by
  unfold clampFactor
  split_ifs with h1 h2
  · exact absurd (lt_of_le_of_lt h h1) (by norm_num)
  · rfl
  · exact le_antisymm (not_lt.1 h2) h

theorem clampFactor_of_mem {f : Rat} (h0 : 0 ≤ f) (h1 : f ≤ 1) : clampFactor f = f := by
  rw [clampFactor, if_neg (not_lt.2 h0), if_neg (not_lt.2 h1)]

/-- The channels of a scaled color, index by index (R161). -/
theorem scale_index (f : Rat) (c : Color) :
    (∀ i < 3, (c.scale f).index i = channelByte (((c.index i).toNat : Rat) * clampFactor f)) ∧
      (c.scale f).index 3 = c.index 3 := by
  obtain ⟨h0, h1, h2, h3⟩ := index_packColor (channelByte (((c.index 0).toNat : Rat) * clampFactor f))
    (channelByte (((c.index 1).toNat : Rat) * clampFactor f)) (channelByte (((c.index 2).toNat : Rat) * clampFactor f))
    (c.index 3) c.tag
  refine ⟨fun i hi => ?_, h3⟩
  match i, hi with
  | 0, _ => exact h0
  | 1, _ => exact h1
  | 2, _ => exact h2

/-! ### Save -/

/-- Save of a buffer within the sizes is one write of the file, and IOFailure where it fails (R174 to R176, R184). -/
theorem save_eq {rle : Bool} {b : PixelBuffer} (hw : b.width ≤ 32767) (hh : b.height ≤ 32767) (o : OutStream) :
    save rle b o =
      match outWriteN (saveFile rle b) o with
      | (.ok, o') => .saved o'
      | (.fail, o') => .failed .ioFailure o' := by
  rw [save, if_pos ⟨hw, hh⟩, saveFile, outWriteN_append]
  rcases outWriteN (saveHeader rle b).bytes o with ⟨_ | _, o'⟩
  · simp only
    rcases outWriteN (savePixels rle b) o' with ⟨_ | _, o''⟩ <;> rfl
  · rfl

/-- Everything Save can answer: the whole file appended, IOFailure with a leading part of it appended, or the refusal of a size
above 32767 (R183, R184, U1). -/
theorem save_cases (rle : Bool) (b : PixelBuffer) (o : OutStream) :
    (b.width ≤ 32767 ∧ b.height ≤ 32767 ∧
      (save rle b o = .saved { o with data := o.data ++ saveFile rle b } ∨
        ∃ f, o.failAt = some f ∧ f < o.data.length + (saveFile rle b).length ∧
          save rle b o = .failed .ioFailure { o with data := o.data ++ (saveFile rle b).take (f - o.data.length) })) ∨
      (¬ (b.width ≤ 32767 ∧ b.height ≤ 32767) ∧ save rle b o = .sizeTooLarge) := by
  by_cases hs : b.width ≤ 32767 ∧ b.height ≤ 32767
  · refine .inl ⟨hs.1, hs.2, ?_⟩
    rw [save_eq hs.1 hs.2]
    by_cases hr : ∀ f, o.failAt = some f → o.data.length + (saveFile rle b).length ≤ f
    · exact .inl (by rw [outWriteN_ok hr])
    · simp only [not_forall, not_le] at hr
      obtain ⟨f, hf, hlt⟩ := hr
      exact .inr ⟨f, hf, hlt, by rw [outWriteN_fail hf hlt (by simp [saveFile, TgaHeader.bytes])]⟩
  · exact .inr ⟨hs, by rw [save, if_neg hs]⟩

end Sys2Proof.Codec
end

