-- ==== Sys2Proof/Laws/Encoding.lean ====
section
/-! SUPPORT. The laws of well-formedness and of the header byte, in numbers. -/

namespace Sys2Proof

/-- A pixel count is 1 to 128 (R82). -/
theorem countOk_iff (n : Nat) : countOk n = true ↔ 1 ≤ n ∧ n ≤ 128 := by
  unfold countOk
  rw [Bool.and_eq_true, decide_eq_true_iff, decide_eq_true_iff]
  rfl

@[simp] theorem Instr.wf_lit (n : Nat) : (Instr.lit n).wf = countOk n := rfl
@[simp] theorem Instr.wf_rep (n : Nat) : (Instr.rep n).wf = countOk n := rfl

/-- The header's count is the byte's low seven bits plus one (R82). -/
theorem headerCount_eq (h : Byte) : headerCount h = h.toNat % 128 + 1 := by
  simp [headerCount, BitVec.extractLsb'_toNat]

/-- The header's type bit says whether the byte is 128 or more (R81). -/
theorem headerType_iff (h : Byte) : headerType h = true ↔ 128 ≤ h.toNat := by
  have : ∀ b : Byte, headerType b = true ↔ 128 ≤ b.toNat := by decide
  exact this h

end Sys2Proof
end

