-- ==== Sys2Proof/Laws/Mem.lean ====
section
/-! SUPPORT. The laws of the pixel memory: read after write, the canonical form kept by every operation, and what the
multi-byte operations read and write. -/

namespace Sys2Proof.Machine

@[simp] theorem Mem.read_nil (a : Nat) : Mem.read [] a = none := rfl

@[simp] theorem Mem.wf_nil : Mem.wf [] = true := rfl

theorem Mem.wf_cons {c : Host.Cell} {m : Mem} :
    Mem.wf (c :: m) = true ↔ (∀ d ∈ m, c.1 < d.1) ∧ m.wf = true := by
  simp [Mem.wf]

/-- Read after write. -/
theorem Mem.read_write (m : Mem) (a x : Nat) (b : Byte) :
    (m.write a b).read x = if x = a then some b else m.read x := by
  induction m with
  | nil => simp [Mem.write, Mem.read]
  | cons c m ih =>
    unfold Mem.write
    split_ifs <;> simp_all [Mem.read]

/-- A cell of a memory after a write is the written one or was there. -/
theorem Mem.mem_write {m : Mem} {a : Nat} {b : Byte} {d : Host.Cell} (h : d ∈ m.write a b) :
    d = (a, b) ∨ d ∈ m := by
  induction m with
  | nil => simpa [Mem.write] using h
  | cons c m ih =>
    unfold Mem.write at h
    split_ifs at h
    · simpa using h
    · simp only [List.mem_cons] at h ⊢; tauto
    · simp only [List.mem_cons] at h ⊢
      rcases h with h | h
      · exact .inr (.inl h)
      · rcases ih h with h | h
        · exact .inl h
        · exact .inr (.inr h)

/-- A write keeps the canonical form. -/
theorem Mem.write_wf {m : Mem} (h : m.wf = true) (a : Nat) (b : Byte) : (m.write a b).wf = true := by
  induction m with
  | nil => rfl
  | cons c m ih =>
    obtain ⟨hc, hm⟩ := Mem.wf_cons.1 h
    unfold Mem.write
    split_ifs with h1 h2
    · refine Mem.wf_cons.2 ⟨?_, h⟩
      simp only [List.mem_cons, forall_eq_or_imp]
      exact ⟨h1, fun d hd => lt_trans h1 (hc d hd)⟩
    · exact Mem.wf_cons.2 ⟨fun d hd => h2 ▸ hc d hd, hm⟩
    · refine Mem.wf_cons.2 ⟨fun d hd => ?_, ih hm⟩
      rcases Mem.mem_write hd with rfl | hd
      · simp only; omega
      · exact hc d hd

/-- Below the first offset nothing is listed. -/
theorem Mem.read_eq_none_of_lt {m : Mem} {x : Nat} (h : ∀ d ∈ m, x < d.1) : m.read x = none := by
  induction m with
  | nil => rfl
  | cons c m ih =>
    have := h c (by simp)
    simp [Mem.read, Nat.ne_of_lt this, ih fun d hd => h d (by simp [hd])]

/-- In canonical form a memory is what it reads as. -/
theorem Mem.ext_read {m m' : Mem} (h : m.wf = true) (h' : m'.wf = true) (hr : ∀ a, m.read a = m'.read a) : m = m' := by
  induction m generalizing m' with
  | nil =>
    cases m' with
    | nil => rfl
    | cons c' m' => simpa [Mem.read] using hr c'.1
  | cons c m ih =>
    obtain ⟨hc, hm⟩ := Mem.wf_cons.1 h
    cases m' with
    | nil => simpa [Mem.read] using hr c.1
    | cons c' m' =>
      obtain ⟨hc', hm'⟩ := Mem.wf_cons.1 h'
      have key : c.1 = c'.1 := by
        rcases Nat.lt_trichotomy c.1 c'.1 with hlt | heq | hgt
        · have := hr c.1
          rw [Mem.read_eq_none_of_lt (m := c' :: m')] at this
          · simp [Mem.read] at this
          · simp only [List.mem_cons, forall_eq_or_imp]
            exact ⟨hlt, fun d hd => lt_trans hlt (hc' d hd)⟩
        · exact heq
        · have := hr c'.1
          rw [Mem.read_eq_none_of_lt (m := c :: m)] at this
          · simp [Mem.read] at this
          · simp only [List.mem_cons, forall_eq_or_imp]
            exact ⟨hgt, fun d hd => lt_trans hgt (hc d hd)⟩
      have hval : c.2 = c'.2 := by
        have := hr c.1
        simpa [Mem.read, key] using this
      have htail : m = m' := by
        refine ih hm hm' fun a => ?_
        by_cases ha : a = c.1
        · rw [ha, Mem.read_eq_none_of_lt hc, key, Mem.read_eq_none_of_lt hc']
        · have := hr a
          simpa [Mem.read, ha, ← key] using this
      rw [htail, Prod.ext key hval]

/-! ### Several bytes -/

@[simp] theorem Mem.readN_zero (m : Mem) (a : Nat) : m.readN a 0 = some [] := rfl

theorem Mem.readN_succ (m : Mem) (a n : Nat) :
    m.readN a (n + 1) = (m.read a).bind fun b => (m.readN (a + 1) n).map (b :: ·) := by
  rw [Mem.readN]; cases m.read a <;> rfl

/-- What `MemRead` answers, byte by byte. -/
theorem Mem.readN_eq_some {m : Mem} {a n : Nat} {bs : List Byte} :
    m.readN a n = some bs ↔ bs.length = n ∧ ∀ i < n, m.read (a + i) = bs[i]? := by
  induction n generalizing a bs with
  | zero => cases bs <;> simp
  | succ n ih =>
    rw [Mem.readN_succ]
    constructor
    · intro h
      simp only [Option.bind_eq_some_iff, Option.map_eq_some_iff] at h
      obtain ⟨b, hb, cs, hcs, rfl⟩ := h
      obtain ⟨hl, hr⟩ := ih.1 hcs
      refine ⟨by simp [hl], fun i hi => ?_⟩
      cases i with
      | zero => simpa using hb
      | succ i =>
        have := hr i (by omega)
        rw [show a + (i + 1) = a + 1 + i by omega]
        simpa using this
    · rintro ⟨hl, hr⟩
      cases bs with
      | nil => simp at hl
      | cons b cs =>
        have h0 : m.read a = some b := by simpa using hr 0 (by omega)
        have h1 : m.readN (a + 1) n = some cs := by
          refine ih.2 ⟨by simpa using hl, fun i hi => ?_⟩
          have := hr (i + 1) (by omega)
          rw [show a + 1 + i = a + (i + 1) by omega]
          simpa using this
        simp [h0, h1]

/-- A range is written when each byte of it holds a value. -/
theorem Mem.written_iff {m : Mem} {a n : Nat} :
    m.written a n = true ↔ ∀ i < n, (m.read (a + i)).isSome = true := by
  unfold Mem.written
  induction n generalizing a with
  | zero => simp
  | succ n ih =>
    rw [Mem.readN_succ]
    cases h : m.read a with
    | none =>
      constructor
      · intro hh; simp at hh
      · intro hh; have := hh 0 (by omega); simp [h] at this
    | some b =>
      have : (Option.map (fun x => b :: x) (m.readN (a + 1) n)).isSome = (m.readN (a + 1) n).isSome := by
        cases m.readN (a + 1) n <;> rfl
      simp only [Option.bind_some, this, ih]
      constructor
      · intro hh i hi
        cases i with
        | zero => simp [h]
        | succ i => rw [show a + (i + 1) = a + 1 + i by omega]; exact hh i (by omega)
      · intro hh i hi
        rw [show a + 1 + i = a + (i + 1) by omega]; exact hh (i + 1) (by omega)

/-- What a byte reads as after `MemWrite`. -/
theorem Mem.read_writeN (bs : List Byte) (m : Mem) (a x : Nat) :
    (m.writeN a bs).read x = if a ≤ x ∧ x < a + bs.length then bs[x - a]? else m.read x := by
  induction bs generalizing a m with
  | nil => simp only [Mem.writeN, List.length_nil, Nat.add_zero]; rw [if_neg (by omega)]
  | cons b bs ih =>
    rw [Mem.writeN, ih, Mem.read_write]
    by_cases hx : x = a
    · subst hx; simp
    · by_cases hr : a + 1 ≤ x ∧ x < a + 1 + bs.length
      · rw [if_pos hr, if_pos (by simp; omega), show x - a = (x - (a + 1)) + 1 by omega]; simp
      · rw [if_neg hr, if_neg hx, if_neg (by simp; omega)]

theorem Mem.writeN_wf {m : Mem} (h : m.wf = true) (a : Nat) (bs : List Byte) : (m.writeN a bs).wf = true := by
  induction bs generalizing a m with
  | nil => exact h
  | cons b bs ih => exact ih (Mem.write_wf h a b) (a + 1)

/-! ### Overwriting with free values -/

theorem read_cellsBelow (n : Nat) (f : Nat → Byte) (m : Mem) (x : Nat) :
    Mem.read (cellsBelow n f ++ m) x = if x < n then some (f x) else m.read x := by
  have gen : ∀ (l : List Nat), Mem.read (l.map (fun a => (a, f a)) ++ m) x =
      if x ∈ l then some (f x) else m.read x := by
    intro l
    induction l with
    | nil => simp
    | cons a l ih =>
      by_cases hx : x = a
      · subst hx; simp [Mem.read]
      · simp [Mem.read, hx, ih]
  simpa [cellsBelow] using gen (List.range n)

theorem Mem.read_filter (m : Mem) (n x : Nat) :
    Mem.read (m.filter (fun c => n ≤ c.1)) x = if n ≤ x then m.read x else none := by
  induction m with
  | nil => simp
  | cons c m ih =>
    by_cases hc : n ≤ c.1
    · simp only [List.filter_cons, hc, decide_true, if_true, Mem.read]
      split_ifs <;> simp_all
    · simp only [List.filter_cons, hc, decide_false, Bool.false_eq_true, if_false, Mem.read, ih]
      by_cases hx : x = c.1
      · rw [if_neg (by omega), if_neg (by omega)]
      · simp [hx]

/-- What a byte reads as after the bytes below `n` have been overwritten. -/
theorem Mem.read_overwriteBelow (n : Nat) (f : Nat → Byte) (m : Mem) (x : Nat) :
    (m.overwriteBelow n f).read x = if x < n then some (f x) else m.read x := by
  rw [Mem.overwriteBelow, read_cellsBelow, Mem.read_filter]
  split_ifs <;> first | rfl | omega

theorem Mem.filter_wf {m : Mem} (h : m.wf = true) (p : Host.Cell → Bool) : Mem.wf (m.filter p) = true := by
  induction m with
  | nil => rfl
  | cons c m ih =>
    obtain ⟨hc, hm⟩ := Mem.wf_cons.1 h
    by_cases hp : p c = true
    · rw [List.filter_cons_of_pos hp]
      exact Mem.wf_cons.2 ⟨fun d hd => hc d (List.mem_of_mem_filter hd), ih hm⟩
    · rw [List.filter_cons_of_neg hp]; exact ih hm

theorem Mem.append_wf {m m' : Mem} (h : m.wf = true) (h' : m'.wf = true) (hlt : ∀ c ∈ m, ∀ d ∈ m', c.1 < d.1) :
    Mem.wf (m ++ m') = true := by
  induction m with
  | nil => exact h'
  | cons c m ih =>
    obtain ⟨hc, hm⟩ := Mem.wf_cons.1 h
    refine Mem.wf_cons.2 ⟨fun d hd => ?_, ih hm fun c hc d hd => hlt c (by simp [hc]) d hd⟩
    rcases List.mem_append.1 hd with hd | hd
    · exact hc d hd
    · exact hlt c (by simp) d hd

theorem cellsBelow_wf (n : Nat) (f : Nat → Byte) : Mem.wf (cellsBelow n f) = true := by
  induction n with
  | zero => rfl
  | succ n ih =>
    rw [cellsBelow, List.range_succ, List.map_append]
    refine Mem.append_wf ih rfl ?_
    simp only [List.mem_map, List.mem_range, List.map_cons, List.map_nil, List.mem_singleton, forall_eq]
    rintro c ⟨a, ha, rfl⟩
    exact ha

theorem Mem.overwriteBelow_wf {m : Mem} (h : m.wf = true) (n : Nat) (f : Nat → Byte) :
    (m.overwriteBelow n f).wf = true := by
  refine Mem.append_wf (cellsBelow_wf n f) (Mem.filter_wf h _) ?_
  intro c hc d hd
  simp only [cellsBelow, List.mem_map, List.mem_range] at hc
  obtain ⟨a, ha, rfl⟩ := hc
  have : n ≤ d.1 := by simpa using List.of_mem_filter hd
  simp only; omega

end Sys2Proof.Machine
end

