-- ==== Sys2Proof/Laws/State.lean ====
section
/-! SUPPORT. For every update of a group of the state, what every field reads as after it; no later proof unfolds an
update. -/

namespace Sys2Proof.Machine

/-! ### withCfg -/

@[simp] theorem State.withCfg_cfg (s : State) (c : Cfg) : (s.withCfg c).cfg = c := rfl
@[simp] theorem State.withCfg_status (s : State) (c : Cfg) : (s.withCfg c).status = s.status := rfl
@[simp] theorem State.withCfg_enc (s : State) (c : Cfg) : (s.withCfg c).enc = s.enc := rfl
@[simp] theorem State.withCfg_dec (s : State) (c : Cfg) : (s.withCfg c).dec = s.dec := rfl
@[simp] theorem State.withCfg_pixbuf (s : State) (c : Cfg) : (s.withCfg c).pixbuf = s.pixbuf := rfl
@[simp] theorem State.withCfg_input (s : State) (c : Cfg) : (s.withCfg c).input = s.input := rfl
@[simp] theorem State.withCfg_output (s : State) (c : Cfg) : (s.withCfg c).output = s.output := rfl
@[simp] theorem State.withCfg_host (s : State) (c : Cfg) : (s.withCfg c).host = s.host := rfl
@[simp] theorem State.withCfg_lastRead (s : State) (c : Cfg) : (s.withCfg c).lastRead = s.lastRead := rfl
@[simp] theorem State.withCfg_draws (s : State) (c : Cfg) : (s.withCfg c).draws = s.draws := rfl

/-! ### withStatus -/

@[simp] theorem State.withStatus_cfg (s : State) (st : Status) : (s.withStatus st).cfg = s.cfg := rfl
@[simp] theorem State.withStatus_status (s : State) (st : Status) : (s.withStatus st).status = st := rfl
@[simp] theorem State.withStatus_enc (s : State) (st : Status) : (s.withStatus st).enc = s.enc := rfl
@[simp] theorem State.withStatus_dec (s : State) (st : Status) : (s.withStatus st).dec = s.dec := rfl
@[simp] theorem State.withStatus_pixbuf (s : State) (st : Status) : (s.withStatus st).pixbuf = s.pixbuf := rfl
@[simp] theorem State.withStatus_input (s : State) (st : Status) : (s.withStatus st).input = s.input := rfl
@[simp] theorem State.withStatus_output (s : State) (st : Status) : (s.withStatus st).output = s.output := rfl
@[simp] theorem State.withStatus_host (s : State) (st : Status) : (s.withStatus st).host = s.host := rfl
@[simp] theorem State.withStatus_lastRead (s : State) (st : Status) : (s.withStatus st).lastRead = s.lastRead := rfl
@[simp] theorem State.withStatus_draws (s : State) (st : Status) : (s.withStatus st).draws = s.draws := rfl

/-! ### withEnc -/

@[simp] theorem State.withEnc_cfg (s : State) (e : EncRegs) : (s.withEnc e).cfg = s.cfg := rfl
@[simp] theorem State.withEnc_status (s : State) (e : EncRegs) : (s.withEnc e).status = s.status := rfl
@[simp] theorem State.withEnc_enc (s : State) (e : EncRegs) : (s.withEnc e).enc = e := rfl
@[simp] theorem State.withEnc_dec (s : State) (e : EncRegs) : (s.withEnc e).dec = s.dec := rfl
@[simp] theorem State.withEnc_pixbuf (s : State) (e : EncRegs) : (s.withEnc e).pixbuf = s.pixbuf := rfl
@[simp] theorem State.withEnc_input (s : State) (e : EncRegs) : (s.withEnc e).input = s.input := rfl
@[simp] theorem State.withEnc_output (s : State) (e : EncRegs) : (s.withEnc e).output = s.output := rfl
@[simp] theorem State.withEnc_host (s : State) (e : EncRegs) : (s.withEnc e).host = s.host := rfl
@[simp] theorem State.withEnc_lastRead (s : State) (e : EncRegs) : (s.withEnc e).lastRead = s.lastRead := rfl
@[simp] theorem State.withEnc_draws (s : State) (e : EncRegs) : (s.withEnc e).draws = s.draws := rfl

/-! ### withDec -/

@[simp] theorem State.withDec_cfg (s : State) (d : DecRegs) : (s.withDec d).cfg = s.cfg := rfl
@[simp] theorem State.withDec_status (s : State) (d : DecRegs) : (s.withDec d).status = s.status := rfl
@[simp] theorem State.withDec_enc (s : State) (d : DecRegs) : (s.withDec d).enc = s.enc := rfl
@[simp] theorem State.withDec_dec (s : State) (d : DecRegs) : (s.withDec d).dec = d := rfl
@[simp] theorem State.withDec_pixbuf (s : State) (d : DecRegs) : (s.withDec d).pixbuf = s.pixbuf := rfl
@[simp] theorem State.withDec_input (s : State) (d : DecRegs) : (s.withDec d).input = s.input := rfl
@[simp] theorem State.withDec_output (s : State) (d : DecRegs) : (s.withDec d).output = s.output := rfl
@[simp] theorem State.withDec_host (s : State) (d : DecRegs) : (s.withDec d).host = s.host := rfl
@[simp] theorem State.withDec_lastRead (s : State) (d : DecRegs) : (s.withDec d).lastRead = s.lastRead := rfl
@[simp] theorem State.withDec_draws (s : State) (d : DecRegs) : (s.withDec d).draws = s.draws := rfl

/-! ### withPixbuf -/

@[simp] theorem State.withPixbuf_cfg (s : State) (m : Mem) : (s.withPixbuf m).cfg = s.cfg := rfl
@[simp] theorem State.withPixbuf_status (s : State) (m : Mem) : (s.withPixbuf m).status = s.status := rfl
@[simp] theorem State.withPixbuf_enc (s : State) (m : Mem) : (s.withPixbuf m).enc = s.enc := rfl
@[simp] theorem State.withPixbuf_dec (s : State) (m : Mem) : (s.withPixbuf m).dec = s.dec := rfl
@[simp] theorem State.withPixbuf_pixbuf (s : State) (m : Mem) : (s.withPixbuf m).pixbuf = m := rfl
@[simp] theorem State.withPixbuf_input (s : State) (m : Mem) : (s.withPixbuf m).input = s.input := rfl
@[simp] theorem State.withPixbuf_output (s : State) (m : Mem) : (s.withPixbuf m).output = s.output := rfl
@[simp] theorem State.withPixbuf_host (s : State) (m : Mem) : (s.withPixbuf m).host = s.host := rfl
@[simp] theorem State.withPixbuf_lastRead (s : State) (m : Mem) : (s.withPixbuf m).lastRead = s.lastRead := rfl
@[simp] theorem State.withPixbuf_draws (s : State) (m : Mem) : (s.withPixbuf m).draws = s.draws := rfl

/-! ### withInput -/

@[simp] theorem State.withInput_cfg (s : State) (i : InStream) : (s.withInput i).cfg = s.cfg := rfl
@[simp] theorem State.withInput_status (s : State) (i : InStream) : (s.withInput i).status = s.status := rfl
@[simp] theorem State.withInput_enc (s : State) (i : InStream) : (s.withInput i).enc = s.enc := rfl
@[simp] theorem State.withInput_dec (s : State) (i : InStream) : (s.withInput i).dec = s.dec := rfl
@[simp] theorem State.withInput_pixbuf (s : State) (i : InStream) : (s.withInput i).pixbuf = s.pixbuf := rfl
@[simp] theorem State.withInput_input (s : State) (i : InStream) : (s.withInput i).input = i := rfl
@[simp] theorem State.withInput_output (s : State) (i : InStream) : (s.withInput i).output = s.output := rfl
@[simp] theorem State.withInput_host (s : State) (i : InStream) : (s.withInput i).host = s.host := rfl
@[simp] theorem State.withInput_lastRead (s : State) (i : InStream) : (s.withInput i).lastRead = s.lastRead := rfl
@[simp] theorem State.withInput_draws (s : State) (i : InStream) : (s.withInput i).draws = s.draws := rfl

/-! ### withOutput -/

@[simp] theorem State.withOutput_cfg (s : State) (o : OutStream) : (s.withOutput o).cfg = s.cfg := rfl
@[simp] theorem State.withOutput_status (s : State) (o : OutStream) : (s.withOutput o).status = s.status := rfl
@[simp] theorem State.withOutput_enc (s : State) (o : OutStream) : (s.withOutput o).enc = s.enc := rfl
@[simp] theorem State.withOutput_dec (s : State) (o : OutStream) : (s.withOutput o).dec = s.dec := rfl
@[simp] theorem State.withOutput_pixbuf (s : State) (o : OutStream) : (s.withOutput o).pixbuf = s.pixbuf := rfl
@[simp] theorem State.withOutput_input (s : State) (o : OutStream) : (s.withOutput o).input = s.input := rfl
@[simp] theorem State.withOutput_output (s : State) (o : OutStream) : (s.withOutput o).output = o := rfl
@[simp] theorem State.withOutput_host (s : State) (o : OutStream) : (s.withOutput o).host = s.host := rfl
@[simp] theorem State.withOutput_lastRead (s : State) (o : OutStream) : (s.withOutput o).lastRead = s.lastRead := rfl
@[simp] theorem State.withOutput_draws (s : State) (o : OutStream) : (s.withOutput o).draws = s.draws := rfl

/-! ### withHost -/

@[simp] theorem State.withHost_cfg (s : State) (h : List HostMove) : (s.withHost h).cfg = s.cfg := rfl
@[simp] theorem State.withHost_status (s : State) (h : List HostMove) : (s.withHost h).status = s.status := rfl
@[simp] theorem State.withHost_enc (s : State) (h : List HostMove) : (s.withHost h).enc = s.enc := rfl
@[simp] theorem State.withHost_dec (s : State) (h : List HostMove) : (s.withHost h).dec = s.dec := rfl
@[simp] theorem State.withHost_pixbuf (s : State) (h : List HostMove) : (s.withHost h).pixbuf = s.pixbuf := rfl
@[simp] theorem State.withHost_input (s : State) (h : List HostMove) : (s.withHost h).input = s.input := rfl
@[simp] theorem State.withHost_output (s : State) (h : List HostMove) : (s.withHost h).output = s.output := rfl
@[simp] theorem State.withHost_host (s : State) (h : List HostMove) : (s.withHost h).host = h := rfl
@[simp] theorem State.withHost_lastRead (s : State) (h : List HostMove) : (s.withHost h).lastRead = s.lastRead := rfl
@[simp] theorem State.withHost_draws (s : State) (h : List HostMove) : (s.withHost h).draws = s.draws := rfl

/-! ### withLastRead -/

@[simp] theorem State.withLastRead_cfg (s : State) (a : HostAnswer) : (s.withLastRead a).cfg = s.cfg := rfl
@[simp] theorem State.withLastRead_status (s : State) (a : HostAnswer) : (s.withLastRead a).status = s.status := rfl
@[simp] theorem State.withLastRead_enc (s : State) (a : HostAnswer) : (s.withLastRead a).enc = s.enc := rfl
@[simp] theorem State.withLastRead_dec (s : State) (a : HostAnswer) : (s.withLastRead a).dec = s.dec := rfl
@[simp] theorem State.withLastRead_pixbuf (s : State) (a : HostAnswer) : (s.withLastRead a).pixbuf = s.pixbuf := rfl
@[simp] theorem State.withLastRead_input (s : State) (a : HostAnswer) : (s.withLastRead a).input = s.input := rfl
@[simp] theorem State.withLastRead_output (s : State) (a : HostAnswer) : (s.withLastRead a).output = s.output := rfl
@[simp] theorem State.withLastRead_host (s : State) (a : HostAnswer) : (s.withLastRead a).host = s.host := rfl
@[simp] theorem State.withLastRead_lastRead (s : State) (a : HostAnswer) : (s.withLastRead a).lastRead = some a := rfl
@[simp] theorem State.withLastRead_draws (s : State) (a : HostAnswer) : (s.withLastRead a).draws = s.draws := rfl

/-! ### setRunState -/

@[simp] theorem State.setRunState_cfg (s : State) (r : RunState) : (s.setRunState r).cfg = s.cfg := rfl
@[simp] theorem State.setRunState_status (s : State) (r : RunState) : (s.setRunState r).status = { s.status with state := r } := rfl
@[simp] theorem State.setRunState_enc (s : State) (r : RunState) : (s.setRunState r).enc = s.enc := rfl
@[simp] theorem State.setRunState_dec (s : State) (r : RunState) : (s.setRunState r).dec = s.dec := rfl
@[simp] theorem State.setRunState_pixbuf (s : State) (r : RunState) : (s.setRunState r).pixbuf = s.pixbuf := rfl
@[simp] theorem State.setRunState_input (s : State) (r : RunState) : (s.setRunState r).input = s.input := rfl
@[simp] theorem State.setRunState_output (s : State) (r : RunState) : (s.setRunState r).output = s.output := rfl
@[simp] theorem State.setRunState_host (s : State) (r : RunState) : (s.setRunState r).host = s.host := rfl
@[simp] theorem State.setRunState_lastRead (s : State) (r : RunState) : (s.setRunState r).lastRead = s.lastRead := rfl
@[simp] theorem State.setRunState_draws (s : State) (r : RunState) : (s.setRunState r).draws = s.draws := rfl

/-! ### drawn -/

@[simp] theorem State.drawn_cfg (s : State) : s.drawn.cfg = s.cfg := rfl
@[simp] theorem State.drawn_status (s : State) : s.drawn.status = s.status := rfl
@[simp] theorem State.drawn_enc (s : State) : s.drawn.enc = s.enc := rfl
@[simp] theorem State.drawn_dec (s : State) : s.drawn.dec = s.dec := rfl
@[simp] theorem State.drawn_pixbuf (s : State) : s.drawn.pixbuf = s.pixbuf := rfl
@[simp] theorem State.drawn_input (s : State) : s.drawn.input = s.input := rfl
@[simp] theorem State.drawn_output (s : State) : s.drawn.output = s.output := rfl
@[simp] theorem State.drawn_host (s : State) : s.drawn.host = s.host := rfl
@[simp] theorem State.drawn_lastRead (s : State) : s.drawn.lastRead = s.lastRead := rfl
@[simp] theorem State.drawn_draws (s : State) : s.drawn.draws = s.draws + 1 := rfl

end Sys2Proof.Machine
end

