-- ==== Sys2Proof/Laws/Errors.lean ====
section
/-! SUPPORT. The laws of raising an error: what it writes, what it leaves, and the bounds of what is free after it (R206,
R208). -/

namespace Sys2Proof.Machine

/-! ### raiseError -/

@[simp] theorem raiseError_status (e : ErrKind) (s : State) :
    (raiseError e s).status = { state := .error, err := e } := rfl
@[simp] theorem raiseError_cfg (e : ErrKind) (s : State) : (raiseError e s).cfg = s.cfg := rfl
@[simp] theorem raiseError_enc (e : ErrKind) (s : State) : (raiseError e s).enc = s.enc := rfl
@[simp] theorem raiseError_dec (e : ErrKind) (s : State) : (raiseError e s).dec = s.dec := rfl
@[simp] theorem raiseError_pixbuf (e : ErrKind) (s : State) : (raiseError e s).pixbuf = s.pixbuf := rfl
@[simp] theorem raiseError_input (e : ErrKind) (s : State) : (raiseError e s).input = s.input := rfl
@[simp] theorem raiseError_output (e : ErrKind) (s : State) : (raiseError e s).output = s.output := rfl
@[simp] theorem raiseError_host (e : ErrKind) (s : State) : (raiseError e s).host = s.host := rfl
@[simp] theorem raiseError_lastRead (e : ErrKind) (s : State) : (raiseError e s).lastRead = s.lastRead := rfl
@[simp] theorem raiseError_draws (e : ErrKind) (s : State) : (raiseError e s).draws = s.draws := rfl

/-! ### failDecode -/

@[simp] theorem failDecode_status (e : ErrKind) (s : State) :
    (failDecode e s).status = { state := .error, err := e } := rfl
@[simp] theorem failDecode_cfg (e : ErrKind) (s : State) : (failDecode e s).cfg = s.cfg := rfl
@[simp] theorem failDecode_enc (e : ErrKind) (s : State) : (failDecode e s).enc = s.enc := rfl
@[simp] theorem failDecode_output (e : ErrKind) (s : State) : (failDecode e s).output = s.output := rfl
@[simp] theorem failDecode_host (e : ErrKind) (s : State) : (failDecode e s).host = s.host := rfl
@[simp] theorem failDecode_lastRead (e : ErrKind) (s : State) : (failDecode e s).lastRead = s.lastRead := rfl
@[simp] theorem failDecode_content (e : ErrKind) (s : State) :
    (failDecode e s).input.content = s.input.content := rfl
@[simp] theorem failDecode_point (e : ErrKind) (s : State) : (failDecode e s).input.point = s.input.point := rfl
@[simp] theorem failDecode_term (e : ErrKind) (s : State) : (failDecode e s).input.term = s.input.term := rfl
@[simp] theorem failDecode_data (e : ErrKind) (s : State) : (failDecode e s).input.data = s.input.data := rfl
@[simp] theorem failDecode_draws (e : ErrKind) (s : State) : (failDecode e s).draws = s.draws + 1 := rfl

theorem failDecode_pixbuf (e : ErrKind) (s : State) :
    (failDecode e s).pixbuf = s.pixbuf.overwriteBelow s.cfg.nbytes (Config.freePixByte s.draws) := rfl

/-- No byte outside the image changes (R208). -/
theorem failDecode_read_outside (e : ErrKind) (s : State) {a : Nat} (h : s.cfg.nbytes ≤ a) :
    (failDecode e s).pixbuf.read a = s.pixbuf.read a := by
  rw [failDecode_pixbuf, Mem.read_overwriteBelow, if_neg (by omega)]

/-- Every byte of the image has some value (R208). -/
theorem failDecode_read_inside (e : ErrKind) (s : State) {a : Nat} (h : a < s.cfg.nbytes) :
    ((failDecode e s).pixbuf.read a).isSome = true := by
  rw [failDecode_pixbuf, Mem.read_overwriteBelow, if_pos h]; rfl

theorem failDecode_wf (e : ErrKind) {s : State} (h : s.pixbuf.wf = true) : (failDecode e s).pixbuf.wf = true :=
  Mem.overwriteBelow_wf h _ _

/-- `IN.POS` stays at or below the position the reads had reached (R208). -/
theorem failDecode_pos (e : ErrKind) (s : State) : (failDecode e s).input.pos ≤ s.input.pos :=
  Nat.lt_succ_iff.1 (Nat.mod_lt _ (Nat.succ_pos _))

theorem failDecode_count (e : ErrKind) (s : State) : (failDecode e s).dec.count < 2 ^ 31 :=
  Nat.mod_lt _ (by decide)

theorem failDecode_latch (e : ErrKind) (s : State) :
    (failDecode e s).dec.pixLatch.length = s.cfg.bytesPerPixel := by
  show ((List.range s.cfg.bytesPerPixel).map _).length = _
  simp

/-! ### failEncode -/

@[simp] theorem failEncode_status (e : ErrKind) (s : State) :
    (failEncode e s).status = { state := .error, err := e } := rfl
@[simp] theorem failEncode_cfg (e : ErrKind) (s : State) : (failEncode e s).cfg = s.cfg := rfl
@[simp] theorem failEncode_dec (e : ErrKind) (s : State) : (failEncode e s).dec = s.dec := rfl
@[simp] theorem failEncode_pixbuf (e : ErrKind) (s : State) : (failEncode e s).pixbuf = s.pixbuf := rfl
@[simp] theorem failEncode_input (e : ErrKind) (s : State) : (failEncode e s).input = s.input := rfl
@[simp] theorem failEncode_output (e : ErrKind) (s : State) : (failEncode e s).output = s.output := rfl
@[simp] theorem failEncode_host (e : ErrKind) (s : State) : (failEncode e s).host = s.host := rfl
@[simp] theorem failEncode_lastRead (e : ErrKind) (s : State) : (failEncode e s).lastRead = s.lastRead := rfl
@[simp] theorem failEncode_draws (e : ErrKind) (s : State) : (failEncode e s).draws = s.draws + 1 := rfl

theorem failEncode_curPix (e : ErrKind) (s : State) : (failEncode e s).enc.curPix < 2 ^ 30 :=
  Nat.mod_lt _ (by decide)

theorem failEncode_runLen (e : ErrKind) (s : State) :
    1 ≤ (failEncode e s).enc.runLen ∧ (failEncode e s).enc.runLen ≤ 128 := by
  show 1 ≤ _ % Config.maxChunk + 1 ∧ _ % Config.maxChunk + 1 ≤ 128
  have := Nat.mod_lt (Config.freeRunLen (raiseError e s).draws) (show Config.maxChunk > 0 by decide)
  simp only [Config.maxChunk] at this ⊢
  omega

end Sys2Proof.Machine
end

