-- ==== Sys2Proof/Laws/Operands.lean ====
section
/-! SUPPORT. The laws of the configuration: what legality says in numbers, and the bounds of R6 that follow. -/

namespace Sys2Proof.Machine

/-- A positive signed half reads the same unsigned, 1 to 32767 (R21). -/
theorem half_pos_iff (v : Half) : 1 ≤ v.toInt ↔ 1 ≤ v.toNat ∧ v.toNat ≤ 32767 := by
  have := v.isLt
  rw [BitVec.toInt_eq_toNat_cond]
  split <;> omega

/-- A legal configuration in numbers (R6, R21 to R23). -/
theorem Cfg.legal_iff (c : Cfg) :
    c.legal = true ↔ (1 ≤ c.w ∧ c.w ≤ 32767) ∧ (1 ≤ c.hgt ∧ c.hgt ≤ 32767) ∧
      (c.bytesPerPixel = 1 ∨ c.bytesPerPixel = 3 ∨ c.bytesPerPixel = 4) := by
  have hb : c.bppOk = true ↔ (c.bytesPerPixel = 1 ∨ c.bytesPerPixel = 3 ∨ c.bytesPerPixel = 4) := by
    simp only [Cfg.bppOk, Cfg.bytesPerPixel, Bool.or_eq_true, beq_iff_eq, or_assoc, BitVec.toNat_eq]
    rfl
  simp only [Cfg.legal, Cfg.dimsOk, Bool.and_eq_true, decide_eq_true_eq, half_pos_iff, hb, Cfg.w, Cfg.hgt, and_assoc]

/-- A legal image has at least one pixel and fewer than 2^30 (R6). -/
theorem Cfg.npix_bounds {c : Cfg} (h : c.legal = true) : 1 ≤ c.npix ∧ c.npix ≤ 1073676289 := by
  obtain ⟨⟨hw, hw'⟩, ⟨hh, hh'⟩, -⟩ := (Cfg.legal_iff c).1 h
  refine ⟨Nat.mul_pos hw hh, ?_⟩
  calc c.w * c.hgt ≤ 32767 * 32767 := Nat.mul_le_mul hw' hh'
    _ = 1073676289 := by norm_num

/-- A legal image fits the pixel memory (R6, R63). -/
theorem Cfg.nbytes_le {c : Cfg} (h : c.legal = true) : c.nbytes ≤ Config.pixbufCap := by
  obtain ⟨-, hn⟩ := Cfg.npix_bounds h
  have hb : c.bytesPerPixel ≤ 4 := by
    obtain ⟨-, -, hb⟩ := (Cfg.legal_iff c).1 h
    omega
  calc c.nbytes ≤ 1073676289 * 4 := Nat.mul_le_mul hn hb
    _ ≤ Config.pixbufCap := by norm_num [Config.pixbufCap]

end Sys2Proof.Machine
end

