-- ==== Sys2Proof/Laws/Packet.lean ====
section
/-! SUPPORT. The laws of the packet loops: which bytes they store, what they keep, and how a packet ends. -/

namespace Sys2Proof.Machine

/-! ### One pixel -/

/-- A pixel inside the image is stored at its bytes, one beyond it is dropped (R54, R136). -/
theorem read_putPixel (bpp npix idx : Nat) {p : Pixel} (hp : p.length = bpp) (m : Mem) (x : Nat) :
    (putPixel bpp npix idx p m).read x =
      if idx < npix ∧ idx * bpp ≤ x ∧ x < idx * bpp + bpp then p[x - idx * bpp]? else m.read x := by
  unfold putPixel
  by_cases h : idx < npix
  · rw [if_pos h, Mem.pixWrite, Mem.read_writeN, pixAddr, hp]
    simp only [h, true_and]
  · rw [if_neg h, if_neg (by tauto)]

theorem putPixel_wf (bpp npix idx : Nat) (p : Pixel) {m : Mem} (h : m.wf = true) :
    (putPixel bpp npix idx p m).wf = true := by
  unfold putPixel
  split_ifs
  · exact Mem.writeN_wf h _ _
  · exact h

/-- The bytes of a pixel lie below the image's end. -/
theorem pixel_below {bpp npix idx x : Nat} (hi : idx < npix) (hx : x < idx * bpp + bpp) : x < npix * bpp := by
  calc x < idx * bpp + bpp := hx
    _ = (idx + 1) * bpp := by ring
    _ ≤ npix * bpp := Nat.mul_le_mul_right bpp hi

/-! ### The loop of `REP` -/

/-- What a byte reads as after a pixel has been replicated: the byte of the pixel at its place in it, inside the image; all
other bytes stay (R134, R136). -/
theorem read_replicatePixel (bpp npix : Nat) {p : Pixel} (hp : p.length = bpp) (k idx : Nat) (m : Mem) (x : Nat) :
    (replicatePixel bpp npix p k idx m).read x =
      if idx * bpp ≤ x ∧ x < min (idx + k) npix * bpp then p[x % bpp]? else m.read x := by
  induction k generalizing idx m with
  | zero =>
    rw [replicatePixel, if_neg]
    rintro ⟨h1, h2⟩
    have : min (idx + 0) npix * bpp ≤ idx * bpp := Nat.mul_le_mul_right bpp (Nat.min_le_left _ _)
    omega
  | succ k ih =>
    rw [replicatePixel, ih, read_putPixel _ _ _ hp]
    rw [show idx + 1 + k = idx + (k + 1) by omega]
    have hsucc : (idx + 1) * bpp = idx * bpp + bpp := by ring
    rw [hsucc]
    by_cases hn : idx < npix
    · have hle : idx * bpp + bpp ≤ min (idx + (k + 1)) npix * bpp := by
        rw [← hsucc]; exact Nat.mul_le_mul_right bpp (by omega)
      simp only [hn, true_and]
      by_cases h1 : idx * bpp + bpp ≤ x ∧ x < min (idx + (k + 1)) npix * bpp
      · rw [if_pos h1, if_pos ⟨by omega, h1.2⟩]
      · rw [if_neg h1]
        by_cases h2 : idx * bpp ≤ x ∧ x < idx * bpp + bpp
        · rw [if_pos h2, if_pos ⟨h2.1, by omega⟩]
          congr 1
          obtain ⟨d, rfl⟩ := Nat.exists_eq_add_of_le h2.1
          rw [Nat.add_sub_cancel_left, Nat.mul_add_mod_self_right, Nat.mod_eq_of_lt (by omega)]
        · rw [if_neg h2, if_neg (by omega)]
    · have hle : min (idx + (k + 1)) npix * bpp ≤ idx * bpp := Nat.mul_le_mul_right bpp (by omega)
      rw [if_neg (by omega), if_neg (by tauto), if_neg (by omega)]

theorem replicatePixel_wf (bpp npix : Nat) (p : Pixel) (k idx : Nat) {m : Mem} (h : m.wf = true) :
    (replicatePixel bpp npix p k idx m).wf = true := by
  induction k generalizing idx m with
  | zero => exact h
  | succ k ih => exact ih _ (putPixel_wf _ _ _ _ h)

/-! ### The loop of `LIT` -/

/-- Copying literal pixels moves nothing of the input stream but `IN.POS` (R57, R133). -/
theorem copyPixels_stream (bpp npix k idx : Nat) (i j : InStream) (m m' : Mem)
    (h : copyPixels bpp npix k idx i m = .copied j m') : j = { i with pos := j.pos } := by
  induction k generalizing idx i m with
  | zero => cases h; rfl
  | succ k ih =>
    rw [copyPixels] at h
    cases hr : inReadN bpp i with
    | stop t i' => simp [hr] at h
    | bytes p i' =>
      rw [hr] at h
      rw [ih _ _ _ h, inReadN_stream hr]

/-- Copying that stops leaves the input stream's content, point and terminator (R57, R133). -/
theorem copyPixels_stopped_stream {bpp npix k idx : Nat} {i j : InStream} {m m' : Mem} {t : Term}
    (h : copyPixels bpp npix k idx i m = .stopped t j m') :
    j.content = i.content ∧ j.point = i.point ∧ j.term = i.term := by
  induction k generalizing idx i m with
  | zero => cases h
  | succ k ih =>
    rw [copyPixels] at h
    cases hr : inReadN bpp i with
    | stop t' i' =>
      rw [hr] at h
      cases h
      exact inReadN_stop_stream hr
    | bytes p i' =>
      rw [hr] at h
      obtain ⟨a, b, c⟩ := ih h
      rw [a, b, c, inReadN_stream hr]
      exact ⟨rfl, rfl, rfl⟩

/-- With the whole payload there, the pixels are copied byte by byte, those beyond the image dropped, and `IN.POS` moves past
the payload (R133, R136). -/
theorem copyPixels_copied (bpp npix k idx : Nat) {i : InStream} (h : i.pos + k * bpp ≤ i.data.length) (m : Mem) :
    ∃ m', copyPixels bpp npix k idx i m = .copied { i with pos := i.pos + k * bpp } m' ∧
      (m.wf = true → m'.wf = true) ∧
      ∀ x, m'.read x =
        if idx * bpp ≤ x ∧ x < min (idx + k) npix * bpp then i.data[i.pos + (x - idx * bpp)]? else m.read x := by
  induction k generalizing idx i m with
  | zero =>
    refine ⟨m, by simp [copyPixels], id, fun x => ?_⟩
    rw [if_neg]
    rintro ⟨h1, h2⟩
    have : min (idx + 0) npix * bpp ≤ idx * bpp := Nat.mul_le_mul_right bpp (Nat.min_le_left _ _)
    omega
  | succ k ih =>
    have hk : (k + 1) * bpp = k * bpp + bpp := by ring
    rw [hk] at h ⊢
    have hlen : ((i.data.drop i.pos).take bpp).length = bpp := by simp; omega
    rw [copyPixels, inReadN_bytes (by omega)]
    obtain ⟨m', he, hwf, hr⟩ := ih (idx + 1) (i := { i with pos := i.pos + bpp })
      (by simp only [InStream.data_pos]; omega) (putPixel bpp npix idx ((i.data.drop i.pos).take bpp) m)
    refine ⟨m', ?_, fun hm => hwf (putPixel_wf _ _ _ _ hm), fun x => ?_⟩
    · simp only
      rw [he]
      simp only [CopyEnd.copied.injEq, InStream.mk.injEq, true_and, and_true]
      omega
    · rw [hr, read_putPixel _ _ _ hlen]
      simp only [InStream.data_pos]
      rw [show idx + 1 + k = idx + (k + 1) by omega]
      have hsucc : (idx + 1) * bpp = idx * bpp + bpp := by ring
      rw [hsucc]
      by_cases hn : idx < npix
      · have hle : idx * bpp + bpp ≤ min (idx + (k + 1)) npix * bpp := by
          rw [← hsucc]; exact Nat.mul_le_mul_right bpp (by omega)
        simp only [hn, true_and]
        by_cases h1 : idx * bpp + bpp ≤ x ∧ x < min (idx + (k + 1)) npix * bpp
        · rw [if_pos h1, if_pos ⟨by omega, h1.2⟩]
          congr 1; omega
        · rw [if_neg h1]
          by_cases h2 : idx * bpp ≤ x ∧ x < idx * bpp + bpp
          · rw [if_pos h2, if_pos ⟨h2.1, by omega⟩, List.getElem?_take, if_pos (by omega), List.getElem?_drop]
          · rw [if_neg h2, if_neg (by omega)]
      · have hle : min (idx + (k + 1)) npix * bpp ≤ idx * bpp := Nat.mul_le_mul_right bpp (by omega)
        rw [if_neg (by omega), if_neg (by tauto), if_neg (by omega)]

/-- With the payload cut short, the copying stops at the end of the data with the stream's terminator; the memory keeps its
form and every byte beyond the image (R133, R138). -/
theorem copyPixels_stopped (bpp npix k idx : Nat) {i : InStream} (hp : i.pos ≤ i.data.length)
    (h : i.data.length < i.pos + k * bpp) (m : Mem) :
    ∃ m', copyPixels bpp npix k idx i m = .stopped i.term { i with pos := i.data.length } m' ∧
      (m.wf = true → m'.wf = true) ∧ ∀ x, npix * bpp ≤ x → m'.read x = m.read x := by
  induction k generalizing idx i m with
  | zero => simp at h; omega
  | succ k ih =>
    have hk : (k + 1) * bpp = k * bpp + bpp := by ring
    rw [hk] at h
    by_cases hb : i.pos + bpp ≤ i.data.length
    · have hlen : ((i.data.drop i.pos).take bpp).length = bpp := by simp; omega
      rw [copyPixels, inReadN_bytes hb]
      obtain ⟨m', he, hwf, hr⟩ := ih (idx + 1) (i := { i with pos := i.pos + bpp })
        (by simpa only [InStream.data_pos] using hb) (by simp only [InStream.data_pos]; omega)
        (putPixel bpp npix idx ((i.data.drop i.pos).take bpp) m)
      refine ⟨m', by simpa using he, fun hm => hwf (putPixel_wf _ _ _ _ hm), fun x hx => ?_⟩
      rw [hr x hx, read_putPixel _ _ _ hlen, if_neg]
      rintro ⟨h1, -, h3⟩
      have := pixel_below h1 h3
      omega
    · refine ⟨m, ?_, id, fun _ _ => rfl⟩
      rw [copyPixels, inReadN_stop hp (by omega)]

/-! ### How a packet ends -/

@[simp] theorem PacketEnd.settle_completed (s : State) : (PacketEnd.completed s).settle = s := rfl
@[simp] theorem PacketEnd.settle_raised (e : ErrKind) (s : State) : (PacketEnd.raised e s).settle = failDecode e s := rfl

/-- The three ends of a packet whose payload has been read (R131, R135). -/
theorem countPacket_cases (n : Nat) (s : State) :
    (s.cfg.npix < s.dec.count + n ∧
      countPacket n s = .raised .corruptStream (s.withDec { s.dec with count := s.dec.count + n })) ∨
    (s.dec.count + n = s.cfg.npix ∧
      countPacket n s = .completed ((s.withDec { s.dec with count := s.dec.count + n }).setRunState .done)) ∨
    (s.dec.count + n < s.cfg.npix ∧
      countPacket n s = .completed (s.withDec { s.dec with count := s.dec.count + n })) := by
  unfold countPacket
  by_cases h1 : s.cfg.npix < s.dec.count + n
  · exact .inl ⟨h1, by simp [h1]⟩
  · by_cases h2 : s.dec.count + n = s.cfg.npix
    · exact .inr (.inl ⟨h2, by simp [h2]⟩)
    · exact .inr (.inr ⟨by omega, by simp [h1, h2]⟩)

end Sys2Proof.Machine
end

