-- ==== Sys2Proof/Laws/Scan.lean ====
section
/-! SUPPORT. The laws of the encoder's scan: its guard as one bound, the bounds of the run it finds (R103,
R112), and everything it can find (R104 to R108). -/

namespace Sys2Proof.Machine

/-- The guard of the loop says that the run is below its limit (R103, R112). -/
theorem scan_guard_iff {w cur r : Nat} :
    (r < Config.maxChunk ∧ cur % w + r < w) ↔ r < runLimit w cur := by
  unfold runLimit leftInRow; omega

/-- In a row of at least one pixel a run can have at least one (R112). -/
theorem one_le_runLimit {w : Nat} (hw : 1 ≤ w) (cur : Nat) : 1 ≤ runLimit w cur := by
  have := Nat.mod_lt cur hw
  unfold runLimit leftInRow Config.maxChunk; omega

theorem runLimit_le (w cur : Nat) : runLimit w cur ≤ 128 := Nat.min_le_left _ _

/-- The loop keeps the run between 1 and its limit (R112 b, d, e). -/
theorem scanLoop_bounds (pixEq : Nat → Nat → Bool) {w cur : Nat} (fuel : Nat) (m : Mode) {r : Nat} (h1 : 1 ≤ r)
    (h2 : r ≤ runLimit w cur) :
    1 ≤ (scanLoop pixEq w cur fuel m r).2 ∧ (scanLoop pixEq w cur fuel m r).2 ≤ runLimit w cur := by
  induction fuel generalizing m r with
  | zero => exact ⟨h1, h2⟩
  | succ fuel ih =>
    rw [scanLoop]
    by_cases hg : r < Config.maxChunk ∧ cur % w + r < w
    · rw [if_pos hg]
      have hlt := scan_guard_iff.1 hg
      simp only
      by_cases hb : fixMode r (pixEq (cur + r - 1) (cur + r)) m = .literal ∧ pixEq (cur + r - 1) (cur + r) = true
      · rw [if_pos hb]
        have hr : r ≠ 1 := by
          rintro rfl
          simp [fixMode] at hb
        constructor <;> simp only <;> omega
      · rw [if_neg hb]
        split_ifs
        · exact ⟨h1, h2⟩
        · exact ih _ (by omega) (by omega)
    · rw [if_neg hg]; exact ⟨h1, h2⟩

/-- A run has at least one pixel, at most 128, and stays in its row (R112). -/
theorem scanRun_bounds (pixEq : Nat → Nat → Bool) {w : Nat} (hw : 1 ≤ w) (cur : Nat) :
    1 ≤ (scanRun pixEq w cur).2 ∧ (scanRun pixEq w cur).2 ≤ runLimit w cur :=
  scanLoop_bounds pixEq _ _ le_rfl (one_le_runLimit hw cur)

/-! ### Everything the scan can find -/

/-- In repeat mode the loop takes in pixels as long as neighbours are equal, up to its limit (R107, R108). -/
theorem scanLoop_repeating (pixEq : Nat → Nat → Bool) (w cur fuel : Nat) {r : Nat} (h2 : 2 ≤ r)
    (hr : r ≤ runLimit w cur) (hf : runLimit w cur - r ≤ fuel) :
    ∃ r', scanLoop pixEq w cur fuel .repeating r = (.repeating, r') ∧ r ≤ r' ∧ r' ≤ runLimit w cur ∧
      (∀ j, r ≤ j → j < r' → pixEq (cur + j - 1) (cur + j) = true) ∧
      (r' < runLimit w cur → pixEq (cur + r' - 1) (cur + r') = false) := by
  induction fuel generalizing r with
  | zero => exact ⟨r, rfl, le_rfl, hr, fun j _ _ => by omega, fun _ => by omega⟩
  | succ fuel ih =>
    rw [scanLoop]
    by_cases hg : r < runLimit w cur
    · rw [if_pos (scan_guard_iff.2 hg)]
      have hm : ∀ e, fixMode r e .repeating = .repeating := fun e => by rw [fixMode, if_neg (by omega)]
      simp only [hm]
      rw [if_neg (by simp)]
      by_cases he : pixEq (cur + r - 1) (cur + r) = true
      · rw [if_neg (by simp [he])]
        obtain ⟨r', h, hle, hlim, hall, hstop⟩ := ih (r := r + 1) (by omega) (by omega) (by omega)
        refine ⟨r', h, by omega, hlim, fun j hj hj' => ?_, hstop⟩
        rcases Nat.eq_or_lt_of_le hj with rfl | hj
        · exact he
        · exact hall j hj hj'
      · rw [if_pos (by simp at he; simp [he])]
        exact ⟨r, rfl, le_rfl, hr, fun j _ _ => by omega, fun _ => by simpa using he⟩
    · rw [if_neg (by rw [scan_guard_iff]; exact hg)]
      exact ⟨r, rfl, le_rfl, hr, fun j _ _ => by omega, fun _ => by omega⟩

/-- In literal mode the loop takes in pixels as long as neighbours differ, up to its limit, and gives one back at an equal pair
(R106, R108). -/
theorem scanLoop_literal (pixEq : Nat → Nat → Bool) (w cur fuel : Nat) {r : Nat} (h2 : 2 ≤ r)
    (hr : r ≤ runLimit w cur) (hf : runLimit w cur - r ≤ fuel) :
    ∃ r', scanLoop pixEq w cur fuel .literal r = (.literal, r') ∧ r ≤ r' + 1 ∧ r' ≤ runLimit w cur ∧
      (∀ j, r ≤ j + 1 → j < r' → j + 1 < runLimit w cur → pixEq (cur + j) (cur + j + 1) = false) ∧
      (r' < runLimit w cur → r' + 1 < runLimit w cur ∧ pixEq (cur + r') (cur + r' + 1) = true) := by
  induction fuel generalizing r with
  | zero => exact ⟨r, rfl, by omega, hr, fun j _ _ => by omega, fun _ => by omega⟩
  | succ fuel ih =>
    rw [scanLoop]
    by_cases hg : r < runLimit w cur
    · rw [if_pos (scan_guard_iff.2 hg)]
      have hm : ∀ e, fixMode r e .literal = .literal := fun e => by rw [fixMode, if_neg (by omega)]
      simp only [hm]
      have e1 : cur + r - 1 = cur + (r - 1) := by omega
      by_cases he : pixEq (cur + r - 1) (cur + r) = true
      · rw [if_pos (by simp [he])]
        refine ⟨r - 1, rfl, by omega, by omega, fun j hj hj' => by omega, fun _ => ⟨by omega, ?_⟩⟩
        rw [← e1, show cur + r - 1 + 1 = cur + r by omega]; exact he
      · rw [if_neg (by simp [he]), if_neg (by simp)]
        obtain ⟨r', h, hle, hlim, hall, hstop⟩ := ih (r := r + 1) (by omega) (by omega) (by omega)
        refine ⟨r', h, by omega, hlim, fun j hj hj' hl => ?_, hstop⟩
        rcases Nat.eq_or_lt_of_le hj with hj | hj
        · simp only [Bool.not_eq_true] at he
          rw [← he]; congr 1 <;> omega
        · exact hall j hj hj' hl
    · rw [if_neg (by rw [scan_guard_iff]; exact hg)]
      exact ⟨r, rfl, by omega, hr, fun j _ _ => by omega, fun _ => by omega⟩

/-- The scan finds a single pixel where the row leaves no other; a repeat run of at least 2 where the first two are equal, as long
as neighbours stay equal; and a literal run where they differ, up to the pixel before the next equal pair (R103 to R108). -/
theorem scanRun_cases (pixEq : Nat → Nat → Bool) {w : Nat} (hw : 1 ≤ w) (cur : Nat) :
    (runLimit w cur = 1 ∧ scanRun pixEq w cur = (.undet, 1)) ∨
      (2 ≤ runLimit w cur ∧ pixEq cur (cur + 1) = true ∧
        ∃ r, scanRun pixEq w cur = (.repeating, r) ∧ 2 ≤ r ∧ r ≤ runLimit w cur ∧
          (∀ j, 1 ≤ j → j < r → pixEq (cur + j - 1) (cur + j) = true) ∧
          (r < runLimit w cur → pixEq (cur + r - 1) (cur + r) = false)) ∨
      (2 ≤ runLimit w cur ∧ pixEq cur (cur + 1) = false ∧
        ∃ r, scanRun pixEq w cur = (.literal, r) ∧ 1 ≤ r ∧ r ≤ runLimit w cur ∧
          (∀ j, 1 ≤ j → j < r → j + 1 < runLimit w cur → pixEq (cur + j) (cur + j + 1) = false) ∧
          (r < runLimit w cur → r + 1 < runLimit w cur ∧ pixEq (cur + r) (cur + r + 1) = true)) := by
  have h1 := one_le_runLimit hw cur
  have h128 := runLimit_le w cur
  rw [scanRun, show Config.maxChunk = 127 + 1 from rfl, scanLoop]
  rcases Nat.eq_or_lt_of_le h1 with h | h
  · exact .inl ⟨h.symm, by rw [if_neg (by rw [scan_guard_iff]; omega)]⟩
  · right
    rw [if_pos (by rw [scan_guard_iff]; omega)]
    simp only [Nat.add_sub_cancel]
    by_cases he : pixEq cur (cur + 1) = true
    · left
      refine ⟨h, he, ?_⟩
      simp only [he, fixMode]
      obtain ⟨r', e, h2, hlim, hall, hstop⟩ := scanLoop_repeating pixEq w cur 127 le_rfl h (by omega)
      refine ⟨r', by simpa using e, h2, hlim, fun j hj hj' => ?_, hstop⟩
      rcases Nat.eq_or_lt_of_le hj with rfl | hj
      · simpa using he
      · exact hall j hj hj'
    · right
      simp only [Bool.not_eq_true] at he
      refine ⟨h, he, ?_⟩
      simp only [he, fixMode]
      obtain ⟨r', e, h2, hlim, hall, hstop⟩ := scanLoop_literal pixEq w cur 127 le_rfl h (by omega)
      exact ⟨r', by simpa using e, by omega, hlim, fun j hj hj' hl => hall j (by omega) hj' hl, hstop⟩

/-- From a pixel of the image, the rest of its row is in the image (R112 e). -/
theorem runLimit_le_left {w h cur : Nat} (hc : cur < w * h) : cur + runLimit w cur ≤ w * h := by
  have hw : 0 < w := Nat.pos_of_ne_zero (by rintro rfl; simp at hc)
  have hdiv : cur / w < h := Nat.div_lt_of_lt_mul hc
  have hm := Nat.div_add_mod cur w
  have hlt := Nat.mod_lt cur hw
  have : w * (cur / w) + w ≤ w * h := by
    calc w * (cur / w) + w = w * (cur / w + 1) := by ring
      _ ≤ w * h := Nat.mul_le_mul_left w hdiv
  unfold runLimit leftInRow
  omega

end Sys2Proof.Machine
end

