-- ==== Sys2Proof/Laws/Exec.lean ====
section
/-! SUPPORT. What each arm of `exec` answers, what a turn of the machine is, and what the guards of the packet steps say. -/

namespace Sys2Proof.Machine

@[simp] theorem exec_lit (n : Nat) (s : State) : exec (.lit n) s = execLit n s := rfl
@[simp] theorem exec_rep (n : Nat) (s : State) : exec (.rep n) s = execRep n s := rfl
@[simp] theorem exec_encStart (s : State) : exec .encStart s = execEncStart s := rfl
@[simp] theorem exec_decStart (s : State) : exec .decStart s = execDecStart s := rfl

/-- With no move pending a step is the block's own. -/
theorem step_block {s : State} (h : s.host = []) : step s = blockStep s := by
  simp [step, turn, h]

/-- With a move pending a step is that move, taken off the list. -/
theorem step_move {s : State} {m : HostMove} {rest : List HostMove} (h : s.host = m :: rest) :
    step s = hostMove m (s.withHost rest) := by
  simp [step, turn, h]

/-- The precondition of the decoder's step, in words (R139). -/
theorem decReady_iff (s : State) :
    s.decReady = true ↔ s.status.state = .busyDec ∧ s.cfg.legal = true ∧ s.dec.count < s.cfg.npix := by
  simp [State.decReady, and_assoc]

/-- The precondition of the encoder's step, in words (R109). -/
theorem encReady_iff (s : State) :
    s.encReady = true ↔ s.status.state = .busyEnc ∧ s.cfg.legal = true ∧ s.enc.curPix < s.cfg.npix := by
  simp [State.encReady, and_assoc]

/-- Busy is one of the two busy states. -/
theorem busy_iff (s : State) : s.busy = true ↔ s.status.state = .busyEnc ∨ s.status.state = .busyDec := by
  unfold State.busy
  cases s.status.state <;> simp [RunState.busy]

/-- The configuration test of a START command, in words (R201, R202, R209). -/
theorem startError_eq_none_iff (c : Cfg) : c.startError = none ↔ c.legal = true := by
  unfold Cfg.startError Cfg.legal
  cases c.dimsOk <;> cases c.bppOk <;> simp

end Sys2Proof.Machine
end

