-- ==== Sys2Proof/Laws/PerInstr.lean ====
section
/-! SUPPORT. A law stated per instruction: the byte of a well-formed instruction is a byte of its row of the opcode table. -/

namespace Sys2Proof.Laws

/-- The mask of an instruction's row (spec/opcode_table.json). -/
def rowMask : Instr → Byte
  | .lit _ => 0x80#8
  | .rep _ => 0x80#8
  | .encStart => 0xFF#8
  | .decStart => 0xFF#8

/-- The match value of an instruction's row (spec/opcode_table.json). -/
def rowMatch : Instr → Byte
  | .lit _ => 0x00#8
  | .rep _ => 0x80#8
  | .encStart => 0x01#8
  | .decStart => 0x02#8

/-- The encoder's byte lies in the instruction's row. -/
def TableRow.Statement (i : Instr) : Prop := i.wf = true → encodeByte i &&& rowMask i = rowMatch i

theorem TableRow.lit (n : Nat) : TableRow.Statement (.lit n) := by
  intro h
  have key : ∀ k < 128, (BitVec.ofNat 8 k) &&& 0x80#8 = 0x00#8 := by decide
  rw [Instr.wf_lit, countOk_iff] at h
  exact key (n - 1) (by omega)

theorem TableRow.rep (n : Nat) : TableRow.Statement (.rep n) := by
  intro h
  have key : ∀ k < 128, (BitVec.ofNat 8 (128 + k)) &&& 0x80#8 = 0x80#8 := by decide
  rw [Instr.wf_rep, countOk_iff] at h
  exact key (n - 1) (by omega)

theorem TableRow.encStart : TableRow.Statement .encStart := fun _ => by decide

theorem TableRow.decStart : TableRow.Statement .decStart := fun _ => by decide

end Sys2Proof.Laws
end

