-- ==== Sys2Proof/Laws/Steps.lean ====
section
/-! SUPPORT. Everything a packet step of the block can do, said once for the encoder and once for the decoder, and
everything a command can do. -/

namespace Sys2Proof.Machine

/-! ### The encoder -/

/-- The state after a run has been scanned, emitted and counted (R109, R112). -/
theorem advance_scanned (s : State) (o : OutStream) :
    ((s.scanned.withOutput o).advance) =
      { s with
        enc := { curPix := s.enc.curPix + s.run.2, runLen := s.run.2, mode := s.run.1 }
        output := o
        status := { s.status with
          state := if s.enc.curPix + s.run.2 = s.cfg.npix then .done else s.status.state } } := by
  by_cases h : s.enc.curPix + s.run.2 = s.cfg.npix
  · have h' : (s.scanned.withOutput o).enc.curPix + (s.scanned.withOutput o).enc.runLen =
        (s.scanned.withOutput o).cfg.npix := h
    simp only [State.advance, if_pos h', if_pos h]
    rfl
  · have h' : ¬ (s.scanned.withOutput o).enc.curPix + (s.scanned.withOutput o).enc.runLen =
        (s.scanned.withOutput o).cfg.npix := h
    simp only [State.advance, if_neg h', if_neg h]
    rfl

/-- A next state of the encoder's step: the preconditions held, and the packet was written whole and counted, or the output
failed (R109, R113). -/
theorem encPacket_next {s t : State} (h : encPacket s = .next t) :
    s.encReady = true ∧ s.rowWritten = true ∧ ∃ bs, s.packetBytes = some bs ∧
      ((∃ o, outWriteN bs s.output = (.fail, o) ∧ t = failEncode .ioFailure (s.withOutput o)) ∨
        (∃ o, outWriteN bs s.output = (.ok, o) ∧ t = (s.scanned.withOutput o).advance)) := by
  unfold encPacket at h
  cases h1 : s.encReady <;> simp only [h1] at h
  · cases h
  cases h2 : s.rowWritten <;> simp only [h2] at h
  · cases h
  cases h3 : s.packetBytes <;> simp only [h3] at h
  · cases h
  rcases h4 : outWriteN _ s.output with ⟨a, o⟩
  rw [h4] at h
  refine ⟨rfl, rfl, _, rfl, ?_⟩
  cases a <;> cases h
  · exact .inr ⟨o, h4, rfl⟩
  · exact .inl ⟨o, h4, rfl⟩

/-! ### The decoder -/

/-- The errors a stream's answer can raise (R138). -/
theorem Term.errKind_cases (t : Term) : t.errKind = .corruptStream ∨ t.errKind = .ioFailure := by
  cases t
  · exact .inl rfl
  · exact .inr rfl

/-- A next state of a packet instruction: the decode has failed with CorruptStream or IOFailure, or the packet has been counted
within `NPIX` and is DONE exactly there (R131, R133 to R135, R138). -/
theorem execPacket_next {s t : State} {i : Instr} {n : Nat} (hi : i = .lit n ∨ i = .rep n) (h : exec i s = .next t) :
    s.decReady = true ∧
      ((∃ e u, t = failDecode e u ∧ (e = .corruptStream ∨ e = .ioFailure) ∧ s.decodeFrame u ∧ u.draws = s.draws) ∨
        (t.dec.count = s.dec.count + n ∧ s.dec.count + n ≤ s.cfg.npix ∧
          t.status = { s.status with state := if s.dec.count + n = s.cfg.npix then .done else s.status.state } ∧
          s.decodeFrame t ∧ t.draws = s.draws)) := by
  have count : ∀ v : State, v.dec.count = s.dec.count → v.status = s.status → s.decodeFrame v → v.draws = s.draws →
      (∃ e u, (countPacket n v).settle = failDecode e u ∧ (e = .corruptStream ∨ e = .ioFailure) ∧ s.decodeFrame u ∧
          u.draws = s.draws) ∨
        ((countPacket n v).settle.dec.count = s.dec.count + n ∧ s.dec.count + n ≤ s.cfg.npix ∧
          (countPacket n v).settle.status =
            { s.status with state := if s.dec.count + n = s.cfg.npix then .done else s.status.state } ∧
          s.decodeFrame (countPacket n v).settle ∧ (countPacket n v).settle.draws = s.draws) := by
    intro v hc hs hf hd
    rcases countPacket_cases n v with ⟨a, b⟩ | ⟨a, b⟩ | ⟨a, b⟩ <;> rw [b] <;> rw [hf.1, hc] at a
    · exact .inl ⟨_, _, rfl, .inl rfl, hf, hd⟩
    · refine .inr ⟨?_, by omega, ?_, hf, hd⟩
      · simp [hc]
      · simp [a, hs]
    · refine .inr ⟨?_, by omega, ?_, hf, hd⟩
      · simp [hc]
      · simp [Nat.ne_of_lt a, hs]
  rcases hi with rfl | rfl
  · rw [exec_lit, execLit] at h
    cases hr : s.decReady <;> rw [hr] at h <;> cases h
    refine ⟨rfl, ?_⟩
    rw [literalPacket]
    cases hcp : copyPixels s.cfg.bytesPerPixel s.cfg.npix n s.dec.count s.input s.pixbuf with
    | stopped t i m =>
      have : i.content = s.input.content ∧ i.point = s.input.point ∧ i.term = s.input.term :=
        copyPixels_stopped_stream hcp
      exact .inl ⟨_, _, rfl, t.errKind_cases, ⟨rfl, rfl, rfl, this.1, this.2.1, this.2.2, rfl, rfl⟩, rfl⟩
    | copied i m =>
      have hstream := copyPixels_stream _ _ _ _ _ _ _ _ hcp
      have hc : i.content = s.input.content := by rw [hstream]
      have hp : i.point = s.input.point := by rw [hstream]
      have ht : i.term = s.input.term := by rw [hstream]
      exact count _ rfl rfl ⟨rfl, rfl, rfl, hc, hp, ht, rfl, rfl⟩ rfl
  · rw [exec_rep, execRep] at h
    cases hr : s.decReady <;> rw [hr] at h <;> cases h
    refine ⟨rfl, ?_⟩
    rw [repeatPacket]
    cases hcp : inReadN s.cfg.bytesPerPixel s.input with
    | stop t i =>
      have : i.content = s.input.content ∧ i.point = s.input.point ∧ i.term = s.input.term :=
        inReadN_stop_stream hcp
      exact .inl ⟨_, _, rfl, t.errKind_cases, ⟨rfl, rfl, rfl, this.1, this.2.1, this.2.2, rfl, rfl⟩, rfl⟩
    | bytes p i =>
      have hstream := inReadN_stream hcp
      have hc : i.content = s.input.content := by rw [hstream]
      have hp : i.point = s.input.point := by rw [hstream]
      have ht : i.term = s.input.term := by rw [hstream]
      exact count _ rfl rfl ⟨rfl, rfl, rfl, hc, hp, ht, rfl, rfl⟩ rfl

/-- A header byte opens a literal or a repeat of its own count (R82). -/
theorem decodeHeader_cases (b : Byte) : decodeHeader b = .lit (headerCount b) ∨ decodeHeader b = .rep (headerCount b) := by
  unfold decodeHeader
  split_ifs <;> simp

/-- A next state of the decoder's step: the preconditions held, and the packet of the byte at `IN.POS` ran on the state that has
taken it, or there was no byte and the decode failed (R132, R138, R139). -/
theorem decPacket_next {s t : State} (h : decPacket s = .next t) :
    s.decReady = true ∧
      ((∃ b, s.input.data[s.input.pos]? = some b ∧
          exec (decodeHeader b)
            ((s.withInput { s.input with pos := s.input.pos + 1 }).withDec { s.dec with h := b }) = .next t) ∨
        (s.input.data[s.input.pos]? = none ∧ t = failDecode s.input.term.errKind s)) := by
  unfold decPacket at h
  cases h1 : s.decReady <;> simp only [h1] at h
  · cases h
  refine ⟨rfl, ?_⟩
  simp only [fetchPacket, inRead] at h
  cases hb : s.input.data[s.input.pos]? with
  | none => simp only [hb] at h; cases h; exact .inr ⟨rfl, rfl⟩
  | some b => simp only [hb] at h; exact .inl ⟨b, rfl, h⟩

/-! ### The commands -/

/-- A next state of `ENC_START`: ignored, an error of the configuration, or the start over a written image (R100). -/
theorem encStart_next {s t : State} (h : exec .encStart s = .next t) :
    (s.busy = true ∧ t = s) ∨ (s.busy = false ∧ ∃ e, s.cfg.startError = some e ∧ t = raiseError e s) ∨
      (s.busy = false ∧ s.cfg.legal = true ∧ s.pixbuf.written 0 s.cfg.nbytes = true ∧
        t = (s.withEnc { s.enc with curPix := 0 }).withStatus { state := .busyEnc, err := .noError }) := by
  rw [exec_encStart, execEncStart] at h
  cases hb : s.busy <;> simp only [hb] at h
  · cases he : s.cfg.startError with
    | some e => simp only [he] at h; cases h; exact .inr (.inl ⟨rfl, e, rfl, rfl⟩)
    | none =>
      simp only [he] at h
      cases hw : s.pixbuf.written 0 s.cfg.nbytes <;> simp only [hw] at h <;> cases h
      exact .inr (.inr ⟨rfl, (startError_eq_none_iff _).1 he, rfl, rfl⟩)
  · cases h; exact .inl ⟨rfl, rfl⟩

/-- A next state of `DEC_START`: ignored, an error of the configuration, or the start (R130). -/
theorem decStart_next {s t : State} (h : exec .decStart s = .next t) :
    (s.busy = true ∧ t = s) ∨ (s.busy = false ∧ ∃ e, s.cfg.startError = some e ∧ t = raiseError e s) ∨
      (s.busy = false ∧ s.cfg.legal = true ∧
        t = ((s.withDec { s.dec with count := 0 }).withInput s.input.restart).withStatus
          { state := .busyDec, err := .noError }) := by
  rw [exec_decStart, execDecStart] at h
  cases hb : s.busy <;> simp only [hb] at h
  · cases he : s.cfg.startError with
    | some e => simp only [he] at h; cases h; exact .inr (.inl ⟨rfl, e, rfl, rfl⟩)
    | none =>
      simp only [he] at h; cases h
      exact .inr (.inr ⟨rfl, (startError_eq_none_iff _).1 he, rfl⟩)
  · cases h; exact .inl ⟨rfl, rfl⟩

/-- What a write to `CMD` that goes on can be: a command of its value, or nothing (R24, R90, R91). -/
theorem writeCommand_next {v : Byte} {s t : State} (h : writeCommand v s = .next t) :
    (v = 0x01#8 ∧ exec .encStart s = .next t) ∨ (v = 0x02#8 ∧ exec .decStart s = .next t) ∨ t = s := by
  unfold writeCommand decodeCommand at h
  split_ifs at h with h1 h2
  · exact .inl ⟨h1, h⟩
  · exact .inr (.inl ⟨h2, h⟩)
  · cases h; exact .inr (.inr rfl)

end Sys2Proof.Machine
end

