-- ==== Sys2Proof/Tests/Slice0.lean ====
section
/-! SUPPORT. The model's own tests: ill-formed terms refused, decode words written out from the spec's tables, single steps
from the spec's vectors (95_test_vectors.md), and a witness for the hypotheses of every statement that has some. -/

namespace Sys2Proof.Tests

open Sys2Proof Sys2Proof.Machine Sys2Proof.Codec

/-! ### WellFormed refuses ill-formed terms (R82, R80) -/

theorem test_wf_lit_bounds : (Instr.lit 0).wf = false ∧ (Instr.lit 129).wf = false ∧ (Instr.lit 128).wf = true := by decide

theorem test_wf_rep_bounds : (Instr.rep 0).wf = false ∧ (Instr.rep 129).wf = false ∧ (Instr.rep 1).wf = true := by decide

theorem test_wf_packet_count : (Packet.lit []).wf 1 = false ∧ (Packet.rep 0 [7]).wf 1 = false := by decide

theorem test_wf_packet_pixel_size : (Packet.lit [[1, 2]]).wf 3 = false ∧ (Packet.rep 2 [1]).wf 3 = false := by decide

/-! ### Words written out from the encoding tables (R81, R90) -/

/-- `T` = 0, `C` = 42 (vector E3). -/
theorem test_decode_lit : decode .packet [0b00101010#8] = .ok (.lit 43, []) := by decide

/-- `T` = 1, `C` = 43 (vector E7). -/
theorem test_decode_rep : decode .packet [0b10101011#8] = .ok (.rep 44, []) := by decide

theorem test_decode_enc_start : decode .command [0b00000001#8] = .ok (.encStart, []) := by decide

theorem test_decode_dec_start : decode .command [0b00000010#8] = .ok (.decStart, []) := by decide

/-- The reserved values of vector K8. -/
theorem test_decode_reserved :
    decode .command [0b00000000#8] = .error (.reservedCommand 0x00#8) ∧
      decode .command [0b10000000#8] = .error (.reservedCommand 0x80#8) := by decide

theorem test_decode_no_byte : decode .packet [] = .error .noByte := by decide

/-- The four rows of the table by their match words. -/
theorem test_table_words :
    decodeTableWord 8 0x00 = some (.lit 1) ∧ decodeTableWord 8 0x80 = some (.rep 1) ∧
      decodeTableWord 8 0x01 = some .encStart ∧ decodeTableWord 8 0x02 = some .decStart := by decide

/-- The same seven bytes under pixel sizes 3 and 4 (vector E10). -/
theorem test_decode_packet_pixel_size :
    decodePacket 3 [1, 1, 2, 3, 4, 5, 6] = some (.lit [[1, 2, 3], [4, 5, 6]], []) ∧
      decodePacket 4 [1, 1, 2, 3, 4, 5, 6] = none := by decide

/-! ### States for the tests -/

/-- What one step left, seen through a function. -/
def after {α : Type} (f : State → α) (r : Result) : Option α :=
  match r with
  | .next s => some (f s)
  | .fault _ => none
  | .refused _ => none

/-- A configuration. -/
def cfg (w h : Nat) (bpp : Byte) : Cfg := { width := BitVec.ofNat 16 w, height := BitVec.ofNat 16 h, bpp := bpp }

/-- A block with a configuration and bytes in `PIXBUF`. -/
def idle (c : Cfg) (m : Mem) : State := (State.reset.withCfg c).withPixbuf m

/-- A running decode over a stream, `count` pixels done. -/
def decoding (c : Cfg) (data : List Byte) (term : Term) (pos count : Nat) : State :=
  (((State.reset.withCfg c).withStatus { state := .busyDec, err := .noError }).withInput
    { content := data, point := 0, term := term, pos := pos }).withDec { DecRegs.reset with count := count }

/-- A running encode at a pixel. -/
def encoding (c : Cfg) (m : Mem) (out : OutStream) (curPix : Nat) : State :=
  (((idle c m).withStatus { state := .busyEnc, err := .noError }).withOutput out).withEnc
    { EncRegs.reset with curPix := curPix }

/-- The row of vector V4. -/
def rowV4 : Mem := [(0, 0x01), (1, 0x02), (2, 0x03), (3, 0x03)]

/-! ### One step of each instruction -/

/-- Vector S1: a repeat run of two red pixels. -/
theorem test_enc_packet_repeat :
    after (fun s => (s.output.data, s.enc.curPix, s.status.byte))
      (step (encoding (cfg 2 1 3) [(0, 0), (1, 0), (2, 0xFF), (3, 0), (4, 0), (5, 0xFF)]
        { data := [], failAt := none } 0)) = some ([0x81, 0x00, 0x00, 0xFF], 2, 0x03) := by decide

/-- Vector V4, first packet: the literal gives one pixel back. -/
theorem test_enc_packet_back_off :
    after (fun s => (s.output.data, s.enc.curPix, s.status.byte))
      (step (encoding (cfg 4 1 1) rowV4 { data := [], failAt := none } 0)) =
        some ([0x01, 0x01, 0x02], 2, 0x01) := by decide

/-- Vector F5, second packet: the write that passes the failure point. -/
theorem test_enc_packet_output_failure :
    after (fun s => (s.output.data, s.status.byte))
      (step (encoding (cfg 4 1 1) rowV4 { data := [0xAA, 0xBB, 1, 1, 2], failAt := some 5 } 2)) =
        some ([0xAA, 0xBB, 1, 1, 2], 0x54) := by decide

/-- Vector X1, second packet: a literal across a row boundary, ending the decode. -/
theorem test_lit_step :
    after (fun s => (s.pixbuf, s.input.pos, s.dec.count, s.status.byte))
      (step (decoding (cfg 4 2 1) [0x82, 0x11, 0x04, 0x21, 0x22, 0x23, 0x24, 0x25] .endOfStream 2 3)) =
        some ([(3, 0x21), (4, 0x22), (5, 0x23), (6, 0x24), (7, 0x25)], 8, 8, 0x03) := by decide

/-- Vector X17: an overrunning literal cut short by a failing stream. -/
theorem test_lit_cut_short :
    after (fun s => s.status.byte) (step (decoding (cfg 2 1 1) [0x02, 0x01, 0x02] .failure 0 0)) = some 0x54 := by decide

/-- Vector X1, first packet. -/
theorem test_rep_step :
    after (fun s => (s.pixbuf, s.input.pos, s.dec, s.status.byte))
      (step (decoding (cfg 4 2 1) [0x82, 0x11, 0x04, 0x21, 0x22, 0x23, 0x24, 0x25] .endOfStream 0 0)) =
        some ([(0, 0x11), (1, 0x11), (2, 0x11)], 2, { count := 3, h := 0x82, pixLatch := [0x11] }, 0x02) := by decide

/-- Vector X4: an overrunning repeat. -/
theorem test_rep_overrun :
    after (fun s => s.status.byte) (step (decoding (cfg 2 1 1) [0x82, 0x55] .endOfStream 0 0)) = some 0x44 := by decide

/-- Vector K1: a start right after reset. -/
theorem test_enc_start_unconfigured :
    after (fun s => s.status.byte) (step (State.reset.withHost [.writeCmd 0x01])) = some 0x14 := by decide

/-- Vector K12: a start from ERROR. -/
theorem test_enc_start_from_error :
    after (fun s => (s.status.byte, s.enc.curPix))
      (step (((idle (cfg 4 1 1) rowV4).withStatus { state := .error, err := .corruptStream }).withHost
        [.writeCmd 0x01])) = some (0x01, 0) := by decide

/-- Vector K6: the size test comes first. -/
theorem test_dec_start_size_first :
    after (fun s => s.status.byte) (step ((idle (cfg 0 1 2) []).withHost [.writeCmd 0x02])) = some 0x14 := by decide

/-- Vector K7: the largest configuration. -/
theorem test_dec_start_largest :
    after (fun s => (s.status.byte, s.cfg.npix, s.cfg.nbytes))
      (step ((idle (cfg 32767 32767 4) []).withHost [.writeCmd 0x02])) =
        some (0x02, 1073676289, 4294705156) := by decide

/-- Vector K10: a configuration write during a decode is lost. -/
theorem test_config_write_while_busy :
    after (fun s => s.cfg.width)
      (step ((decoding (cfg 4 1 1) [] .endOfStream 0 0).withHost [.writeWidth 9])) = some 4 := by decide

/-- R235: a host read of `PIXBUF` during an operation. -/
theorem test_host_touch_while_busy :
    step ((encoding (cfg 4 1 1) rowV4 { data := [], failAt := none } 0).withHost [.readPix 0]) =
      .refused .hostTouchedDuringOperation := rfl

/-- One instruction of each row, placed and run as the first step after reset. -/
theorem test_placed_words_run :
    after (fun s => s.status.byte) (step (State.reset.withFetchWord 8 0x01)) = some 0x14 ∧
      after (fun s => s.status.byte) (step (State.reset.withFetchWord 8 0x02)) = some 0x14 ∧
      after (fun s => s.dec.count) (step (State.reset.withFetchWord 8 0x00)) = some 1 ∧
      after (fun s => s.dec.count) (step (State.reset.withFetchWord 8 0x84)) = some 5 := by decide

/-! ### The host context -/

/-- Vector S2: the 19 bytes of a 1 by 1 grey image, uncompressed. -/
theorem test_save_raw :
    saveFile false { width := 1, height := 1, format := .grayscale, bytes := [0x80] } =
      [0, 0, 3, 0, 0, 0, 0, 0, 0, 0, 0, 0, 1, 0, 1, 0, 8, 0x20, 0x80] := by decide

/-- Vector S1: the 22 bytes of a 2 by 1 red image with RLE. -/
theorem test_save_rle :
    saveFile true { width := 2, height := 1, format := .rgb, bytes := [0, 0, 0xFF, 0, 0, 0xFF] } =
      [0, 0, 10, 0, 0, 0, 0, 0, 0, 0, 0, 0, 2, 0, 1, 0, 24, 0x20, 0x81, 0, 0, 0xFF] := by decide

/-- R184: the header itself meets the failure point; the partial output stays (R183). -/
theorem test_save_failing_output :
    save false { width := 1, height := 1, format := .grayscale, bytes := [0x80] } { data := [0xAA], failAt := some 4 } =
      .failed .ioFailure { data := [0xAA, 0, 0, 3], failAt := some 4 } := by decide

/-- R161: half of 200 is 100; a clamped factor keeps a channel; alpha stays. -/
theorem test_scale :
    ((Color.mk 0x07C80401 .rgba).scale (1 / 2)).index 1 = 100#8 ∧
      ((Color.mk 0x07C80401 .rgba).scale 2).index 1 = 200#8 ∧ ((Color.mk 0x07C80401 .rgba).scale 0).index 3 = 1#8 := by
  have hc : ((Color.mk 0x07C80401 .rgba).index 1).toNat = 200 := by decide
  refine ⟨?_, ?_, (scale_index _ _).2⟩
  · rw [(scale_index _ _).1 1 (by decide), hc, clampFactor_of_mem (by norm_num) (by norm_num),
      show ((200 : Nat) : Rat) * (1 / 2) = (100 : Nat) by norm_num, channelByte_natCast]
  · rw [(scale_index _ _).1 1 (by decide), hc, clampFactor_of_one_le (by norm_num), mul_one, channelByte_natCast]

/-- Vector T3. -/
theorem test_flip :
    verticalFlip { width := 2, height := 3, format := .grayscale, bytes := [1, 2, 3, 4, 5, 6] } =
      { width := 2, height := 3, format := .grayscale, bytes := [5, 6, 3, 4, 1, 2] } := by decide

/-- Vector T6. -/
theorem test_load_zero_width :
    load [0, 0, 3, 0, 0, 0, 0, 0, 0, 0, 0, 0, 0, 0, 1, 0, 8, 0x20, 0x80] .endOfStream =
      .error (.failed .invalidDimensions) := by decide

/-! ### Witnesses: each hypothesis set is met -/

/-- A running decode of vector X1 at its second packet. -/
def sLit : State := decoding (cfg 4 2 1) [0x82, 0x11, 0x04, 0x21, 0x22, 0x23, 0x24, 0x25] .endOfStream 3 3

/-- A running decode at the start of vector X1. -/
def sDec : State := decoding (cfg 4 2 1) [0x82, 0x11, 0x04, 0x21, 0x22, 0x23, 0x24, 0x25] .endOfStream 0 0

/-- A running encode at the start of vector V4. -/
def sEnc : State := encoding (cfg 4 1 1) rowV4 { data := [], failAt := none } 0

/-- A red 2 by 1 buffer (vector S1). -/
def red : PixelBuffer := { width := 2, height := 1, format := .rgb, bytes := [0, 0, 0xFF, 0, 0, 0xFF] }

theorem witness_DecodeOfEncodeIsIdentity :
    (Instr.lit 1).wf = true ∧ (Instr.lit 128).wf = true ∧ (Instr.rep 1).wf = true ∧ (Instr.rep 128).wf = true ∧
      Instr.encStart.wf = true ∧ Instr.decStart.wf = true := by decide

theorem witness_HeaderGivesKindAndCount :
    (0x7F#8).toNat < 128 ∧ decodeHeader 0x7F#8 = .lit 128 ∧ 128 ≤ (0x80#8).toNat ∧ decodeHeader 0x80#8 = .rep 1 := by
  decide

theorem witness_HeaderByteOfARun :
    encodeByte (.lit 1) = 0x00#8 ∧ encodeByte (.lit 128) = 0x7F#8 ∧ encodeByte (.rep 1) = 0x80#8 ∧
      encodeByte (.rep 128) = 0xFF#8 := by decide

theorem witness_PacketReadBackFromItsBytes :
    (Packet.lit [[1, 2, 3], [4, 5, 6]]).wf 3 = true ∧ (Packet.rep 128 [0x3C]).wf 1 = true := by decide

theorem witness_InReadAnswersNextByteOrTerminator :
    sLit.input.data[7]? = some 0x25 ∧ sLit.input.data[8]? = none ∧ sLit.input.data.length ≤ 8 := by decide

theorem witness_OutWriteAppendsOrFails :
    ([0xAA, 0xBB] : List Byte).length + 1 ≤ 3 ∧ 2 < ([0xAA, 0xBB] : List Byte).length + 1 := by decide

theorem witness_MemWriteStoresExactlyItsBytes :
    Mem.wf rowV4 = true ∧ Mem.read (Mem.writeN 1 [7, 8] rowV4) 0 = some 1 ∧
      Mem.read (Mem.writeN 1 [7, 8] rowV4) 1 = some 7 ∧ Mem.read (Mem.writeN 1 [7, 8] rowV4) 2 = some 8 ∧
      Mem.read (Mem.writeN 1 [7, 8] rowV4) 3 = some 3 := by decide

theorem witness_ResetInputSetsRegisters :
    (State.reset.withHost [.reset]).host = .reset :: [] ∧ (State.reset.withHost [.reset]).busy = false := by decide

theorem witness_ResetDuringOperationAbandonsIt :
    (sDec.withHost [.reset]).host = .reset :: [] ∧ (sDec.withHost [.reset]).status.state = .busyDec ∧
      (sEnc.withHost [.reset]).host = .reset :: [] ∧ (sEnc.withHost [.reset]).status.state = .busyEnc := by decide

theorem witness_ConfigWriteStoresUnlessBusy :
    (sDec.withHost [.writeWidth 9]).host = .writeWidth 9 :: [] ∧
      (sDec.withHost [.writeHeight 9]).host = .writeHeight 9 :: [] ∧
      (State.reset.withHost [.writeBpp 3]).host = .writeBpp 3 :: [] := by decide

theorem witness_RegisterReadAnswers :
    (sDec.withHost [.readReg .status]).host = .readReg .status :: [] ∧
      after (fun s => s.lastRead) (step (sDec.withHost [.readReg .status])) = some (some (.reg8 0x02)) ∧
      after (fun s => s.lastRead) (step (sDec.withHost [.readReg .cmd])) = some (some (.reg8 0)) := by decide

theorem witness_ReservedOrBusyCommandChangesNothing :
    (State.reset.withHost [.writeCmd 0x03]).host = .writeCmd 0x03 :: [] ∧ (0x03#8 ≠ 0x01#8 ∧ 0x03#8 ≠ 0x02#8) ∧
      (sEnc.withHost [.writeCmd 0x01]).host = .writeCmd 0x01 :: [] ∧
      (sEnc.withHost [.writeCmd 0x01]).busy = true := by decide

theorem witness_StatusRegisterReadsItsFields :
    (State.reset.withHost [.writeStatus 0xFF]).host = .writeStatus 0xFF :: [] ∧
      (sDec.withHost [.readReg .status]).host = .readReg .status :: [] := by decide

theorem witness_StepRunsThePacketFetched :
    sDec.host = [] ∧ sDec.status.state = .busyDec ∧ sDec.cfg.legal = true ∧ sDec.dec.count < sDec.cfg.npix ∧
      sDec.input.data.drop sDec.input.pos = 0x82 :: [0x11, 0x04, 0x21, 0x22, 0x23, 0x24, 0x25] ∧
      decode .packet (0x82 :: [0x11, 0x04, 0x21, 0x22, 0x23, 0x24, 0x25]) =
        .ok (.rep 3, [0x11, 0x04, 0x21, 0x22, 0x23, 0x24, 0x25]) := by decide

theorem witness_StepRunsTheCommandWritten :
    (State.reset.withHost [.writeCmd 0x02]).host = .writeCmd 0x02 :: [] ∧
      decode .command [0x02] = .ok (.decStart, []) := by decide

theorem witness_WaitLeavesTheStepToTheBlock :
    (sDec.withHost [.wait, .readReg .status]).host = HostMove.wait :: [.readReg .status] ∧
      after (fun t => (t.dec.count, t.host)) (step (sDec.withHost [.wait, .readReg .status])) =
        some (3, [.readReg .status]) := by decide

theorem witness_IdleBlockKeepsAllState : State.reset.host = [] ∧ State.reset.busy = false := by decide

/-- Busy; each illegal size; each illegal format; accepted over a written image. -/
theorem witness_EncStartEffect :
    sEnc.busy = true ∧
      ((idle (cfg 0 1 2) []).busy = false ∧ ¬ (1 ≤ (cfg 0 1 2).width.toInt ∧ 1 ≤ (cfg 0 1 2).height.toInt)) ∧
      ¬ (1 ≤ (cfg 0x8000 1 1).width.toInt ∧ 1 ≤ (cfg 0x8000 1 1).height.toInt) ∧
      (1 ≤ (cfg 1 0x7FFF 2).width.toInt ∧ 1 ≤ (cfg 1 0x7FFF 2).height.toInt ∧
        ((cfg 1 0x7FFF 2).bpp ≠ 1#8 ∧ (cfg 1 0x7FFF 2).bpp ≠ 3#8 ∧ (cfg 1 0x7FFF 2).bpp ≠ 4#8)) ∧
      ((idle (cfg 4 1 1) rowV4).busy = false ∧ 1 ≤ (cfg 4 1 1).width.toInt ∧ 1 ≤ (cfg 4 1 1).height.toInt ∧
        ((cfg 4 1 1).bpp = 1#8 ∨ (cfg 4 1 1).bpp = 3#8 ∨ (cfg 4 1 1).bpp = 4#8) ∧
        ∀ a < (cfg 4 1 1).nbytes, (Mem.read rowV4 a).isSome = true) := by decide

theorem witness_EncStartRefusesUnwrittenImage :
    (idle (cfg 5 1 1) rowV4).busy = false ∧ (cfg 5 1 1).legal = true ∧ 4 < (cfg 5 1 1).nbytes ∧
      Mem.read rowV4 4 = none := by decide

theorem witness_DecStartEffect :
    sDec.busy = true ∧
      ((idle (cfg 5 0xFFFF 3) []).busy = false ∧
        ¬ (1 ≤ (cfg 5 0xFFFF 3).width.toInt ∧ 1 ≤ (cfg 5 0xFFFF 3).height.toInt)) ∧
      (1 ≤ (cfg 1 1 0).width.toInt ∧ 1 ≤ (cfg 1 1 0).height.toInt ∧
        ((cfg 1 1 0).bpp ≠ 1#8 ∧ (cfg 1 1 0).bpp ≠ 3#8 ∧ (cfg 1 1 0).bpp ≠ 4#8)) ∧
      (1 ≤ (cfg 0x7FFF 0x7FFF 4).width.toInt ∧ 1 ≤ (cfg 0x7FFF 0x7FFF 4).height.toInt ∧
        ((cfg 0x7FFF 0x7FFF 4).bpp = 1#8 ∨ (cfg 0x7FFF 0x7FFF 4).bpp = 3#8 ∨ (cfg 0x7FFF 0x7FFF 4).bpp = 4#8)) := by
  decide

theorem witness_LiteralPacketCopiesPixels :
    (Instr.lit 5).wf = true ∧ sLit.status.state = .busyDec ∧ sLit.cfg.legal = true ∧ sLit.dec.count < sLit.cfg.npix ∧
      sLit.input.pos + 5 * sLit.cfg.bytesPerPixel ≤ sLit.input.data.length ∧ sLit.dec.count + 5 ≤ sLit.cfg.npix := by
  decide

theorem witness_RepeatPacketReplicatesPixel :
    (Instr.rep 3).wf = true ∧ sDec.status.state = .busyDec ∧ sDec.cfg.legal = true ∧ sDec.dec.count < sDec.cfg.npix ∧
      sDec.input.pos + sDec.cfg.bytesPerPixel ≤ sDec.input.data.length ∧ sDec.dec.count + 3 ≤ sDec.cfg.npix := by decide

/-- Vector X4 with its header byte taken. -/
theorem witness_OverrunRaisesCorruptStream :
    let s := decoding (cfg 2 1 1) [0x82, 0x55] .endOfStream 1 0
    (Instr.rep 3).wf = true ∧ s.status.state = .busyDec ∧ s.cfg.legal = true ∧ s.dec.count < s.cfg.npix ∧
      s.input.pos + payloadLength s.cfg.bytesPerPixel (.rep 3) ≤ s.input.data.length ∧
      s.cfg.npix < s.dec.count + 3 := by decide

/-- Vectors X8 and X16, and X13 and X17 with the header byte taken, one for each terminator. -/
theorem witness_StreamAnswersStopTheDecode (term : Term) :
    (let s := decoding (cfg 1 1 1) [] term 0 0
    s.host = [] ∧ s.status.state = .busyDec ∧ s.cfg.legal = true ∧ s.dec.count < s.cfg.npix ∧
      s.input.pos = s.input.data.length) ∧
    (let s := decoding (cfg 2 1 1) [0x02, 0x01, 0x02] term 1 0
    (Instr.lit 3).wf = true ∧ s.status.state = .busyDec ∧ s.cfg.legal = true ∧ s.dec.count < s.cfg.npix ∧
      s.input.pos ≤ s.input.data.length ∧
      s.input.data.length < s.input.pos + payloadLength s.cfg.bytesPerPixel (.lit 3)) := by
  cases term <;> decide

theorem witness_PacketOutsideDecodeStops :
    ¬ (State.reset.status.state = .busyDec ∧ State.reset.cfg.legal = true ∧
      State.reset.dec.count < State.reset.cfg.npix) := by decide

theorem witness_DecoderIgnoresPixbufContents :
    sDec.host = [] ∧ sDec.status.state = .busyDec ∧ ∃ t, step sDec = .next t := ⟨rfl, rfl, _, rfl⟩

/-- The configurations of vectors X21 and X22. -/
theorem witness_DecoderIgnoresRows :
    sDec.host = [] ∧ sDec.status.state = .busyDec ∧ (cfg 2 4 1).legal = sDec.cfg.legal ∧
      (cfg 2 4 1).npix = sDec.cfg.npix ∧ (cfg 2 4 1).bpp = sDec.cfg.bpp ∧ ∃ t, step sDec = .next t :=
  ⟨rfl, rfl, by decide, by decide, rfl, _, rfl⟩

theorem witness_RunStaysInItsRow : sEnc.cfg.legal = true ∧ sEnc.enc.curPix < sEnc.cfg.npix := by decide

/-- Both ends of both ranges: vectors V1, V26, V24 and V23, the last two by their scans. -/
theorem witness_EncoderEmitsEveryHeaderButRepeatOfOne :
    (encodeImage 1 1 1 [0x80]).head? = some 0x00#8 ∧ (encodeImage 2 1 1 [3, 3]).head? = some 0x81#8 ∧
      encodeByte (runInstr (scanRun (fun _ _ => false) 128 0)) = 0x7F#8 ∧
      encodeByte (runInstr (scanRun (fun _ _ => true) 128 0)) = 0xFF#8 ∧
      (scanRun (fun _ _ => true) 2 0).1 = .repeating ∧ (scanRun (fun _ _ => true) 1 0).2 = 1 := by
  have hlim : runLimit 128 0 = 128 := by decide
  refine ⟨by decide, by decide, ?_, ?_, by decide, by decide⟩
  · rcases scanRun_cases (fun _ _ => false) (w := 128) (by decide) 0 with h | h | ⟨-, -, r, e, -, hr, -, hs⟩
    · exact absurd h.1 (by decide)
    · exact absurd h.2.1 (by decide)
    · rw [e, show r = 128 from Nat.le_antisymm (hlim ▸ hr) (Nat.not_lt.1 fun h => absurd (hs (hlim ▸ h)).2 (by decide))]
      decide
  · rcases scanRun_cases (fun _ _ => true) (w := 128) (by decide) 0 with h | ⟨-, -, r, e, -, hr, -, hs⟩ | h
    · exact absurd h.1 (by decide)
    · rw [e, show r = 128 from Nat.le_antisymm (hlim ▸ hr) (Nat.not_lt.1 fun h => absurd (hs (hlim ▸ h)) (by decide))]
      decide
    · exact absurd h.2.1 (by decide)

theorem witness_EncoderStepEmitsThePacket :
    sEnc.host = [] ∧ sEnc.status.state = .busyEnc ∧ sEnc.cfg.legal = true ∧ sEnc.enc.curPix < sEnc.cfg.npix ∧
      sEnc.pixbuf.readN 0 sEnc.cfg.nbytes = some [1, 2, 3, 3] ∧ sEnc.output.failAt = none := by decide

/-- Vector F2. -/
theorem witness_FailingOutputRaisesIOFailure :
    let s := encoding (cfg 4 1 1) rowV4 { data := [], failAt := some 2 } 0
    s.host = [] ∧ s.status.state = .busyEnc ∧ s.cfg.legal = true ∧ s.enc.curPix < s.cfg.npix ∧
      s.pixbuf.written 0 s.cfg.nbytes = true ∧ s.packetBytes = some [1, 1, 2] ∧ s.output.failAt = some 2 ∧
      2 < s.output.data.length + 3 := by decide

theorem witness_PacketStepsProgressToNpix :
    sEnc.host = [] ∧ sEnc.status.state = .busyEnc ∧
      after (fun t => decide (t.status.state ≠ .error)) (step sEnc) = some true ∧
      sDec.host = [] ∧ sDec.status.state = .busyDec ∧ sDec.input.data[sDec.input.pos]? = some 0x82 ∧
      after (fun t => decide (t.status.state ≠ .error)) (step sDec) = some true := by decide

/-- Vector F4: the failure point is the end of the encoding. -/
theorem witness_EncodeRunReachesDone :
    let s := encoding (cfg 4 1 1) rowV4 { data := [], failAt := some 5 } 0
    s.host = [] ∧ s.status = { state := .busyEnc, err := .noError } ∧ s.cfg.legal = true ∧ s.enc.curPix = 0 ∧
      s.pixbuf.readN 0 s.cfg.nbytes = some [1, 2, 3, 3] ∧
      s.output.data.length + (encodeImage s.cfg.w s.cfg.hgt s.cfg.bytesPerPixel [1, 2, 3, 3]).length ≤ 5 := by decide

theorem witness_EncodingLengthBounds :
    1 ≤ 4 ∧ 1 ≤ 1 ∧ ([1, 2, 3, 3] : List Byte).length = 4 * 1 * 1 ∧
      encodeImage 4 1 1 [1, 2, 3, 3] = [1, 1, 2, 0x81, 3] := by decide

/-- Vector V8. -/
theorem witness_EncodingIsRowByRow :
    1 ≤ 4 ∧ 1 ≤ 1 ∧ ([9, 9, 9, 9, 9, 9, 9, 9] : List Byte).length = 4 * 2 * 1 ∧
      encodeImage 4 2 1 [9, 9, 9, 9, 9, 9, 9, 9] = [0x83, 9, 0x83, 9] := by decide

theorem witness_DecodeRunAgreesWithDecode :
    sDec.host = [] ∧ sDec.status = { state := .busyDec, err := .noError } ∧ sDec.cfg.legal = true ∧
      sDec.dec.count = 0 ∧ sDec.input.pos = 0 := by decide

/-- Vector X9: two bytes are left over. -/
theorem witness_AcceptedStreamsAreWholePackets :
    decodeImage 1 1 1 [0x00, 0x80, 0xDE, 0xAD] .endOfStream = .ok [0x80] 2 ∧
      [0x00, 0x80, 0xDE, 0xAD] = [Packet.lit [[0x80]]].flatMap encodePacket ++ [0xDE, 0xAD] ∧
      decodeImage 2 1 1 [0x00, 0x01] .endOfStream = .err .corruptStream := by decide

theorem witness_DecodeOfEncodeGivesTheImage :
    1 ≤ 4 ∧ 4 ≤ 32767 ∧ 1 ≤ 1 ∧ 1 ≤ 32767 ∧ (1 = 1 ∨ 1 = 3 ∨ 1 = 4) ∧
      ([1, 2, 3, 3] : List Byte).length = 4 * 1 * 1 := by decide

/-- The invariant holds of a running encode. -/
theorem witness_EveryStepKeepsTheInvariant : sEnc.Inv ∧ ∃ t, step sEnc = .next t := by
  refine ⟨⟨⟨by decide, fun a ha => ?_⟩, ⟨by decide, by decide⟩, fun _ => by decide, fun h => ?_, ?_, ?_⟩, _, rfl⟩
  rotate_left
  · cases h
  · exact (by decide : sEnc.enc.curPix < 2 ^ 30 ∧ 1 ≤ sEnc.enc.runLen ∧ sEnc.enc.runLen ≤ 128 ∧
      sEnc.dec.count < 2 ^ 31 ∧ sEnc.dec.pixLatch.length ≤ 4)
  · exact (by decide : sEnc.input.pos ≤ sEnc.input.data.length)
  have hcap : 4294967296 ≤ a := ha
  have h0 : a ≠ 0 := by omega
  have h1 : a ≠ 1 := by omega
  have h2 : a ≠ 2 := by omega
  have h3 : a ≠ 3 := by omega
  simp [sEnc, encoding, idle, rowV4, State.withPixbuf, State.withCfg, State.withStatus, State.withOutput, State.withEnc,
    Mem.read, h0, h1, h2, h3]

theorem witness_BlockIsNeverStuck : sEnc.Inv ∧ sEnc.host = [] := ⟨witness_EveryStepKeepsTheInvariant.1, rfl⟩

/-- Each move happens: reset, the two starts, the last packets, an illegal start, an overrun. -/
theorem witness_StateMakesOnlyLegalMoves :
    after (fun t => t.status.state) (step (sEnc.withHost [.reset])) = some .idle ∧
      after (fun t => t.status.state) (step ((idle (cfg 4 1 1) rowV4).withHost [.writeCmd 0x01])) = some .busyEnc ∧
      after (fun t => t.status.state) (step ((idle (cfg 4 1 1) rowV4).withHost [.writeCmd 0x02])) = some .busyDec ∧
      after (fun t => t.status.state) (step (encoding (cfg 4 1 1) rowV4 { data := [], failAt := none } 2)) = some .done ∧
      after (fun t => t.status.state) (step (decoding (cfg 3 1 1) [0x82, 0x11] .endOfStream 0 0)) = some .done ∧
      after (fun t => t.status.state) (step (State.reset.withHost [.writeCmd 0x02])) = some .error ∧
      after (fun t => t.status.state) (step (decoding (cfg 2 1 1) [0x82, 0x55] .endOfStream 0 0)) = some .error := by decide

theorem witness_EnginesTouchOnlyTheirOwn :
    (sEnc.host = [] ∧ sEnc.status.state = .busyEnc ∧ ∃ t, step sEnc = .next t) ∧
      (sDec.host = [] ∧ sDec.status.state = .busyDec ∧ ∃ t, step sDec = .next t) :=
  ⟨⟨rfl, rfl, _, rfl⟩, rfl, rfl, _, rfl⟩

theorem witness_ConfigConstantDuringOperation :
    (sDec.withHost [.writeWidth 9]).busy = true ∧ (sDec.withHost [.writeWidth 9]).host.head? ≠ some .reset ∧
      ∃ t, step (sDec.withHost [.writeWidth 9]) = .next t :=
  ⟨rfl, by decide, _, rfl⟩

theorem witness_HostTouchDuringOperationRefused :
    (sDec.withHost [.setOut [] none]).busy = true ∧
      (sDec.withHost [.setOut [] none]).host = HostMove.setOut [] none :: [] := by decide

theorem witness_HostOwnsPixbufOutsideOperations :
    (idle (cfg 4 1 1) rowV4).busy = false ∧ 4294967295 < 2 ^ 32 ∧ Mem.read rowV4 3 = some 3 ∧ 2 ^ 32 ≤ 4294967296 ∧
      after (fun t => (t.input.data, t.input.pos)) (step (State.reset.withHost [.setIn [1, 2, 3] 1 .failure])) =
        some ([2, 3], 0) ∧
      after (fun t => t.output) (step (State.reset.withHost [.setOut [9] (some 4)])) =
        some { data := [9], failAt := some 4 } := by decide

/-- The two ends of the factor and a whole product between them: half of 200. -/
theorem witness_ColorScaleIsExactOnWholeProducts :
    (0 : Rat) ≤ 0 ∧ (1 : Rat) ≤ 1 ∧ (0 : Rat) ≤ 1 / 2 ∧ (1 / 2 : Rat) ≤ 1 ∧
      (((Color.mk 0x07C80401 .rgba).index 1).toNat : Rat) * (1 / 2) = (100 : Nat) := by
  have hc : ((Color.mk 0x07C80401 .rgba).index 1).toNat = 200 := by decide
  rw [hc]; norm_num

theorem witness_VerticalFlipIsItsOwnInverse : red.wf = true := by decide

/-- Just outside on each of the four sides. -/
theorem witness_PixelAccessOutsideTheBuffer :
    (-1 : Int) < 0 ∧ (red.width : Int) ≤ 2 ∧ (red.height : Int) ≤ 1 ∧ red.inside 2 0 = false ∧ red.inside 0 1 = false ∧
      red.inside (-1) 0 = false ∧ red.inside 0 (-1) = false := by decide

theorem witness_GetPixelAfterSetPixel : red.wf = true ∧ red.inside 1 0 = true := by decide

theorem witness_LoadOfSaveGivesTheBuffer :
    red.wf = true ∧ red.width ≤ 32767 ∧ red.height ≤ 32767 ∧ (saveFile true red).length = 22 ∧
      save true red { data := [], failAt := some 22 } = .saved { data := saveFile true red, failAt := some 22 } ∧
      save true red { data := [], failAt := some 20 } =
        .failed .ioFailure { data := (saveFile true red).take 20, failAt := some 20 } ∧
      32767 < ({ red with width := 32768 } : PixelBuffer).width := by decide

/-- A size of 0; a format of 2 bytes; a colour-mapped data type; one that no name stands for. -/
theorem witness_LoadTestsSizeThenFormatThenType :
    let h := saveHeader true red
    ¬ (1 ≤ ({ h with width := 0 } : TgaHeader).width.toInt ∧ 1 ≤ ({ h with width := 0 } : TgaHeader).height.toInt) ∧
      (1 ≤ h.width.toInt ∧ 1 ≤ h.height.toInt ∧
        ({ h with bitsPerPixel := 16 } : TgaHeader).bitsPerPixel.toNat / 8 = 2 ∧
        ({ h with dataTypeCode := 9 } : TgaHeader).dataTypeCode = 9#8 ∧
        load (({ h with dataTypeCode := 12 } : TgaHeader).bytes ++ [1, 0x81]) .endOfStream =
          .error (.failed .unsupportedFormat)) := by decide

theorem witness_BlockWritesTheFileSaveWrites : red.wf = true ∧ red.width ≤ 32767 ∧ red.height ≤ 32767 := by decide

theorem witness_BlockReadsBackTheFileSaveWrote : red.wf = true ∧ ∃ o, save true red { data := [], failAt := none } = .saved o :=
  ⟨by decide, _, rfl⟩

end Sys2Proof.Tests
end

section
/-! PROOFS. What the packets of a decode keep of the pixel memory, `IN` and the latch, and the ways a packet step of either
engine can end (R109, R131, R136, R138). -/

namespace Sys2Proof.Machine

/-! ### Reads of several bytes -/

/-- A read that answers bytes answers as many as were asked for (R10). -/
theorem inReadN_bytes_length {n : Nat} {i j : InStream} {bs : List Byte} (h : inReadN n i = .bytes bs j) :
    bs.length = n := by
  by_cases hp : i.pos ≤ i.data.length
  · rcases inReadN_keeps (n := n) hp with ⟨cs, hcs, hlen, -⟩ | hstop
    · rw [hcs] at h; cases h; exact hlen
    · rw [hstop] at h; cases h
  · cases n with
    | zero => cases h; rfl
    | succ n => rw [inReadN, inRead_stop (by omega)] at h; cases h

/-- A read that answers bytes leaves `IN.POS` within the data (R57). -/
theorem inReadN_bytes_pos {n : Nat} {i j : InStream} {bs : List Byte} (hp : i.pos ≤ i.data.length)
    (h : inReadN n i = .bytes bs j) : j.pos ≤ j.data.length := by
  rcases inReadN_keeps (n := n) hp with ⟨cs, hcs, -, hle⟩ | hstop
  · rw [hcs] at h; cases h; exact hle
  · rw [hstop] at h; cases h

/-- A read that answers the terminator leaves `IN.POS` within the data (R57). -/
theorem inReadN_stop_pos {n : Nat} {i j : InStream} {t : Term} (hp : i.pos ≤ i.data.length)
    (h : inReadN n i = .stop t j) : j.pos ≤ j.data.length := by
  rcases inReadN_keeps (n := n) hp with ⟨cs, hcs, -⟩ | hstop
  · rw [hcs] at h; cases h
  · rw [hstop] at h; cases h; exact le_rfl

/-! ### The copying of literal pixels, however it ends -/

/-- The input stream the copying of literal pixels leaves. -/
def CopyEnd.stream : CopyEnd → InStream
  | .copied i _ => i
  | .stopped _ i _ => i

/-- The pixel memory the copying of literal pixels leaves. -/
def CopyEnd.mem : CopyEnd → Mem
  | .copied _ m => m
  | .stopped _ _ m => m

/-- A pixel changes no byte beyond the image (R136). -/
theorem read_putPixel_outside {bpp npix : Nat} (idx : Nat) {p : Pixel} (hp : p.length = bpp) (m : Mem) {x : Nat}
    (hx : npix * bpp ≤ x) : (putPixel bpp npix idx p m).read x = m.read x := by
  rw [read_putPixel _ _ _ hp, if_neg]
  rintro ⟨hidx, -, hlt⟩
  exact absurd (pixel_below hidx hlt) (by omega)

/-- A replicated pixel changes no byte beyond the image (R136). -/
theorem read_replicatePixel_outside {bpp npix : Nat} (k idx : Nat) {p : Pixel} (hp : p.length = bpp) (m : Mem) {x : Nat}
    (hx : npix * bpp ≤ x) : (replicatePixel bpp npix p k idx m).read x = m.read x := by
  have hmin : min (idx + k) npix * bpp ≤ npix * bpp := Nat.mul_le_mul_right bpp (Nat.min_le_right _ _)
  rw [read_replicatePixel _ _ hp, if_neg (by omega)]

/-- Copying literal pixels keeps the memory's form (R133). -/
theorem copyPixels_wf (bpp npix k idx : Nat) (i : InStream) {m : Mem} (hm : m.wf = true) :
    (copyPixels bpp npix k idx i m).mem.wf = true := by
  induction k generalizing idx i m with
  | zero => exact hm
  | succ k ih =>
    rw [copyPixels]
    cases inReadN bpp i with
    | stop t j => exact hm
    | bytes p j => exact ih _ _ (putPixel_wf _ _ _ _ hm)

/-- Copying literal pixels changes no byte beyond the image (R133, R136). -/
theorem copyPixels_read_outside {bpp npix : Nat} (k idx : Nat) (i : InStream) (m : Mem) {x : Nat} (hx : npix * bpp ≤ x) :
    (copyPixels bpp npix k idx i m).mem.read x = m.read x := by
  induction k generalizing idx i m with
  | zero => rfl
  | succ k ih =>
    rw [copyPixels]
    cases hr : inReadN bpp i with
    | stop t j => rfl
    | bytes p j => exact (ih _ _ _).trans (read_putPixel_outside idx (inReadN_bytes_length hr) m hx)

/-- Copying literal pixels leaves `IN.POS` within the data (R57, R133). -/
theorem copyPixels_pos (bpp npix k idx : Nat) {i : InStream} (m : Mem) (hp : i.pos ≤ i.data.length) :
    (copyPixels bpp npix k idx i m).stream.pos ≤ (copyPixels bpp npix k idx i m).stream.data.length := by
  induction k generalizing idx i m with
  | zero => exact hp
  | succ k ih =>
    rw [copyPixels]
    cases hr : inReadN bpp i with
    | stop t j => exact inReadN_stop_pos hp hr
    | bytes p j => exact ih _ _ (inReadN_bytes_pos hp hr)

/-! ### What every packet of a decode keeps -/

/-- What a decode may do to the memory, the latch and `IN`: it stores inside the image alone, in canonical form, latches whole
pixels, and reads no further than the data (R36, R57, R134, R136). -/
structure State.FillsImage (s t : State) : Prop where
  cfg : t.cfg = s.cfg
  wf : s.pixbuf.wf = true → t.pixbuf.wf = true
  outside : ∀ a, s.cfg.nbytes ≤ a → t.pixbuf.read a = s.pixbuf.read a
  stream : s.streamSound → t.streamSound
  latch : t.dec.pixLatch = s.dec.pixLatch ∨ t.dec.pixLatch.length = s.cfg.bytesPerPixel

theorem State.FillsImage.trans {s t u : State} (h : s.FillsImage t) (h' : t.FillsImage u) : s.FillsImage u where
  cfg := h'.cfg.trans h.cfg
  wf := h'.wf ∘ h.wf
  outside a ha := (h'.outside a (h.cfg ▸ ha)).trans (h.outside a ha)
  stream := h'.stream ∘ h.stream
  latch := by
    rcases h'.latch with heq | hlen
    · rw [heq]; exact h.latch
    · exact .inr (h.cfg ▸ hlen)

theorem failDecode_fillsImage (e : ErrKind) (s : State) : s.FillsImage (failDecode e s) where
  cfg := rfl
  wf := failDecode_wf e
  outside _ ha := failDecode_read_outside e s ha
  stream hs := (failDecode_pos e s).trans hs
  latch := .inr (failDecode_latch e s)

theorem countPacket_fillsImage (n : Nat) (s : State) : s.FillsImage (countPacket n s).settle := by
  have counted : s.FillsImage (s.withDec { s.dec with count := s.dec.count + n }) :=
    ⟨rfl, id, fun _ _ => rfl, id, .inl rfl⟩
  rcases countPacket_cases n s with ⟨-, h⟩ | ⟨-, h⟩ | ⟨-, h⟩ <;> rw [h]
  · exact counted.trans (failDecode_fillsImage _ _)
  · exact ⟨rfl, id, fun _ _ => rfl, id, .inl rfl⟩
  · exact counted

theorem literalPacket_fillsImage (n : Nat) (s : State) : s.FillsImage (literalPacket n s).settle := by
  have hwf := copyPixels_wf s.cfg.bytesPerPixel s.cfg.npix n s.dec.count s.input (m := s.pixbuf)
  have hread := fun a => copyPixels_read_outside n s.dec.count s.input s.pixbuf (bpp := s.cfg.bytesPerPixel)
    (npix := s.cfg.npix) (x := a)
  have hpos := copyPixels_pos s.cfg.bytesPerPixel s.cfg.npix n s.dec.count (i := s.input) s.pixbuf
  rw [literalPacket]
  cases hc : copyPixels s.cfg.bytesPerPixel s.cfg.npix n s.dec.count s.input s.pixbuf with
  | stopped t i m =>
    rw [hc] at hwf hread hpos
    have copied : s.FillsImage ((s.withInput i).withPixbuf m) := ⟨rfl, hwf, hread, hpos, .inl rfl⟩
    exact copied.trans (failDecode_fillsImage _ _)
  | copied i m =>
    rw [hc] at hwf hread hpos
    have copied : s.FillsImage ((s.withInput i).withPixbuf m) := ⟨rfl, hwf, hread, hpos, .inl rfl⟩
    exact copied.trans (countPacket_fillsImage n _)

theorem repeatPacket_fillsImage (n : Nat) (s : State) : s.FillsImage (repeatPacket n s).settle := by
  rw [repeatPacket]
  cases hr : inReadN s.cfg.bytesPerPixel s.input with
  | stop t i =>
    have taken : s.FillsImage (s.withInput i) :=
      ⟨rfl, id, fun _ _ => rfl, fun hp => inReadN_stop_pos hp hr, .inl rfl⟩
    exact taken.trans (failDecode_fillsImage _ _)
  | bytes p i =>
    have hlen : p.length = s.cfg.bytesPerPixel := inReadN_bytes_length hr
    have filled : s.FillsImage (((s.withInput i).withDec { s.dec with pixLatch := p }).withPixbuf
        (replicatePixel s.cfg.bytesPerPixel s.cfg.npix p n s.dec.count s.pixbuf)) :=
      ⟨rfl, replicatePixel_wf _ _ _ _ _, fun _ ha => read_replicatePixel_outside _ _ hlen _ ha,
        fun hp => inReadN_bytes_pos hp hr, .inr hlen⟩
    exact filled.trans (countPacket_fillsImage n _)

theorem execPacket_fillsImage {s t : State} {i : Instr} {n : Nat} (hi : i = .lit n ∨ i = .rep n)
    (h : exec i s = .next t) : s.FillsImage t := by
  rcases hi with rfl | rfl
  · rw [exec_lit, execLit] at h
    cases hr : s.decReady <;> rw [hr] at h <;> cases h
    exact literalPacket_fillsImage n s
  · rw [exec_rep, execRep] at h
    cases hr : s.decReady <;> rw [hr] at h <;> cases h
    exact repeatPacket_fillsImage n s

/-- The taking of a header byte that is there (R132). -/
theorem headerTaken_fillsImage {s : State} {b : Byte} (hb : s.input.data[s.input.pos]? = some b) :
    s.FillsImage ((s.withInput { s.input with pos := s.input.pos + 1 }).withDec { s.dec with h := b }) :=
  ⟨rfl, id, fun _ _ => rfl, fun _ => Nat.succ_le_of_lt (List.getElem?_eq_some_iff.1 hb).1, .inl rfl⟩

/-- Every step of the decoder stores inside the image alone and reads no further than the data (R57, R136). -/
theorem decPacket_fillsImage {s t : State} (h : decPacket s = .next t) : s.FillsImage t := by
  obtain ⟨-, ⟨b, hb, hx⟩ | ⟨-, rfl⟩⟩ := decPacket_next h
  · exact (headerTaken_fillsImage hb).trans (execPacket_fillsImage (decodeHeader_cases b) hx)
  · exact failDecode_fillsImage _ s

/-! ### The ends of a packet step -/

/-- The three ends of a decoder step: failed with CorruptStream or IOFailure, DONE exactly at `NPIX`, or still running below
it; what a decode never touches is unchanged (R60, R131, R138, R139). -/
theorem decPacket_ends {s t : State} (h : decPacket s = .next t) :
    s.decReady = true ∧ s.decodeFrame t ∧
      ((∃ e, (e = .corruptStream ∨ e = .ioFailure) ∧ t.status = { state := .error, err := e } ∧ t.dec.count < 2 ^ 31) ∨
        (t.status = { s.status with state := .done } ∧ t.dec.count = s.cfg.npix) ∨
        (t.status = s.status ∧ t.dec.count < s.cfg.npix)) := by
  obtain ⟨hready, ⟨b, -, hx⟩ | ⟨-, rfl⟩⟩ := decPacket_next h
  · obtain ⟨-, ⟨e, u, rfl, he, hf, -⟩ | ⟨hcount, hle, hst, hf, -⟩⟩ := execPacket_next (decodeHeader_cases b) hx
    · exact ⟨hready, hf, .inl ⟨e, he, rfl, failDecode_count e u⟩⟩
    · refine ⟨hready, hf, .inr ?_⟩
      rw [hst, hcount]
      rcases Nat.eq_or_lt_of_le hle with hn | hn
      · exact .inl ⟨by rw [if_pos hn]; rfl, hn⟩
      · exact .inr ⟨by rw [if_neg (Nat.ne_of_lt hn)]; rfl, hn⟩
  · exact ⟨hready, ⟨rfl, rfl, rfl, rfl, rfl, rfl, rfl, rfl⟩, .inl ⟨_, s.input.term.errKind_cases, rfl, failDecode_count _ s⟩⟩

/-- A write of several bytes leaves the failure point (R59). -/
theorem outWriteN_failAt {bs : List Byte} {o o' : OutStream} {a : OutAnswer} (h : outWriteN bs o = (a, o')) :
    o'.failAt = o.failAt := by
  obtain ⟨n, hn⟩ := outWriteN_appends bs o
  rw [h] at hn
  rw [show o' = _ from hn]

/-- The run at `CURPIX` of a running encode: 1 to 128 pixels, all of the image (R112). -/
theorem run_bounds {s : State} (hc : s.cfg.legal = true) (hp : s.enc.curPix < s.cfg.npix) :
    1 ≤ s.run.2 ∧ s.run.2 ≤ 128 ∧ s.enc.curPix + s.run.2 ≤ s.cfg.npix := by
  obtain ⟨⟨hw, -⟩, -⟩ := (Cfg.legal_iff _).1 hc
  obtain ⟨h1, hlim⟩ : 1 ≤ s.run.2 ∧ s.run.2 ≤ runLimit s.cfg.w s.enc.curPix := scanRun_bounds _ hw _
  have hrow : s.enc.curPix + runLimit s.cfg.w s.enc.curPix ≤ s.cfg.npix := runLimit_le_left hp
  exact ⟨h1, hlim.trans (runLimit_le _ _), by omega⟩

/-- The three ends of an encoder step: failed with IOFailure, DONE exactly at `NPIX`, or still running below it; what an encode
never touches is unchanged, and its registers stay in their ranges (R20, R60, R101, R112, R113). -/
theorem encPacket_ends {s t : State} (h : encPacket s = .next t) :
    s.encReady = true ∧ s.encodeFrame t ∧ (t.enc.curPix < 2 ^ 30 ∧ 1 ≤ t.enc.runLen ∧ t.enc.runLen ≤ 128) ∧
      (t.status = { state := .error, err := .ioFailure } ∨
        (t.status = { s.status with state := .done } ∧ t.enc.curPix = s.cfg.npix) ∨
        (t.status = s.status ∧ t.enc.curPix < s.cfg.npix)) := by
  obtain ⟨hready, -, bs, -, ⟨o, hw, rfl⟩ | ⟨o, hw, rfl⟩⟩ := encPacket_next h
  · exact ⟨hready, ⟨rfl, rfl, rfl, rfl, outWriteN_failAt hw, rfl, rfl⟩,
      ⟨failEncode_curPix _ _, failEncode_runLen _ _⟩, .inl rfl⟩
  · obtain ⟨-, hc, hp⟩ := (encReady_iff s).1 hready
    obtain ⟨h1, h128, hle⟩ := run_bounds hc hp
    have hn : s.cfg.npix < 2 ^ 30 := by have := (Cfg.npix_bounds hc).2; omega
    rw [advance_scanned]
    refine ⟨hready, ⟨rfl, rfl, rfl, rfl, outWriteN_failAt hw, rfl, rfl⟩, ⟨by simp only; omega, h1, h128⟩, .inr ?_⟩
    rcases Nat.eq_or_lt_of_le hle with hd | hd
    · exact .inl ⟨by rw [if_pos hd], hd⟩
    · exact .inr ⟨by rw [if_neg (Nat.ne_of_lt hd)], hd⟩

end Sys2Proof.Machine
end

section
/-! PROOFS. What every move of the host can do, that each move and each packet step keeps the invariant, and with that O44 and
O45. -/

namespace Sys2Proof.Machine

/-! ### What a step and a move of the host can be -/

/-- A next state of a step: the block's own, or the move at the head of the list, taken off it (log 1). -/
theorem step_next {s t : State} (h : step s = .next t) :
    (s.host = [] ∧ blockStep s = .next t) ∨ ∃ m rest, s.host = m :: rest ∧ hostMove m (s.withHost rest) = .next t := by
  cases hh : s.host with
  | nil => exact .inl ⟨rfl, step_block hh ▸ h⟩
  | cons m rest => exact .inr ⟨m, rest, rfl, step_move hh ▸ h⟩

/-- A next state of the block's own step: a packet of the operation that runs, or nothing outside one (R101, R131, R214). -/
theorem blockStep_next {s t : State} (h : blockStep s = .next t) :
    (s.status.state = .busyEnc ∧ encPacket s = .next t) ∨ (s.status.state = .busyDec ∧ decPacket s = .next t) ∨
      (s.busy = false ∧ t = s) := by
  unfold blockStep at h
  unfold State.busy
  cases hs : s.status.state <;> rw [hs] at h
  case busyEnc => exact .inl ⟨rfl, h⟩
  case busyDec => exact .inr (.inl ⟨rfl, h⟩)
  all_goals cases h; exact .inr (.inr ⟨rfl, rfl⟩)

/-- A configuration write: lost while busy, else stored (R236). -/
theorem writeConfig_next {c : Cfg} {s t : State} (h : writeConfig c s = .next t) :
    t = s ∨ (s.busy = false ∧ t = s.withCfg c) := by
  unfold writeConfig at h
  cases hb : s.busy <;> rw [hb] at h <;> cases h
  · exact .inr ⟨rfl, rfl⟩
  · exact .inl rfl

/-- A move that touches `PIXBUF` or a stream goes on outside an operation only (R235). -/
theorem whenOwned_next {s t : State} {r : Result} (h : whenOwned s r = .next t) : s.busy = false ∧ r = .next t := by
  unfold whenOwned at h
  cases hb : s.busy <;> rw [hb] at h
  · exact ⟨rfl, h⟩
  · cases h

/-- A host write that goes on stores its byte below `PIXBUF_CAP` (R6, R42). -/
theorem hostWritePix_next {a : Nat} {v : Byte} {s t : State} (h : hostWritePix a v s = .next t) :
    a < Config.pixbufCap ∧ t = s.withPixbuf (s.pixbuf.write a v) := by
  unfold hostWritePix at h
  split_ifs at h with ha
  cases h
  exact ⟨Nat.lt_of_not_le ha, rfl⟩

/-- A host read that goes on changes the answer alone (R42). -/
theorem hostReadPix_next {a : Nat} {s t : State} (h : hostReadPix a s = .next t) :
    ∃ v, s.pixbuf.read a = some v ∧ t = s.withLastRead (.pix v) := by
  unfold hostReadPix at h
  split_ifs at h
  cases hr : s.pixbuf.read a with
  | none => rw [hr] at h; cases h
  | some v => rw [hr] at h; cases h; exact ⟨v, rfl, rfl⟩

/-! ### The parts of the invariant -/

/-- Outside an operation the demands on a running one say nothing. -/
theorem State.inv_of_not_busy {s : State} (hb : s.busy = false) (hm : s.memSound) (hst : s.statusSound)
    (hr : s.rangesSound) (hi : s.streamSound) : s.Inv where
  mem := hm
  status := hst
  enc he := by rw [(busy_iff s).2 (.inl he)] at hb; cases hb
  dec hd := by rw [(busy_iff s).2 (.inr hd)] at hb; cases hb
  ranges := hr
  stream := hi

/-- An error kind that the block can raise makes a sound `STATUS` (R27, R203). -/
theorem statusSound_of_error {s : State} {e : ErrKind} (h : s.status = { state := .error, err := e })
    (h0 : e ≠ .noError) (h1 : e ≠ .outOfRange) : s.statusSound := by
  simp [State.statusSound, h, h0, h1]

/-- With no error, every `STATE` but ERROR makes a sound `STATUS` (R27). -/
theorem statusSound_of_noError {s : State} (h : s.status.err = .noError) (hs : s.status.state ≠ .error) :
    s.statusSound := by
  simp [State.statusSound, h, hs]

/-- While an operation runs there is no error (R27). -/
theorem State.statusSound.err_of_busy {s : State} (h : s.statusSound) (hb : s.busy = true) : s.status.err = .noError :=
  h.1.2 fun he => by rcases (busy_iff s).1 hb with hs | hs <;> rw [hs] at he <;> cases he

/-- A pixel of a legal configuration has at most 4 bytes (R23). -/
theorem Cfg.bytesPerPixel_le {c : Cfg} (h : c.legal = true) : c.bytesPerPixel ≤ 4 := by
  obtain ⟨-, -, hb⟩ := (Cfg.legal_iff c).1 h
  omega

/-- A memory that changes inside a legal image alone, in canonical form, stays sound (R6, R63). -/
theorem State.memSound.of_outside {s t : State} (hs : s.memSound) (hc : s.cfg.legal = true)
    (hwf : s.pixbuf.wf = true → t.pixbuf.wf = true)
    (hout : ∀ a, s.cfg.nbytes ≤ a → t.pixbuf.read a = s.pixbuf.read a) : t.memSound :=
  ⟨hwf hs.1, fun a ha => (hout a ((Cfg.nbytes_le hc).trans ha)).trans (hs.2 a ha)⟩

/-! ### The block's own step -/

/-- An encoder step keeps the invariant. -/
theorem encPacket_inv {s t : State} (hs : s.Inv) (h : encPacket s = .next t) : t.Inv := by
  obtain ⟨hready, ⟨hcfg, hdec, hpix, hin, -⟩, ⟨hcur, hrun⟩, hend⟩ := encPacket_ends h
  obtain ⟨hst, hc, hp⟩ := (encReady_iff s).1 hready
  have herr : s.status.err = .noError := hs.status.err_of_busy ((busy_iff s).2 (.inl hst))
  have hmem : t.memSound := by rw [State.memSound, hpix]; exact hs.mem
  have hstream : t.streamSound := by rw [State.streamSound, hin]; exact hs.stream
  have hranges : t.rangesSound := by
    obtain ⟨-, -, -, hd⟩ := hs.ranges
    exact ⟨hcur, hrun.1, hrun.2, by rw [hdec]; exact hd⟩
  rcases hend with hf | ⟨hd, -⟩ | ⟨hgo, hlt⟩
  · exact State.inv_of_not_busy (by rw [State.busy, hf]; rfl) hmem (statusSound_of_error hf nofun nofun) hranges hstream
  · exact State.inv_of_not_busy (by rw [State.busy, hd]; rfl) hmem
      (statusSound_of_noError (by rw [hd]; exact herr) (by rw [hd]; nofun)) hranges hstream
  · exact
      { mem := hmem
        status := by rw [State.statusSound, hgo]; exact hs.status
        enc := fun _ => by rw [hcfg, hpix]; exact ⟨hc, hlt, (hs.enc hst).2.2⟩
        dec := fun hd => by rw [hgo, hst] at hd; cases hd
        ranges := hranges
        stream := hstream }

/-- A decoder step keeps the invariant. -/
theorem decPacket_inv {s t : State} (hs : s.Inv) (h : decPacket s = .next t) : t.Inv := by
  have hfill := decPacket_fillsImage h
  obtain ⟨hready, ⟨hcfg, henc, -⟩, hend⟩ := decPacket_ends h
  obtain ⟨hst, hc, hp⟩ := (decReady_iff s).1 hready
  have herr : s.status.err = .noError := hs.status.err_of_busy ((busy_iff s).2 (.inr hst))
  have hmem : t.memSound := hs.mem.of_outside hc hfill.wf hfill.outside
  have hstream : t.streamSound := hfill.stream hs.stream
  have hn : s.cfg.npix < 2 ^ 31 := by have := (Cfg.npix_bounds hc).2; omega
  have hranges (hcount : t.dec.count < 2 ^ 31) : t.rangesSound := by
    obtain ⟨hcur, h1, h128, -, hl⟩ := hs.ranges
    have hlatch : t.dec.pixLatch.length ≤ 4 := by
      rcases hfill.latch with heq | hlen
      · rw [heq]; exact hl
      · rw [hlen]; exact Cfg.bytesPerPixel_le hc
    rw [State.rangesSound, henc]
    exact ⟨hcur, h1, h128, hcount, hlatch⟩
  rcases hend with ⟨e, he, hf, hcount⟩ | ⟨hd, hcount⟩ | ⟨hgo, hlt⟩
  · exact State.inv_of_not_busy (by rw [State.busy, hf]; rfl) hmem
      (statusSound_of_error hf (by rcases he with rfl | rfl <;> nofun) (by rcases he with rfl | rfl <;> nofun))
      (hranges hcount) hstream
  · exact State.inv_of_not_busy (by rw [State.busy, hd]; rfl) hmem
      (statusSound_of_noError (by rw [hd]; exact herr) (by rw [hd]; nofun)) (hranges (by omega)) hstream
  · exact
      { mem := hmem
        status := by rw [State.statusSound, hgo]; exact hs.status
        enc := fun he => by rw [hgo, hst] at he; cases he
        dec := fun _ => by rw [hcfg]; exact ⟨hc, hlt⟩
        ranges := hranges (by omega)
        stream := hstream }

theorem blockStep_inv {s t : State} (hs : s.Inv) (h : blockStep s = .next t) : t.Inv := by
  rcases blockStep_next h with ⟨-, h⟩ | ⟨-, h⟩ | ⟨-, rfl⟩
  · exact encPacket_inv hs h
  · exact decPacket_inv hs h
  · exact hs

/-! ### The commands -/

/-- A configuration error is one of dimensions or format (R201, R202). -/
theorem startError_cases {c : Cfg} {e : ErrKind} (h : c.startError = some e) :
    e = .invalidDimensions ∨ e = .unsupportedFormat := by
  unfold Cfg.startError at h
  split_ifs at h <;> cases h
  · exact .inl rfl
  · exact .inr rfl

/-- A START command stopped by the configuration keeps the invariant. -/
theorem raiseError_inv {s : State} {e : ErrKind} (hs : s.Inv) (he : s.cfg.startError = some e) : (raiseError e s).Inv := by
  refine State.inv_of_not_busy rfl hs.mem (statusSound_of_error rfl ?_ ?_) hs.ranges hs.stream <;>
    rcases startError_cases he with rfl | rfl <;> nofun

theorem encStart_inv {s t : State} (hs : s.Inv) (h : exec .encStart s = .next t) : t.Inv := by
  rcases encStart_next h with ⟨-, rfl⟩ | ⟨-, e, he, rfl⟩ | ⟨-, hc, hw, rfl⟩
  · exact hs
  · exact raiseError_inv hs he
  · obtain ⟨-, hr⟩ := hs.ranges
    exact
      { mem := hs.mem
        status := statusSound_of_noError rfl nofun
        enc := fun _ => ⟨hc, (Cfg.npix_bounds hc).1, hw⟩
        dec := nofun
        ranges := ⟨Nat.two_pow_pos 30, hr⟩
        stream := hs.stream }

theorem decStart_inv {s t : State} (hs : s.Inv) (h : exec .decStart s = .next t) : t.Inv := by
  rcases decStart_next h with ⟨-, rfl⟩ | ⟨-, e, he, rfl⟩ | ⟨-, hc, rfl⟩
  · exact hs
  · exact raiseError_inv hs he
  · obtain ⟨hcur, h1, h128, -, hl⟩ := hs.ranges
    exact
      { mem := hs.mem
        status := statusSound_of_noError rfl nofun
        enc := nofun
        dec := fun _ => ⟨hc, (Cfg.npix_bounds hc).1⟩
        ranges := ⟨hcur, h1, h128, Nat.two_pow_pos 31, hl⟩
        stream := Nat.zero_le _ }

/-! ### The moves of the host -/

/-- A byte written below `PIXBUF_CAP` keeps the memory sound (R6, R36). -/
theorem State.memSound.write {s : State} (hs : s.memSound) {a : Nat} (ha : a < Config.pixbufCap) (v : Byte) :
    (s.withPixbuf (s.pixbuf.write a v)).memSound := by
  refine ⟨Mem.write_wf hs.1 a v, fun x hx => ?_⟩
  rw [State.withPixbuf_pixbuf, Mem.read_write, if_neg (by omega)]
  exact hs.2 x hx

/-- What an abandoned decode leaves of the memory is sound (R231). -/
theorem State.memSound.abandonDecode {s : State} (hs : s.memSound) (hc : s.cfg.legal = true) : s.abandonDecode.memSound :=
  hs.of_outside hc (fun hwf => Mem.overwriteBelow_wf hwf _ _) fun _ ha =>
    (Mem.read_overwriteBelow _ _ _ _).trans (if_neg (by omega))

/-- What an abandoned decode leaves of `IN.POS` is within the data (R208, R231). -/
theorem abandonDecode_streamSound (s : State) : s.abandonDecode.streamSound :=
  Nat.lt_succ_iff.1 (Nat.mod_lt _ (Nat.succ_pos _))

/-- The reset values of the working registers lie in their ranges (R20, R40). -/
theorem reset_rangesSound : State.reset.rangesSound := by
  unfold State.rangesSound
  decide

/-- With the registers at their reset values, a sound memory and `IN` are all the invariant asks for (R40). -/
theorem resetRegisters_inv {s : State} (hm : s.memSound) (hi : s.streamSound) : (resetRegisters s).Inv :=
  State.inv_of_not_busy rfl hm (statusSound_of_noError rfl nofun) reset_rangesSound hi

theorem resetBlock_inv {s : State} (hs : s.Inv) : (resetBlock s).Inv := by
  unfold resetBlock
  cases hst : s.status.state
  case busyDec => exact resetRegisters_inv (hs.mem.abandonDecode (hs.dec hst).1) (abandonDecode_streamSound s)
  all_goals exact resetRegisters_inv hs.mem hs.stream

theorem writeCommand_inv {v : Byte} {s t : State} (hs : s.Inv) (h : writeCommand v s = .next t) : t.Inv := by
  rcases writeCommand_next h with ⟨-, h⟩ | ⟨-, h⟩ | rfl
  · exact encStart_inv hs h
  · exact decStart_inv hs h
  · exact hs

theorem writeConfig_inv {c : Cfg} {s t : State} (hs : s.Inv) (h : writeConfig c s = .next t) : t.Inv := by
  rcases writeConfig_next h with rfl | ⟨hb, rfl⟩
  · exact hs
  · exact State.inv_of_not_busy hb hs.mem hs.status hs.ranges hs.stream

theorem withHost_inv {s : State} (hs : s.Inv) (rest : List HostMove) : (s.withHost rest).Inv :=
  ⟨hs.mem, hs.status, hs.enc, hs.dec, hs.ranges, hs.stream⟩

theorem withLastRead_inv {s : State} (hs : s.Inv) (a : HostAnswer) : (s.withLastRead a).Inv :=
  ⟨hs.mem, hs.status, hs.enc, hs.dec, hs.ranges, hs.stream⟩

theorem withOutput_inv {s : State} (hs : s.Inv) (o : OutStream) : (s.withOutput o).Inv :=
  ⟨hs.mem, hs.status, hs.enc, hs.dec, hs.ranges, hs.stream⟩

theorem hostMove_inv {m : HostMove} {s t : State} (hs : s.Inv) (h : hostMove m s = .next t) : t.Inv := by
  cases m with
  | wait => exact blockStep_inv hs h
  | writeCmd v => exact writeCommand_inv hs h
  | writeStatus v => cases h; exact hs
  | writeWidth v => exact writeConfig_inv hs h
  | writeHeight v => exact writeConfig_inv hs h
  | writeBpp v => exact writeConfig_inv hs h
  | readReg r => cases h; exact withLastRead_inv hs _
  | writePix a v =>
    obtain ⟨hb, h⟩ := whenOwned_next h
    obtain ⟨ha, rfl⟩ := hostWritePix_next h
    exact State.inv_of_not_busy hb (hs.mem.write ha v) hs.status hs.ranges hs.stream
  | readPix a =>
    obtain ⟨v, -, rfl⟩ := hostReadPix_next (whenOwned_next h).2
    exact withLastRead_inv hs _
  | setIn c p t =>
    obtain ⟨hb, h⟩ := whenOwned_next h
    cases h
    exact State.inv_of_not_busy hb hs.mem hs.status hs.ranges (Nat.zero_le _)
  | setOut d f =>
    obtain ⟨-, h⟩ := whenOwned_next h
    cases h
    exact withOutput_inv hs _
  | reset => cases h; exact resetBlock_inv hs

/-- Settles O45: the block's own step and every move of the host keep the invariant. -/
theorem everyStepKeepsTheInvariant : Obligations.EveryStepKeepsTheInvariant := by
  intro s t hs h
  rcases step_next h with ⟨-, h⟩ | ⟨m, rest, -, h⟩
  · exact blockStep_inv hs h
  · exact hostMove_inv (withHost_inv hs rest) h

/-- Settles O44: the state after reset has every register at its reset value, an empty memory and `IN.POS` 0. -/
theorem resetMeetsTheInvariant : Obligations.ResetMeetsTheInvariant :=
  resetRegisters_inv (s := State.reset) ⟨rfl, fun _ _ => rfl⟩ (Nat.zero_le _)

end Sys2Proof.Machine
end

section
/-! PROOFS. Every way `STATUS.STATE` can move in a step (R26), and with that O47. -/

namespace Sys2Proof.Machine

/-- The ways `STATE` can move, from a value `r` under a configuration `c`, to that of `t`; `m` is the move of the host that the
step takes, if one is pending (R26). -/
inductive StateMove (m : Option HostMove) (r : RunState) (c : Cfg) (t : State) : Prop
  /-- `STATE` stays. -/
  | stays (ht : t.status.state = r)
  /-- To IDLE by the reset input (R230). -/
  | toIdle (hm : m = some .reset) (ht : t.status.state = .idle)
  /-- To BUSY_ENC by `ENC_START` (R100). -/
  | toBusyEnc (hm : m = some (.writeCmd 0x01#8)) (hb : r.busy = false) (hc : c.legal = true)
      (ht : t.status.state = .busyEnc)
  /-- To BUSY_DEC by `DEC_START` (R130). -/
  | toBusyDec (hm : m = some (.writeCmd 0x02#8)) (hb : r.busy = false) (hc : c.legal = true)
      (ht : t.status.state = .busyDec)
  /-- To ERROR by a START command with an illegal configuration (R100, R130). -/
  | startRejected (hm : m = some (.writeCmd 0x01#8) ∨ m = some (.writeCmd 0x02#8)) (hb : r.busy = false)
      (hc : c.legal = false) (ht : t.status.state = .error)
  /-- To DONE by the encoder at `NPIX` (R101). -/
  | encodeDone (hm : m = none ∨ m = some .wait) (hr : r = .busyEnc) (hp : t.enc.curPix = c.npix)
      (ht : t.status.state = .done)
  /-- To DONE by the decoder at `NPIX` (R131). -/
  | decodeDone (hm : m = none ∨ m = some .wait) (hr : r = .busyDec) (hp : t.dec.count = c.npix)
      (ht : t.status.state = .done)
  /-- To ERROR by a packet step that fails (R206). -/
  | packetFailed (hm : m = none ∨ m = some .wait) (hb : r.busy = true) (ht : t.status.state = .error)

theorem blockStep_stateMove {m : Option HostMove} {s t : State} (hm : m = none ∨ m = some .wait)
    (h : blockStep s = .next t) : StateMove m s.status.state s.cfg t := by
  rcases blockStep_next h with ⟨hst, h⟩ | ⟨hst, h⟩ | ⟨-, rfl⟩
  · obtain ⟨-, -, -, hf | ⟨hd, hp⟩ | ⟨hgo, -⟩⟩ := encPacket_ends h
    · exact .packetFailed hm (by rw [hst]; rfl) (by rw [hf])
    · exact .encodeDone hm hst hp (by rw [hd])
    · exact .stays (by rw [hgo])
  · obtain ⟨-, -, ⟨e, -, hf, -⟩ | ⟨hd, hp⟩ | ⟨hgo, -⟩⟩ := decPacket_ends h
    · exact .packetFailed hm (by rw [hst]; rfl) (by rw [hf])
    · exact .decodeDone hm hst hp (by rw [hd])
    · exact .stays (by rw [hgo])
  · exact .stays rfl

/-- A configuration that a START command rejects is illegal (R209). -/
theorem not_legal_of_startError {c : Cfg} {e : ErrKind} (h : c.startError = some e) : c.legal = false := by
  cases hc : c.legal with
  | false => rfl
  | true => rw [(startError_eq_none_iff c).2 hc] at h; cases h

theorem writeCommand_stateMove {v : Byte} {s t : State} (h : writeCommand v s = .next t) :
    StateMove (some (.writeCmd v)) s.status.state s.cfg t := by
  rcases writeCommand_next h with ⟨rfl, h⟩ | ⟨rfl, h⟩ | rfl
  · rcases encStart_next h with ⟨-, rfl⟩ | ⟨hb, e, he, rfl⟩ | ⟨hb, hc, -, rfl⟩
    · exact .stays rfl
    · exact .startRejected (.inl rfl) hb (not_legal_of_startError he) rfl
    · exact .toBusyEnc rfl hb hc rfl
  · rcases decStart_next h with ⟨-, rfl⟩ | ⟨hb, e, he, rfl⟩ | ⟨hb, hc, rfl⟩
    · exact .stays rfl
    · exact .startRejected (.inr rfl) hb (not_legal_of_startError he) rfl
    · exact .toBusyDec rfl hb hc rfl
  · exact .stays rfl

theorem writeConfig_status {c : Cfg} {s t : State} (h : writeConfig c s = .next t) : t.status = s.status := by
  rcases writeConfig_next h with rfl | ⟨-, rfl⟩ <;> rfl

theorem hostMove_stateMove {m : HostMove} {s t : State} (h : hostMove m s = .next t) :
    StateMove (some m) s.status.state s.cfg t := by
  cases m with
  | wait => exact blockStep_stateMove (.inr rfl) h
  | writeCmd v => exact writeCommand_stateMove h
  | writeStatus v => cases h; exact .stays rfl
  | writeWidth v => exact .stays (by rw [writeConfig_status h])
  | writeHeight v => exact .stays (by rw [writeConfig_status h])
  | writeBpp v => exact .stays (by rw [writeConfig_status h])
  | readReg r => cases h; exact .stays rfl
  | writePix a v => obtain ⟨-, rfl⟩ := hostWritePix_next (whenOwned_next h).2; exact .stays rfl
  | readPix a => obtain ⟨v, -, rfl⟩ := hostReadPix_next (whenOwned_next h).2; exact .stays rfl
  | setIn c p t => cases (whenOwned_next h).2; exact .stays rfl
  | setOut d f => cases (whenOwned_next h).2; exact .stays rfl
  | reset => cases h; exact .toIdle rfl rfl

/-- `STATE` moves in a step in one of the ways of R26. -/
theorem step_stateMove {s t : State} (h : step s = .next t) : StateMove s.host.head? s.status.state s.cfg t := by
  rcases step_next h with ⟨hh, h⟩ | ⟨m, rest, hh, h⟩ <;> rw [hh]
  · exact blockStep_stateMove (.inl rfl) h
  · exact hostMove_stateMove (s := s.withHost rest) h

/-- With no move pending, or a `wait` at the head, the step is the block's (log 1). -/
theorem blockTurn_of_head {s : State} (h : s.host.head? = none ∨ s.host.head? = some .wait) : s.blockTurn :=
  h.imp_left List.head?_eq_none_iff.1

/-- Settles O47: each way `STATE` can move is one of the five kinds of the statement. -/
theorem stateMakesOnlyLegalMoves : Obligations.StateMakesOnlyLegalMoves := by
  intro s t h
  cases step_stateMove h with
  | stays ht => rw [ht]; exact ⟨.inl, .inl, .inl, .inl, .inl⟩
  | toIdle hm ht => rw [ht]; exact ⟨fun _ => .inr hm, nofun, nofun, nofun, nofun⟩
  | toBusyEnc hm hb hc ht => rw [ht]; exact ⟨nofun, fun _ => .inr ⟨hb, hm, hc⟩, nofun, nofun, nofun⟩
  | toBusyDec hm hb hc ht => rw [ht]; exact ⟨nofun, nofun, fun _ => .inr ⟨hb, hm, hc⟩, nofun, nofun⟩
  | startRejected hm hb hc ht => rw [ht]; exact ⟨nofun, nofun, nofun, nofun, fun _ => .inr (.inr ⟨hb, hc, hm⟩)⟩
  | encodeDone hm hr hp ht =>
    rw [ht]; exact ⟨nofun, nofun, nofun, fun _ => .inr ⟨blockTurn_of_head hm, .inl ⟨hr, hp⟩⟩, nofun⟩
  | decodeDone hm hr hp ht =>
    rw [ht]; exact ⟨nofun, nofun, nofun, fun _ => .inr ⟨blockTurn_of_head hm, .inr ⟨hr, hp⟩⟩, nofun⟩
  | packetFailed hm hb ht =>
    rw [ht]; exact ⟨nofun, nofun, nofun, nofun, fun _ => .inr (.inl ⟨hb, blockTurn_of_head hm⟩)⟩

end Sys2Proof.Machine
end

section
/-! PROOFS. What each move of the host answers, and with that O51, O11, O14, O15, O16 and O19. -/

namespace Sys2Proof.Machine

/-! ### Moves outside an operation -/

theorem whenOwned_of_not_busy {s : State} (hb : s.busy = false) (r : Result) : whenOwned s r = r := by
  simp [whenOwned, hb]

theorem hostWritePix_below {a : Nat} (ha : a < 2 ^ 32) (v : Byte) (s : State) :
    hostWritePix a v s = .next (s.withPixbuf (s.pixbuf.write a v)) :=
  if_neg (Nat.not_le.2 ha)

theorem hostWritePix_beyond {a : Nat} (ha : 2 ^ 32 ≤ a) (v : Byte) (s : State) :
    hostWritePix a v s = .fault .outsidePixelMemory :=
  if_pos ha

theorem hostReadPix_written {a : Nat} (ha : a < 2 ^ 32) {v : Byte} {s : State} (hr : s.pixbuf.read a = some v) :
    hostReadPix a s = .next (s.withLastRead (.pix v)) := by
  rw [hostReadPix, if_neg (show ¬ Config.pixbufCap ≤ a from Nat.not_le.2 ha), hr]

theorem hostReadPix_beyond {a : Nat} (ha : 2 ^ 32 ≤ a) (s : State) : hostReadPix a s = .fault .outsidePixelMemory :=
  if_pos ha

/-- Outside an operation a move that touches `PIXBUF` or a stream has its own meaning (R42, R58). -/
theorem step_owned {s : State} (hb : s.busy = false) {m : HostMove} {rest : List HostMove} {f : State → Result}
    (hm : ∀ u, hostMove m u = whenOwned u (f u)) (hh : s.host = m :: rest) : step s = f (s.withHost rest) := by
  rw [step_move hh, hm]
  exact whenOwned_of_not_busy hb _

/-- Settles O51: each of the four moves, by what it does to the state it is taken off. -/
theorem hostOwnsPixbufOutsideOperations : Obligations.HostOwnsPixbufOutsideOperations := by
  intro s a v rest hb
  refine ⟨fun hh ha => ?write, fun hh ha hr => ?read, fun hh ha => ?beyond, fun c p t hh => ?setIn, fun d f hh => ?setOut⟩
  case write =>
    refine ⟨(s.withHost rest).withPixbuf (s.pixbuf.write a v), ?_, rfl, fun x => Mem.read_write _ _ _ _⟩
    rw [step_owned hb (fun _ => rfl) hh]
    exact hostWritePix_below ha v _
  case read =>
    rw [step_owned hb (fun _ => rfl) hh]
    exact hostReadPix_written ha hr
  case beyond =>
    rcases hh with hh | hh <;> rw [step_owned hb (fun _ => rfl) hh]
    · exact hostWritePix_beyond ha v _
    · exact hostReadPix_beyond ha _
  case setIn =>
    exact ⟨(s.withHost rest).withInput { content := c, point := p, term := t, pos := 0 },
      step_owned hb (fun _ => rfl) hh, rfl, rfl, rfl, rfl, rfl, rfl⟩
  case setOut =>
    exact step_owned hb (fun _ => rfl) hh

/-! ### The registers -/

/-- Settles O11: the values of R40 by definition, and a block in IDLE with no move pending that keeps its state. -/
theorem resetStateHoldsResetValues : Obligations.ResetStateHoldsResetValues :=
  ⟨rfl, by decide, rfl, by decide, Mem.read_nil, step_block rfl⟩

theorem writeConfig_eq (c : Cfg) (s : State) : writeConfig c s = .next (if s.busy then s else s.withCfg c) := by
  unfold writeConfig
  split_ifs <;> rfl

/-- Settles O14: each of the three registers is written by `writeConfig`. -/
theorem configWriteStoresUnlessBusy : Obligations.ConfigWriteStoresUnlessBusy := by
  intro s rest
  refine ⟨fun v hh => ?_, fun v hh => ?_, fun v hh => ?_⟩ <;>
    exact (step_move hh).trans (writeConfig_eq _ _)

/-- Settles O15: a register read records `regValue`, which is the value of each register. -/
theorem registerReadAnswers : Obligations.RegisterReadAnswers := by
  intro s r rest hh
  rw [step_move hh]
  cases r <;> rfl

/-- The fields of the `STATUS` byte: three bits of each number, and zeros between and above them (R25). -/
theorem Status.byte_fields (st : Status) :
    (st.byte.extractLsb' 0 3).toNat = st.state.code.toNat ∧ (st.byte.extractLsb' 4 3).toNat = st.err.code.toNat ∧
      st.byte.getLsbD 3 = false ∧ st.byte.getLsbD 7 = false := by
  obtain ⟨r, e⟩ := st
  cases r <;> cases e <;> decide

/-- Settles O16: a read and a write of `STATUS`, and the fields of its byte. -/
theorem statusRegisterReadsItsFields : Obligations.StatusRegisterReadsItsFields := by
  intro s rest
  obtain ⟨hstate, herr, h3, h7⟩ := s.status.byte_fields
  refine ⟨step_move, fun v hh => step_move hh, rfl, ?_, ?_, h3, h7⟩
  · rw [hstate]
    cases s.status.state <;> rfl
  · rw [herr]
    cases s.status.err <;> rfl

/-- A byte that decodes in the command space is the command it decodes to (R90, R91). -/
theorem decodeCommand_of_decode {v : Byte} {i : Instr} {rest : List Byte} (h : decode .command (v :: rest) = .ok (i, rest)) :
    decodeCommand v = .ok i := by
  simp only [decode] at h
  cases hd : decodeCommand v with
  | ok j => rw [hd] at h; cases h; rfl
  | error e => rw [hd] at h; cases h

/-- Settles O19: the write to `CMD` runs what its byte decodes to. -/
theorem stepRunsTheCommandWritten : Obligations.StepRunsTheCommandWritten := by
  intro s v i rest hh hd
  rw [step_move hh, hostMove, writeCommand, decodeCommand_of_decode hd]
  rfl

end Sys2Proof.Machine
end

section
/-! PROOFS. The step of a running operation, the decoder's step and the end of a packet as equations, one for each case. -/

namespace Sys2Proof.Machine

/-! ### The ends of a packet, each by its count -/

/-- The state after `COUNT <- COUNT + n` (R135). -/
def State.counted (s : State) (n : Nat) : State := s.withDec { s.dec with count := s.dec.count + n }

/-- A packet that runs past the image raises CorruptStream (R135). -/
theorem countPacket_of_overrun {n : Nat} {s : State} (h : s.cfg.npix < s.dec.count + n) :
    countPacket n s = .raised .corruptStream (s.counted n) :=
  if_pos h

/-- A packet that ends at the image's end completes the decode (R131). -/
theorem countPacket_of_end {n : Nat} {s : State} (h : s.dec.count + n = s.cfg.npix) :
    countPacket n s = .completed ((s.counted n).setRunState .done) :=
  (if_neg (by omega)).trans (if_pos h)

/-- A packet that ends inside the image leaves the decode running (R131). -/
theorem countPacket_of_within {n : Nat} {s : State} (h : s.dec.count + n < s.cfg.npix) :
    countPacket n s = .completed (s.counted n) :=
  (if_neg (by omega)).trans (if_neg (by omega))

/-! ### The decoder's step, case by case -/

/-- The state after the fetch of a header byte: `H` holds it and `IN.POS` is past it (R132). -/
def State.headerTaken (s : State) (b : Byte) : State :=
  (s.withInput { s.input with pos := s.input.pos + 1 }).withDec { s.dec with h := b }

/-- With a byte at `IN.POS` the decoder's step is the packet it opens, on the state that has taken it (R132, R139). -/
theorem decPacket_of_byte {s : State} {b : Byte} (hr : s.decReady = true) (hb : s.input.data[s.input.pos]? = some b) :
    decPacket s = exec (decodeHeader b) (s.headerTaken b) := by
  simp only [decPacket, hr, fetchPacket, inRead, hb]
  rfl

/-- At the end of the data the decoder's step fails with the terminator's error (R132, R138). -/
theorem decPacket_of_no_byte {s : State} (hr : s.decReady = true) (hb : s.input.data[s.input.pos]? = none) :
    decPacket s = .next (failDecode s.input.term.errKind s) := by
  simp only [decPacket, hr, fetchPacket, inRead, hb]
  rfl

/-- Without its precondition the decoder's step stops (R139, log 14). -/
theorem decPacket_of_not_ready {s : State} (hr : s.decReady = false) : decPacket s = .fault .noStepPossible := by
  simp [decPacket, hr]

/-! ### The step of a running operation -/

/-- With no move pending a step of a running encode is the encoder's (R101). -/
theorem step_of_busyEnc {s : State} (hh : s.host = []) (hst : s.status.state = .busyEnc) : step s = encPacket s := by
  rw [step_block hh, blockStep, hst]

/-- With no move pending a step of a running decode is the decoder's (R131). -/
theorem step_of_busyDec {s : State} (hh : s.host = []) (hst : s.status.state = .busyDec) : step s = decPacket s := by
  rw [step_block hh, blockStep, hst]

end Sys2Proof.Machine
end

section
/-! PROOFS. What the primitives of the memory and the streams answer, and what each engine touches: with that O9, O7, O8 and
O48. -/

namespace Sys2Proof.Machine

/-! ### The primitives -/

/-- `MemRead` of what `MemWrite` has just stored gives it back (R53, R54). -/
theorem Mem.readN_writeN (m : Mem) (a : Nat) (v : List Byte) : (m.writeN a v).readN a v.length = some v := by
  refine Mem.readN_eq_some.2 ⟨rfl, fun i hi => ?_⟩
  rw [Mem.read_writeN, if_pos ⟨Nat.le_add_right a i, Nat.add_lt_add_left hi a⟩, Nat.add_sub_cancel_left]

/-- `MemWrite` leaves every byte outside the range it stores to (R54). -/
theorem Mem.read_writeN_outside (m : Mem) (a : Nat) (v : List Byte) {x : Nat} (hx : x < a ∨ a + v.length ≤ x) :
    (m.writeN a v).read x = m.read x := by
  rw [Mem.read_writeN, if_neg (by omega)]

/-- Settles O9: read after `MemWrite` inside and outside its range, and the canonical form kept. -/
theorem memWriteStoresExactlyItsBytes : Obligations.MemWriteStoresExactlyItsBytes := fun m a v =>
  ⟨m.readN_writeN a v, fun _ hx => m.read_writeN_outside a v hx, fun hm => Mem.writeN_wf hm a v⟩

/-- Settles O7: a read with a byte at `IN.POS`, and one at or beyond the end. -/
theorem inReadAnswersNextByteOrTerminator : Obligations.InReadAnswersNextByteOrTerminator := by
  refine fun i => ⟨fun b hb => ?_, inRead_stop⟩
  obtain ⟨hp, rfl⟩ := List.getElem?_eq_some_iff.1 hb
  exact inRead_byte hp

/-- One more byte fits when it does not pass the failure point, if there is one (R59). -/
theorem OutStream.room_iff (o : OutStream) : o.room = true ↔ ∀ f, o.failAt = some f → o.data.length + 1 ≤ f := by
  unfold OutStream.room
  cases o.failAt <;> simp

theorem outWrite_of_room (b : Byte) {o : OutStream} (h : o.room = true) :
    outWrite b o = (.ok, { o with data := o.data ++ [b] }) :=
  if_pos h

theorem outWrite_of_no_room (b : Byte) {o : OutStream} (h : o.room ≠ true) : outWrite b o = (.fail, o) :=
  if_neg h

/-- Settles O8: a write with no failure point, with room before it, and with none. -/
theorem outWriteAppendsOrFails : Obligations.OutWriteAppendsOrFails := by
  refine fun b o => ⟨fun hn => ?_, fun f hf => ⟨fun hle => ?_, fun hlt => ?_⟩⟩
  · exact outWrite_of_room b (o.room_iff.2 fun f hf => by rw [hn] at hf; cases hf)
  · refine outWrite_of_room b (o.room_iff.2 fun g hg => ?_)
    cases hf.symm.trans hg
    exact hle
  · refine outWrite_of_no_room b fun hr => ?_
    have := o.room_iff.1 hr f hf
    omega

/-! ### What an engine touches -/

/-- A step of the encoder only appends to `OUT`, whether it fails or goes on (R59, R113). -/
theorem encPacket_appends {s t : State} (h : encPacket s = .next t) :
    ∃ part, t.output.data = s.output.data ++ part := by
  obtain ⟨-, -, bs, -, hend⟩ := encPacket_next h
  obtain ⟨n, hn⟩ := outWriteN_appends bs s.output
  refine ⟨bs.take n, ?_⟩
  rcases hend with ⟨o, hw, rfl⟩ | ⟨o, hw, rfl⟩ <;> rw [hw] at hn <;> obtain rfl : o = _ := hn
  · rfl
  · rw [advance_scanned]

/-- Settles O48: the frame of each engine's packet step, what the encoder appends, and where the decoder stores. -/
theorem enginesTouchOnlyTheirOwn : Obligations.EnginesTouchOnlyTheirOwn := by
  intro s t hh h
  refine ⟨fun hst => ?_, fun hst => ?_⟩
  · rw [step_of_busyEnc hh hst] at h
    obtain ⟨-, hframe, -⟩ := encPacket_ends h
    exact ⟨hframe, encPacket_appends h⟩
  · rw [step_of_busyDec hh hst] at h
    obtain ⟨-, hframe, -⟩ := decPacket_ends h
    exact ⟨hframe, (decPacket_fillsImage h).outside⟩

end Sys2Proof.Machine
end

section
/-! PROOFS. The block's own step does not look at the moves the host has still to make, and with that O20. -/

namespace Sys2Proof.Machine

/-- The answer of a step with other moves of the host pending after it. -/
def Result.withHost (r : Result) (h : List HostMove) : Result :=
  match r with
  | .next t => .next (t.withHost h)
  | .fault f => .fault f
  | .refused f => .refused f

/-- The encoder's step does not look at the pending moves, and leaves them (R60, log 1). -/
theorem encPacket_withHost (s : State) (h : List HostMove) :
    encPacket (s.withHost h) = Result.withHost (encPacket s) h := by
  have hready : (s.withHost h).encReady = s.encReady := rfl
  have hrow : (s.withHost h).rowWritten = s.rowWritten := rfl
  have hbytes : (s.withHost h).packetBytes = s.packetBytes := rfl
  unfold encPacket
  rw [hready, hrow, hbytes, State.withHost_output]
  cases s.encReady
  case false => rfl
  cases s.rowWritten
  case false => rfl
  cases s.packetBytes with
  | none => rfl
  | some bs =>
    rcases hw : outWriteN bs s.output with ⟨_ | _, o⟩
    · simp only [hw, advance_scanned]; rfl
    · simp only [hw]; rfl

/-! ### The decoder's packets and the pending moves -/

/-- The counting of a packet leaves the pending moves, in each of its three ends. -/
theorem countPacket_withHost (n : Nat) (s : State) (h : List HostMove) :
    (countPacket n (s.withHost h)).settle = (countPacket n s).settle.withHost h := by
  rcases Nat.lt_trichotomy (s.dec.count + n) s.cfg.npix with hc | hc | hc
  · rw [countPacket_of_within hc, countPacket_of_within (s := s.withHost h) hc]; rfl
  · rw [countPacket_of_end hc, countPacket_of_end (s := s.withHost h) hc]; rfl
  · rw [countPacket_of_overrun hc, countPacket_of_overrun (s := s.withHost h) hc]; rfl

theorem literalPacket_withHost (n : Nat) (s : State) (h : List HostMove) :
    (literalPacket n (s.withHost h)).settle = (literalPacket n s).settle.withHost h := by
  simp only [literalPacket, State.withHost_cfg, State.withHost_dec, State.withHost_input, State.withHost_pixbuf]
  cases copyPixels s.cfg.bytesPerPixel s.cfg.npix n s.dec.count s.input s.pixbuf with
  | stopped t i m => rfl
  | copied i m => exact countPacket_withHost n ((s.withInput i).withPixbuf m) h

theorem repeatPacket_withHost (n : Nat) (s : State) (h : List HostMove) :
    (repeatPacket n (s.withHost h)).settle = (repeatPacket n s).settle.withHost h := by
  simp only [repeatPacket, State.withHost_cfg, State.withHost_dec, State.withHost_input, State.withHost_pixbuf]
  cases inReadN s.cfg.bytesPerPixel s.input with
  | stop t i => rfl
  | bytes p i =>
    exact countPacket_withHost n (((s.withInput i).withDec { s.dec with pixLatch := p }).withPixbuf
      (replicatePixel s.cfg.bytesPerPixel s.cfg.npix p n s.dec.count s.pixbuf)) h

/-- A packet instruction does not look at the pending moves, and leaves them. -/
theorem execPacket_withHost {i : Instr} {n : Nat} (hi : i = .lit n ∨ i = .rep n) (s : State) (h : List HostMove) :
    exec i (s.withHost h) = Result.withHost (exec i s) h := by
  have hready : (s.withHost h).decReady = s.decReady := rfl
  rcases hi with rfl | rfl
  · rw [exec_lit, exec_lit, execLit, execLit, hready, literalPacket_withHost]
    cases s.decReady <;> rfl
  · rw [exec_rep, exec_rep, execRep, execRep, hready, repeatPacket_withHost]
    cases s.decReady <;> rfl

/-- The decoder's step does not look at the pending moves, and leaves them (R60, log 1). -/
theorem decPacket_withHost (s : State) (h : List HostMove) :
    decPacket (s.withHost h) = Result.withHost (decPacket s) h := by
  cases hr : s.decReady with
  | false => rw [decPacket_of_not_ready hr, decPacket_of_not_ready (s := s.withHost h) hr]; rfl
  | true =>
    cases hb : s.input.data[s.input.pos]? with
    | none => rw [decPacket_of_no_byte hr hb, decPacket_of_no_byte (s := s.withHost h) hr hb]; rfl
    | some b =>
      rw [decPacket_of_byte hr hb, decPacket_of_byte (s := s.withHost h) hr hb]
      exact execPacket_withHost (decodeHeader_cases b) (s.headerTaken b) h

/-- The block's step does not look at the pending moves, and leaves them (R62, log 1). -/
theorem blockStep_withHost (s : State) (h : List HostMove) :
    blockStep (s.withHost h) = Result.withHost (blockStep s) h := by
  rw [blockStep, blockStep, State.withHost_status]
  cases s.status.state
  case busyEnc => exact encPacket_withHost s h
  case busyDec => exact decPacket_withHost s h
  all_goals rfl

/-- Settles O20: the `wait` runs the block's step, which does not look at the moves left. -/
theorem waitLeavesTheStepToTheBlock : Obligations.WaitLeavesTheStepToTheBlock := by
  intro s rest hh
  have hwait : step s = Result.withHost (step (s.withHost [])) rest := by
    rw [step_move hh, step_block (State.withHost_host s [])]
    exact blockStep_withHost (s.withHost []) rest
  rw [hwait]
  cases step (s.withHost []) <;> rfl

end Sys2Proof.Machine
end

section
/-! PROOFS. The decoder's packets store the same bytes whatever `PIXBUF` held, and with that O30. -/

namespace Sys2Proof.Machine

/-! ### Two memories that take the same stores -/

/-- `u` from `m` and `u'` from `m'` by the same stores: each byte either reads the same after them or is untouched in both. -/
def Mem.StoredAlike (m m' u u' : Mem) : Prop :=
  ∀ a, u'.read a = u.read a ∨ (u.read a = m.read a ∧ u'.read a = m'.read a)

theorem Mem.StoredAlike.refl (m m' : Mem) : Mem.StoredAlike m m' m m' := fun _ => .inr ⟨rfl, rfl⟩

theorem Mem.StoredAlike.trans {m m' u u' v v' : Mem} (h : Mem.StoredAlike m m' u u') (h' : Mem.StoredAlike u u' v v') :
    Mem.StoredAlike m m' v v' := by
  intro a
  rcases h' a with heq | ⟨hv, hv'⟩
  · exact .inl heq
  · rw [hv, hv']
    exact h a

/-- `MemWrite` of the same bytes at the same address (R54). -/
theorem Mem.StoredAlike.writeN (m m' : Mem) (a : Nat) (bs : List Byte) :
    Mem.StoredAlike m m' (m.writeN a bs) (m'.writeN a bs) := by
  intro x
  rw [Mem.read_writeN, Mem.read_writeN]
  split_ifs
  · exact .inl rfl
  · exact .inr ⟨rfl, rfl⟩

/-- The same free values over the image (R208). -/
theorem Mem.StoredAlike.overwriteBelow (m m' : Mem) (n : Nat) (f : Nat → Byte) :
    Mem.StoredAlike m m' (m.overwriteBelow n f) (m'.overwriteBelow n f) := by
  intro x
  rw [Mem.read_overwriteBelow, Mem.read_overwriteBelow]
  split_ifs
  · exact .inl rfl
  · exact .inr ⟨rfl, rfl⟩

theorem Mem.StoredAlike.putPixel (m m' : Mem) (bpp npix idx : Nat) (p : Pixel) :
    Mem.StoredAlike m m' (putPixel bpp npix idx p m) (putPixel bpp npix idx p m') := by
  unfold Machine.putPixel
  split_ifs
  · exact .writeN m m' _ p
  · exact .refl m m'

theorem Mem.StoredAlike.replicatePixel (m m' : Mem) (bpp npix k idx : Nat) (p : Pixel) :
    Mem.StoredAlike m m' (replicatePixel bpp npix p k idx m) (replicatePixel bpp npix p k idx m') := by
  induction k generalizing idx m m' with
  | zero => exact .refl m m'
  | succ k ih => exact (putPixel m m' bpp npix idx p).trans (ih _ _ _)

/-- The copying of literal pixels with another memory at its end. -/
def CopyEnd.withMem (u : Mem) : CopyEnd → CopyEnd
  | .copied i _ => .copied i u
  | .stopped t i _ => .stopped t i u

/-- The copying of literal pixels ends the same way over another memory, which takes the same stores (R133). -/
theorem copyPixels_storedAlike (bpp npix k idx : Nat) (i : InStream) (m m' : Mem) :
    ∃ u, copyPixels bpp npix k idx i m' = (copyPixels bpp npix k idx i m).withMem u ∧
      Mem.StoredAlike m m' (copyPixels bpp npix k idx i m).mem u := by
  induction k generalizing idx i m m' with
  | zero => exact ⟨m', rfl, .refl m m'⟩
  | succ k ih =>
    rw [copyPixels, copyPixels]
    cases inReadN bpp i with
    | stop t j => exact ⟨m', rfl, .refl m m'⟩
    | bytes p j =>
      obtain ⟨u, hu, halike⟩ := ih (idx + 1) j (putPixel bpp npix idx p m) (putPixel bpp npix idx p m')
      exact ⟨u, hu, (Mem.StoredAlike.putPixel m m' bpp npix idx p).trans halike⟩

/-! ### The packets -/

/-- A change of the state that does not look at `PIXBUF`: with another memory in it the state ends the same but for the memory,
which has taken the same stores. -/
def IgnoresPixbuf (f : State → State) : Prop :=
  ∀ s m, ∃ u, f (s.withPixbuf m) = (f s).withPixbuf u ∧ Mem.StoredAlike s.pixbuf m (f s).pixbuf u

theorem failDecode_ignoresPixbuf (e : ErrKind) : IgnoresPixbuf (failDecode e) :=
  fun _ _ => ⟨_, rfl, .overwriteBelow _ _ _ _⟩

theorem countPacket_ignoresPixbuf (n : Nat) : IgnoresPixbuf fun s => (countPacket n s).settle := by
  intro s m
  beta_reduce
  rcases Nat.lt_trichotomy (s.dec.count + n) s.cfg.npix with hc | hc | hc
  · rw [countPacket_of_within hc, countPacket_of_within (s := s.withPixbuf m) hc]
    exact ⟨m, rfl, .refl _ _⟩
  · rw [countPacket_of_end hc, countPacket_of_end (s := s.withPixbuf m) hc]
    exact ⟨m, rfl, .refl _ _⟩
  · rw [countPacket_of_overrun hc, countPacket_of_overrun (s := s.withPixbuf m) hc]
    exact failDecode_ignoresPixbuf _ (s.counted n) m

/-- A change that ignores `PIXBUF`, after stores that were the same. -/
theorem IgnoresPixbuf.after {f : State → State} (hf : IgnoresPixbuf f) (s : State) {m m' u u' : Mem}
    (h : Mem.StoredAlike m m' u u') :
    ∃ v, f (s.withPixbuf u') = (f (s.withPixbuf u)).withPixbuf v ∧ Mem.StoredAlike m m' (f (s.withPixbuf u)).pixbuf v := by
  obtain ⟨v, hv, halike⟩ := hf (s.withPixbuf u) u'
  exact ⟨v, hv, h.trans halike⟩

theorem literalPacket_ignoresPixbuf (n : Nat) : IgnoresPixbuf fun s => (literalPacket n s).settle := by
  intro s m
  simp only [literalPacket, State.withPixbuf_cfg, State.withPixbuf_dec, State.withPixbuf_input, State.withPixbuf_pixbuf]
  obtain ⟨u, hu, halike⟩ := copyPixels_storedAlike s.cfg.bytesPerPixel s.cfg.npix n s.dec.count s.input s.pixbuf m
  rw [hu]
  cases hc : copyPixels s.cfg.bytesPerPixel s.cfg.npix n s.dec.count s.input s.pixbuf with
  | stopped t i v => rw [hc] at halike; exact (failDecode_ignoresPixbuf t.errKind).after (s.withInput i) halike
  | copied i v => rw [hc] at halike; exact (countPacket_ignoresPixbuf n).after (s.withInput i) halike

theorem repeatPacket_ignoresPixbuf (n : Nat) : IgnoresPixbuf fun s => (repeatPacket n s).settle := by
  intro s m
  simp only [repeatPacket, State.withPixbuf_cfg, State.withPixbuf_dec, State.withPixbuf_input, State.withPixbuf_pixbuf]
  cases inReadN s.cfg.bytesPerPixel s.input with
  | stop t i => exact failDecode_ignoresPixbuf t.errKind (s.withInput i) m
  | bytes p i =>
    exact (countPacket_ignoresPixbuf n).after ((s.withInput i).withDec { s.dec with pixLatch := p })
      (.replicatePixel s.pixbuf m _ _ _ _ p)

/-! ### The step -/

/-- A packet instruction that goes on does so over any other memory, and stores the same there (R60). -/
theorem execPacket_ignoresPixbuf {s t : State} {i : Instr} {n : Nat} (hi : i = .lit n ∨ i = .rep n)
    (h : exec i s = .next t) (m : Mem) :
    ∃ u, exec i (s.withPixbuf m) = .next (t.withPixbuf u) ∧ Mem.StoredAlike s.pixbuf m t.pixbuf u := by
  have hready : (s.withPixbuf m).decReady = s.decReady := rfl
  rcases hi with rfl | rfl
  · rw [exec_lit, execLit] at h ⊢
    rw [hready]
    cases hr : s.decReady <;> rw [hr] at h <;> cases h
    obtain ⟨u, hu, halike⟩ := literalPacket_ignoresPixbuf n s m
    exact ⟨u, congrArg _ hu, halike⟩
  · rw [exec_rep, execRep] at h ⊢
    rw [hready]
    cases hr : s.decReady <;> rw [hr] at h <;> cases h
    obtain ⟨u, hu, halike⟩ := repeatPacket_ignoresPixbuf n s m
    exact ⟨u, congrArg _ hu, halike⟩

/-- A decoder step that goes on does so over any other memory, and stores the same there (R60). -/
theorem decPacket_ignoresPixbuf {s t : State} (h : decPacket s = .next t) (m : Mem) :
    ∃ u, decPacket (s.withPixbuf m) = .next (t.withPixbuf u) ∧ Mem.StoredAlike s.pixbuf m t.pixbuf u := by
  obtain ⟨hr, ⟨b, hb, hx⟩ | ⟨hb, rfl⟩⟩ := decPacket_next h
  · rw [decPacket_of_byte (s := s.withPixbuf m) hr hb]
    exact execPacket_ignoresPixbuf (decodeHeader_cases b) hx m
  · rw [decPacket_of_no_byte (s := s.withPixbuf m) hr hb]
    obtain ⟨u, hu, halike⟩ := failDecode_ignoresPixbuf s.input.term.errKind s m
    exact ⟨u, congrArg _ hu, halike⟩

/-- Settles O30: the decoder's packet over another memory. -/
theorem decoderIgnoresPixbufContents : Obligations.DecoderIgnoresPixbufContents := by
  intro s t m hh hst h
  rw [step_of_busyDec hh hst] at h
  obtain ⟨u, hu, halike⟩ := decPacket_ignoresPixbuf h m
  exact ⟨t.withPixbuf u, (step_of_busyDec (s := s.withPixbuf m) hh hst).trans hu, rfl, halike⟩

end Sys2Proof.Machine
end

section
/-! PROOFS. The header byte of a packet in both directions, the packet read back from its bytes, and with that O1 to O6. -/

namespace Sys2Proof

/-! ### The header byte decoded -/

/-- A header byte below 128 opens a literal packet (R81, R82). -/
theorem decodeHeader_of_lt {h : Byte} (hh : h.toNat < 128) : decodeHeader h = .lit (h.toNat + 1) := by
  rw [decodeHeader, if_neg (by rw [headerType_iff]; omega), headerCount_eq, Nat.mod_eq_of_lt hh]

/-- A header byte from 128 on opens a repeat packet (R81, R82). -/
theorem decodeHeader_of_ge {h : Byte} (hh : 128 ≤ h.toNat) : decodeHeader h = .rep (h.toNat - 127) := by
  have hlt := h.isLt
  rw [decodeHeader, if_pos ((headerType_iff h).2 hh), headerCount_eq]
  exact congrArg Instr.rep (by omega)

/-! ### The header byte written -/

/-- The literal header of a count in range, as a number: it fits 8 bits (R84). -/
theorem encodeByte_lit_toNat {n : Nat} (h128 : n ≤ 128) : (encodeByte (.lit n)).toNat = n - 1 := by
  rw [encodeByte, BitVec.toNat_ofNat]
  omega

/-- The repeat header of a count in range, as a number: it fits 8 bits (R84). -/
theorem encodeByte_rep_toNat {n : Nat} (h128 : n ≤ 128) : (encodeByte (.rep n)).toNat = 128 + (n - 1) := by
  rw [encodeByte, BitVec.toNat_ofNat]
  omega

/-- The decoder reads a literal header as the count it was written for (R84). -/
theorem decodeHeader_encodeByte_lit {n : Nat} (h1 : 1 ≤ n) (h128 : n ≤ 128) :
    decodeHeader (encodeByte (.lit n)) = .lit n := by
  have hb := encodeByte_lit_toNat h128
  rw [decodeHeader_of_lt (by omega), hb, Nat.sub_add_cancel h1]

/-- The decoder reads a repeat header as the count it was written for (R84). -/
theorem decodeHeader_encodeByte_rep {n : Nat} (h1 : 1 ≤ n) (h128 : n ≤ 128) :
    decodeHeader (encodeByte (.rep n)) = .rep n := by
  have hb := encodeByte_rep_toNat h128
  rw [decodeHeader_of_ge (by omega), hb]
  exact congrArg Instr.rep (by omega)

/-- In the packet space the byte at the head is a header byte, whatever its value (R81, R86). -/
theorem decode_packet (b : Byte) (rest : List Byte) : decode .packet (b :: rest) = .ok (decodeHeader b, rest) := rfl

/-- Settles O1: a packet header by R84 in the packet space, a command by R90 in its own. -/
theorem decodeOfEncodeIsIdentity : Obligations.DecodeOfEncodeIsIdentity := by
  intro i rest hwf
  cases i with
  | lit n =>
    obtain ⟨h1, h128⟩ := (countOk_iff n).1 hwf
    exact (decode_packet _ rest).trans (by rw [decodeHeader_encodeByte_lit h1 h128])
  | rep n =>
    obtain ⟨h1, h128⟩ := (countOk_iff n).1 hwf
    exact (decode_packet _ rest).trans (by rw [decodeHeader_encodeByte_rep h1 h128])
  | encStart => rfl
  | decStart => rfl

/-- Settles O2: a literal below 128, a repeat from 128 on. -/
theorem everyHeaderByteIsAPacket : Obligations.EveryHeaderByteIsAPacket := by
  intro h
  have hlt := h.isLt
  rcases Nat.lt_or_ge h.toNat 128 with hh | hh
  · rw [decodeHeader_of_lt hh]
    exact ⟨(countOk_iff _).2 (by omega), rfl, BitVec.eq_of_toNat_eq (encodeByte_lit_toNat (by omega))⟩
  · rw [decodeHeader_of_ge hh]
    refine ⟨(countOk_iff _).2 (by omega), rfl, BitVec.eq_of_toNat_eq ?_⟩
    rw [encodeByte_rep_toNat (by omega)]
    omega

/-- Settles O3: the kind by the type bit, and the count as the low seven bits plus one. -/
theorem headerGivesKindAndCount : Obligations.HeaderGivesKindAndCount := by
  intro h
  have hmask : (h &&& 0x7F#8).toNat = h.toNat % 128 := Nat.and_two_pow_sub_one_eq_mod h.toNat 7
  refine ⟨decodeHeader_of_lt, decodeHeader_of_ge, ?_⟩
  rw [headerCount_eq, hmask]
  omega

/-- Settles O4: both headers as numbers, and the decoder's inverse of each. -/
theorem headerByteOfARun : Obligations.HeaderByteOfARun := by
  intro n h1 h128
  have hlit := encodeByte_lit_toNat h128
  have hrep := encodeByte_rep_toNat h128
  refine ⟨⟨hlit, ?_, decodeHeader_encodeByte_lit h1 h128⟩, ⟨hrep, ?_, decodeHeader_encodeByte_rep h1 h128⟩⟩
  · rw [← Bool.not_eq_true, headerType_iff]
    omega
  · rw [headerType_iff]
    omega

/-- Settles O5: each word by evaluation of the decoder. -/
theorem writtenWordsDecode : Obligations.WrittenWordsDecode := by
  unfold Obligations.WrittenWordsDecode
  decide

/-! ### A whole packet -/

/-- A literal header with its payload there opens a literal packet of the pixels cut off the payload (R83). -/
theorem decodePacket_of_lit {bpp n : Nat} {h : Byte} {bs : List Byte} (hh : decodeHeader h = .lit n)
    (hlen : n * bpp ≤ bs.length) :
    decodePacket bpp (h :: bs) = some (.lit (cutPixels bpp (headerCount h) bs), bs.drop (n * bpp)) := by
  simp [decodePacket, hh, payloadLength, Nat.not_lt.2 hlen]

/-- A repeat header with its payload there opens a repeat packet of that one pixel (R83). -/
theorem decodePacket_of_rep {bpp n : Nat} {h : Byte} {bs : List Byte} (hh : decodeHeader h = .rep n)
    (hlen : bpp ≤ bs.length) : decodePacket bpp (h :: bs) = some (.rep n (bs.take bpp), bs.drop bpp) := by
  simp [decodePacket, hh, payloadLength, Nat.not_lt.2 hlen]

/-- The bytes of pixels of `bpp` bytes each number `bpp` for each pixel (R80). -/
theorem length_flatten_pixels {bpp : Nat} {ps : List Pixel} (hps : ∀ p ∈ ps, p.length = bpp) :
    ps.flatten.length = ps.length * bpp := by
  rw [List.length_flatten, List.map_congr_left hps, List.map_const', List.sum_replicate, smul_eq_mul]

/-- Pixels written one after the other are cut off again (R85). -/
theorem cutPixels_flatten {bpp : Nat} {ps : List Pixel} (hps : ∀ p ∈ ps, p.length = bpp) (rest : List Byte) :
    cutPixels bpp ps.length (ps.flatten ++ rest) = ps := by
  induction ps with
  | nil => rfl
  | cons p ps ih =>
    obtain ⟨hp, hps⟩ := List.forall_mem_cons.1 hps
    rw [List.flatten_cons, List.append_assoc, List.length_cons, cutPixels, List.take_left' hp, List.drop_left' hp,
      ih hps]

/-- The check on a literal packet, in words (R80, R82). -/
theorem Packet.wf_lit_iff {bpp : Nat} {ps : List Pixel} :
    (Packet.lit ps).wf bpp = true ↔ (1 ≤ ps.length ∧ ps.length ≤ 128) ∧ ∀ p ∈ ps, p.length = bpp := by
  simp [Packet.wf, countOk_iff]

/-- The check on a repeat packet, in words (R80, R82). -/
theorem Packet.wf_rep_iff {bpp n : Nat} {p : Pixel} :
    (Packet.rep n p).wf bpp = true ↔ (1 ≤ n ∧ n ≤ 128) ∧ p.length = bpp := by
  simp [Packet.wf, countOk_iff]

/-- A well-formed packet has as many payload bytes as its header says (R83). -/
theorem Packet.length_payload {bpp : Nat} {p : Packet} (hwf : p.wf bpp = true) :
    p.payload.length = payloadLength bpp p.instr := by
  cases p with
  | lit ps => exact length_flatten_pixels (Packet.wf_lit_iff.1 hwf).2
  | rep n p => exact (Packet.wf_rep_iff.1 hwf).2

/-- A whole packet is read back from its bytes, with the bytes after it (R80, R85, R92). -/
theorem decodePacket_encodePacket {bpp : Nat} {p : Packet} (hwf : p.wf bpp = true) (rest : List Byte) :
    decodePacket bpp (encodePacket p ++ rest) = some (p, rest) := by
  cases p with
  | lit ps =>
    obtain ⟨⟨h1, h128⟩, hps⟩ := Packet.wf_lit_iff.1 hwf
    have hlen := length_flatten_pixels hps
    have hcount : headerCount (encodeByte (.lit ps.length)) = ps.length := by
      rw [headerCount_eq, encodeByte_lit_toNat h128]
      omega
    have hdec := decodePacket_of_lit (bpp := bpp) (bs := ps.flatten ++ rest) (decodeHeader_encodeByte_lit h1 h128)
      (by rw [List.length_append]; omega)
    rwa [hcount, cutPixels_flatten hps, List.drop_left' hlen] at hdec
  | rep n p =>
    obtain ⟨⟨h1, h128⟩, hlen⟩ := Packet.wf_rep_iff.1 hwf
    have hdec := decodePacket_of_rep (bpp := bpp) (bs := p ++ rest) (decodeHeader_encodeByte_rep h1 h128)
      (by rw [List.length_append]; omega)
    rwa [List.take_left' hlen, List.drop_left' hlen] at hdec

/-- Settles O6: the packet read back, and its payload counted after its header byte. -/
theorem packetReadBackFromItsBytes : Obligations.PacketReadBackFromItsBytes := by
  intro bpp p rest hwf
  refine ⟨decodePacket_encodePacket hwf rest, ?_⟩
  rw [encodePacket, List.length_cons, Packet.length_payload hwf, packetLength, Nat.add_comm]

end Sys2Proof
end

section
/-! PROOFS. The header bytes the encoder can emit, the commands that change nothing, and with that O34 and O17. -/

namespace Sys2Proof.Machine

/-! ### The runs the encoder finds and their header bytes -/

/-- A run has 1 to 128 pixels, and at least 2 when it is a repeat (R87, R112). -/
structure EmittableRun (run : Mode × Nat) : Prop where
  one_le : 1 ≤ run.2
  le_max : run.2 ≤ 128
  two_le : run.1 = .repeating → 2 ≤ run.2

theorem runInstr_repeating {run : Mode × Nat} (h : run.1 = .repeating) : runInstr run = .rep run.2 := by
  obtain ⟨m, r⟩ := run
  cases h
  rfl

theorem runInstr_of_ne_repeating {run : Mode × Nat} (h : run.1 ≠ .repeating) : runInstr run = .lit run.2 := by
  obtain ⟨m, r⟩ := run
  cases m with
  | repeating => exact absurd rfl h
  | undet => rfl
  | literal => rfl

/-- The header byte of a repeat run lies above 0x80 (R84, R87). -/
theorem EmittableRun.header_repeating {run : Mode × Nat} (h : EmittableRun run) (hm : run.1 = .repeating) :
    0x81 ≤ (encodeByte (runInstr run)).toNat := by
  have h2 := h.two_le hm
  rw [runInstr_repeating hm, encodeByte_rep_toNat h.le_max]
  omega

/-- The header byte of any other run is its length less one (R84). -/
theorem EmittableRun.header_literal {run : Mode × Nat} (h : EmittableRun run) (hm : run.1 ≠ .repeating) :
    (encodeByte (runInstr run)).toNat = run.2 - 1 := by
  rw [runInstr_of_ne_repeating hm, encodeByte_lit_toNat h.le_max]

/-- No run the encoder finds has header byte 0x80 (R87). -/
theorem EmittableRun.header_ne {run : Mode × Nat} (h : EmittableRun run) : encodeByte (runInstr run) ≠ 0x80#8 := by
  intro he
  have hval : (encodeByte (runInstr run)).toNat = 128 := by rw [he]; rfl
  have hmax := h.le_max
  by_cases hm : run.1 = .repeating
  · have := h.header_repeating hm
    omega
  · have := h.header_literal hm
    omega

/-- A run of one pixel has header byte 0x00 (R87). -/
theorem EmittableRun.header_single {run : Mode × Nat} (h : EmittableRun run) (h1 : run.2 = 1) :
    encodeByte (runInstr run) = 0x00#8 := by
  have hm : run.1 ≠ .repeating := fun hm => by have := h.two_le hm; omega
  rw [runInstr_of_ne_repeating hm, h1]
  rfl

/-- In a row of no pixels the guard of the loop never holds (R103). -/
theorem scanRun_zero_width (pixEq : Nat → Nat → Bool) (cur : Nat) : scanRun pixEq 0 cur = (.undet, 1) := by
  rw [scanRun, show Config.maxChunk = 127 + 1 from rfl, scanLoop, if_neg (by omega)]

/-- What the scan finds is a run the encoder can emit, and a repeat run begins with two equal pixels (R87, R105). -/
theorem scanRun_emittable (pixEq : Nat → Nat → Bool) (w cur : Nat) :
    EmittableRun (scanRun pixEq w cur) ∧ ((scanRun pixEq w cur).1 = .repeating → pixEq cur (cur + 1) = true) := by
  have hsingle : EmittableRun (.undet, 1) := ⟨le_rfl, by decide, nofun⟩
  have h128 := runLimit_le w cur
  rcases Nat.eq_zero_or_pos w with rfl | hw
  · rw [scanRun_zero_width]
    exact ⟨hsingle, nofun⟩
  · rcases scanRun_cases pixEq hw cur with ⟨-, e⟩ | ⟨-, heq, r, e, h2, hr, -⟩ | ⟨-, -, r, e, h1, hr, -⟩ <;> rw [e]
    · exact ⟨hsingle, nofun⟩
    · exact ⟨⟨by omega, hr.trans h128, fun _ => h2⟩, fun _ => heq⟩
    · exact ⟨⟨h1, hr.trans h128, nofun⟩, nofun⟩

/-! ### The runs of the encoder as a function -/

/-- Where the row leaves no other pixel the run is a single one (R114). -/
theorem runAt_single {w bpp c : Nat} {buf : List Byte} (hl : runLimit w c = 1) : runAt w bpp buf c = (.undet, 1) :=
  if_pos hl

/-- The repeat run of two equal pixels, in closed form (R114). -/
theorem runAt_repeating {w bpp c : Nat} {buf : List Byte} (hl : runLimit w c ≠ 1)
    (he : pixOf bpp buf c = pixOf bpp buf (c + 1)) :
    runAt w bpp buf c = (.repeating, ((List.range (runLimit w c)).takeWhile
      (fun j => pixOf bpp buf (c + j) == pixOf bpp buf c)).length) :=
  (if_neg hl).trans (if_pos he)

/-- The literal run of two differing pixels, in closed form (R114). -/
theorem runAt_literal {w bpp c : Nat} {buf : List Byte} (hl : runLimit w c ≠ 1)
    (he : pixOf bpp buf c ≠ pixOf bpp buf (c + 1)) :
    runAt w bpp buf c = (.literal, ((List.range' 1 (runLimit w c - 2)).find?
      (fun j => pixOf bpp buf (c + j) == pixOf bpp buf (c + j + 1))).getD (runLimit w c)) :=
  (if_neg hl).trans (if_neg he)

theorem length_takeWhile_range_le (p : Nat → Bool) (n : Nat) : ((List.range n).takeWhile p).length ≤ n :=
  (List.takeWhile_sublist p).length_le.trans_eq List.length_range

/-- A repeat run takes in the two pixels that were found equal. -/
theorem two_le_length_takeWhile_range {p : Nat → Bool} {n : Nat} (hn : 2 ≤ n) (h0 : p 0 = true) (h1 : p 1 = true) :
    2 ≤ ((List.range n).takeWhile p).length := by
  obtain ⟨k, rfl⟩ := Nat.exists_eq_add_of_le hn
  rw [List.range_add]
  simp [List.range_succ, h0, h1]

/-- Every packet of an image stands for a run the encoder can emit (R87, R114). -/
theorem runAt_emittable {w : Nat} (hw : 1 ≤ w) (bpp : Nat) (buf : List Byte) (c : Nat) :
    EmittableRun (runAt w bpp buf c) := by
  have h1 := one_le_runLimit hw c
  have h128 := runLimit_le w c
  by_cases hl : runLimit w c = 1
  · rw [runAt_single hl]
    exact ⟨le_rfl, by decide, nofun⟩
  · by_cases he : pixOf bpp buf c = pixOf bpp buf (c + 1)
    · rw [runAt_repeating hl he]
      have h2 := two_le_length_takeWhile_range (p := fun j => pixOf bpp buf (c + j) == pixOf bpp buf c)
        (show 2 ≤ runLimit w c by omega) (by simp) (by simp [he])
      exact ⟨Nat.le_of_succ_le h2, (length_takeWhile_range_le _ _).trans h128, fun _ => h2⟩
    · rw [runAt_literal hl he]
      cases hf : (List.range' 1 (runLimit w c - 2)).find?
          (fun j => pixOf bpp buf (c + j) == pixOf bpp buf (c + j + 1)) with
      | none => exact ⟨h1, h128, nofun⟩
      | some r =>
        have hr := List.mem_range'_1.1 (List.mem_of_find?_eq_some hf)
        exact ⟨hr.1, by simp only [Option.getD_some]; omega, nofun⟩

/-- A packet begins with the header byte of its run (R84, R114). -/
theorem packetAt_head? {w bpp c : Nat} {buf : List Byte} (h1 : 1 ≤ (runAt w bpp buf c).2) :
    (packetAt w bpp buf c).head? = some (encodeByte (runInstr (runAt w bpp buf c))) := by
  unfold packetAt
  by_cases hm : (runAt w bpp buf c).1 = .repeating
  · simp only [hm, if_true, List.head?_cons, runInstr_repeating, encodeByte]
    congr 2
    omega
  · simp only [hm, if_false, List.head?_cons, runInstr_of_ne_repeating hm, encodeByte]

/-- The encoding of an image that has a pixel begins with the header byte of its first run (R114). -/
theorem encodeImage_head? {w h : Nat} (hw : 1 ≤ w) (hh : 1 ≤ h) (bpp : Nat) (buf : List Byte) :
    (encodeImage w h bpp buf).head? = some (encodeByte (runInstr (runAt w bpp buf 0))) := by
  obtain ⟨n, hn⟩ : ∃ n, w * h = n + 1 := Nat.exists_eq_succ_of_ne_zero (Nat.mul_pos hw hh).ne'
  have hhead := packetAt_head? (runAt_emittable hw bpp buf 0).one_le
  rw [encodeImage, hn, encodeFrom, hn, if_neg (by omega), List.head?_append, hhead]
  rfl

/-! ### An image for every other header byte -/

/-- A row of at most 128 pixels is no longer than a run can be (R112). -/
theorem runLimit_start {n : Nat} (hn : n ≤ 128) : runLimit n 0 = n := by
  simp [runLimit, leftInRow, Config.maxChunk, hn]

/-- A pixel of one byte is the byte at its offset (R51). -/
theorem pixOf_one {buf : List Byte} {i : Nat} (hi : i < buf.length) : pixOf 1 buf i = [buf[i]] := by
  rw [pixOf, Nat.mul_one, List.drop_eq_getElem_cons hi, List.take_succ_cons, List.take_zero]

/-- A row of `n` bytes that all differ. -/
def distinctRow (n : Nat) : List Byte := (List.range n).map (BitVec.ofNat 8)

@[simp] theorem length_distinctRow (n : Nat) : (distinctRow n).length = n := by simp [distinctRow]

theorem pixOf_distinctRow {n i : Nat} (hi : i < n) : pixOf 1 (distinctRow n) i = [BitVec.ofNat 8 i] := by
  rw [pixOf_one (by simpa using hi)]
  simp [distinctRow]

theorem pixOf_distinctRow_ne {n i : Nat} (hi : i + 1 < n) :
    pixOf 1 (distinctRow n) i ≠ pixOf 1 (distinctRow n) (i + 1) := by
  rw [pixOf_distinctRow (Nat.lt_of_succ_lt hi), pixOf_distinctRow hi]
  intro he
  have := congrArg BitVec.toNat (List.cons.inj he).1
  simp only [BitVec.toNat_ofNat] at this
  omega

/-- A row of at most 128 pixels that all differ is one literal packet (R114). -/
theorem runInstr_distinctRow {n : Nat} (h1 : 1 ≤ n) (h128 : n ≤ 128) :
    runInstr (runAt n 1 (distinctRow n) 0) = .lit n := by
  have hl := runLimit_start h128
  rcases Nat.eq_or_lt_of_le h1 with rfl | h2
  · rw [runAt_single hl]
    rfl
  · have hnone : (List.range' 1 (n - 2)).find?
        (fun j => pixOf 1 (distinctRow n) (0 + j) == pixOf 1 (distinctRow n) (0 + j + 1)) = none := by
      rw [List.find?_eq_none]
      intro j hj
      have hj := List.mem_range'_1.1 hj
      simpa using pixOf_distinctRow_ne (i := j) (by omega)
    rw [runAt_literal (by omega) (pixOf_distinctRow_ne h2), hl, hnone]
    rfl

theorem pixOf_replicate {n i : Nat} (b : Byte) (hi : i < n) : pixOf 1 (List.replicate n b) i = [b] := by
  rw [pixOf_one (by simpa using hi), List.getElem_replicate]

/-- A row of 2 to 128 equal pixels is one repeat packet (R114). -/
theorem runInstr_replicate {n : Nat} (h2 : 2 ≤ n) (h128 : n ≤ 128) (b : Byte) :
    runInstr (runAt n 1 (List.replicate n b) 0) = .rep n := by
  have hl := runLimit_start h128
  have hall : (List.range n).takeWhile
      (fun j => pixOf 1 (List.replicate n b) (0 + j) == pixOf 1 (List.replicate n b) 0) = List.range n := by
    rw [List.takeWhile_eq_self_iff]
    intro j hj
    rw [Nat.zero_add, pixOf_replicate b (List.mem_range.1 hj), pixOf_replicate b (by omega), beq_self_eq_true]
  have heq : pixOf 1 (List.replicate n b) 0 = pixOf 1 (List.replicate n b) (0 + 1) := by
    rw [pixOf_replicate b (by omega), pixOf_replicate b (by omega)]
  rw [runAt_repeating (by omega) heq, hl, hall, List.length_range]
  rfl

/-- Every header byte but 0x80 is the header of an image of one row: a literal of differing pixels, or a repeat of at least 2
equal ones (R87). -/
theorem exists_image_of_header {b : Byte} (hb : b ≠ 0x80#8) :
    ∃ (w : Nat) (buf : List Byte), 1 ≤ w ∧ w ≤ 32767 ∧ buf.length = w * 1 * 1 ∧
      (encodeImage w 1 1 buf).head? = some b := by
  have hlt := b.isLt
  have hb : b.toNat ≠ 128 := fun he => hb (BitVec.eq_of_toNat_eq he)
  rcases Nat.lt_or_ge b.toNat 128 with h | h
  · refine ⟨b.toNat + 1, distinctRow (b.toNat + 1), by omega, by omega, by simp, ?_⟩
    rw [encodeImage_head? (by omega) le_rfl, runInstr_distinctRow (by omega) (by omega)]
    exact congrArg some (BitVec.eq_of_toNat_eq (encodeByte_lit_toNat (by omega)))
  · refine ⟨b.toNat - 127, List.replicate (b.toNat - 127) 0, by omega, by omega, by simp, ?_⟩
    rw [encodeImage_head? (by omega) le_rfl, runInstr_replicate (by omega) (by omega)]
    refine congrArg some (BitVec.eq_of_toNat_eq ?_)
    rw [encodeByte_rep_toNat (by omega)]
    omega

/-- Settles O34: every scan and every packet has an emittable run, and every other byte its image. -/
theorem encoderEmitsEveryHeaderButRepeatOfOne : Obligations.EncoderEmitsEveryHeaderButRepeatOfOne := by
  refine ⟨fun pixEq w cur => ?scan, fun w bpp c buf hw => ?packet, fun b hb => exists_image_of_header hb,
    decodeHeader_of_ge le_rfl⟩
  case scan =>
    obtain ⟨hrun, heq⟩ := scanRun_emittable pixEq w cur
    exact ⟨hrun.header_ne, fun hm => ⟨heq hm, hrun.two_le hm, hrun.header_repeating hm⟩, hrun.header_single⟩
  case packet =>
    have hrun := runAt_emittable hw bpp buf c
    rw [packetAt_head? hrun.one_le]
    exact fun he => hrun.header_ne (Option.some.inj he)

/-! ### Commands that change nothing -/

/-- A reserved value written to `CMD` changes nothing (R91). -/
theorem writeCommand_reserved {v : Byte} (h : v ≠ 0x01#8 ∧ v ≠ 0x02#8) (s : State) : writeCommand v s = .next s := by
  simp [writeCommand, decodeCommand, h]

/-- A value that decodes is one of the two commands (R90). -/
theorem decodeCommand_ok {v : Byte} {i : Instr} (h : decodeCommand v = .ok i) : i = .encStart ∨ i = .decStart := by
  unfold decodeCommand at h
  split_ifs at h <;> cases h
  · exact .inl rfl
  · exact .inr rfl

/-- While an operation runs, no value written to `CMD` changes anything (R237). -/
theorem writeCommand_busy {s : State} (hb : s.busy = true) (v : Byte) : writeCommand v s = .next s := by
  unfold writeCommand
  cases hd : decodeCommand v with
  | error e => rfl
  | ok i => rcases decodeCommand_ok hd with rfl | rfl <;> exact if_pos hb

/-- Settles O17: a reserved value at any time, and any value while busy. -/
theorem reservedOrBusyCommandChangesNothing : Obligations.ReservedOrBusyCommandChangesNothing := by
  rintro s v rest hh (hv | hb)
  · exact (step_move hh).trans (writeCommand_reserved hv _)
  · exact (step_move hh).trans (writeCommand_busy (s := s.withHost rest) hb v)

end Sys2Proof.Machine
end

section
/-! PROOFS. The run that the encoder's loop finds is the run of the closed form, it depends on nothing but its own row, and with
that O32 and O33. -/

namespace Sys2Proof.Machine

/-! ### The loop finds the closed form -/

/-- The length of a leading part of `range n` on which a test holds, and which it ends (R114). -/
theorem length_takeWhile_range_eq {p : Nat → Bool} {n r : Nat} (hr : r ≤ n) (hall : ∀ j < r, p j = true)
    (hstop : r < n → p r = false) : ((List.range n).takeWhile p).length = r := by
  obtain ⟨k, rfl⟩ := Nat.exists_eq_add_of_le hr
  rw [List.range_add, List.takeWhile_append_of_pos fun j hj => hall j (List.mem_range.1 hj), List.length_append,
    List.length_range]
  cases k with
  | zero => rfl
  | succ k => simp [List.range_succ_eq_map, hstop (by omega)]

/-- Neighbours that are all equal are all equal to the first. -/
theorem eq_first_of_neighbours_eq {α : Type} {f : Nat → α} {r : Nat} (h : ∀ j, 1 ≤ j → j < r → f (j - 1) = f j) :
    ∀ j < r, f j = f 0
  | 0, _ => rfl
  | j + 1, hj => (h (j + 1) (by omega) hj).symm.trans (eq_first_of_neighbours_eq h j (by omega))

/-- `PixEq` of a byte sequence: the comparison of two pixels (R10, R114). -/
def pixOfEq (bpp : Nat) (buf : List Byte) (i j : Nat) : Bool := pixOf bpp buf i == pixOf bpp buf j

theorem pixOfEq_iff {bpp i j : Nat} {buf : List Byte} : pixOfEq bpp buf i j = true ↔ pixOf bpp buf i = pixOf bpp buf j :=
  beq_iff_eq

/-- The extension loop and the closed form give the same run: a single pixel, a repeat run up to the first differing pixel, or a
literal run up to the pixel before the next equal pair (R109, R114). -/
theorem scanRun_eq_runAt {w : Nat} (hw : 1 ≤ w) (bpp : Nat) (buf : List Byte) (c : Nat) :
    scanRun (pixOfEq bpp buf) w c = runAt w bpp buf c := by
  rcases scanRun_cases (pixOfEq bpp buf) hw c with ⟨hl, e⟩ | ⟨hl, heq, r, e, h2, hr, hall, hstop⟩ |
    ⟨hl, hne, r, e, h1, hr, hall, hstop⟩ <;> rw [e]
  case inl => exact (runAt_single hl).symm
  case inr.inl =>
    have hfirst : ∀ j < r, pixOf bpp buf (c + j) = pixOf bpp buf c :=
      eq_first_of_neighbours_eq (f := fun j => pixOf bpp buf (c + j)) fun j h1 hj => by
        rw [← Nat.add_sub_assoc h1]
        exact pixOfEq_iff.1 (hall j h1 hj)
    rw [runAt_repeating (by omega) (pixOfEq_iff.1 heq), length_takeWhile_range_eq hr fun j hj => beq_iff_eq.2 (hfirst j hj)]
    intro hlt
    have hlast := hstop hlt
    rwa [pixOfEq, Nat.add_sub_assoc (by omega), hfirst (r - 1) (by omega), Bool.beq_comm] at hlast
  case inr.inr =>
    have hne : pixOf bpp buf c ≠ pixOf bpp buf (c + 1) := fun h => by rw [pixOfEq_iff.2 h] at hne; cases hne
    rw [runAt_literal (by omega) hne]
    rcases Nat.eq_or_lt_of_le hr with rfl | hlt
    · rw [List.find?_eq_none.2]
      · rfl
      · intro j hj
        have hj := List.mem_range'_1.1 hj
        exact Bool.eq_false_iff.1 (hall j hj.1 (by omega) (by omega))
    · obtain ⟨hlt, heq⟩ := hstop hlt
      rw [List.find?_range'_eq_some.2]
      · rfl
      · refine ⟨heq, List.mem_range'_1.2 ⟨h1, by omega⟩, fun j hj hjr => ?_⟩
        exact congrArg not (hall j hj hjr (by omega))

/-- Settles O32: the loop's three outcomes are the three clauses of the closed form. -/
theorem scanFindsTheClosedFormRun : Obligations.ScanFindsTheClosedFormRun :=
  fun _ bpp c buf hw => scanRun_eq_runAt hw bpp buf c

/-! ### The bounds of a run -/

/-- A run of the closed form has at least one pixel and stays in its row (R112, R114). -/
theorem runAt_bounds {w : Nat} (hw : 1 ≤ w) (bpp : Nat) (buf : List Byte) (c : Nat) :
    1 ≤ (runAt w bpp buf c).2 ∧ (runAt w bpp buf c).2 ≤ runLimit w c := by
  rw [← scanRun_eq_runAt hw]
  exact scanRun_bounds _ hw c

/-- A run of the closed form that begins in the image ends in it (R112). -/
theorem runAt_le_left {w h c : Nat} (hw : 1 ≤ w) (hc : c < w * h) (bpp : Nat) (buf : List Byte) :
    c + (runAt w bpp buf c).2 ≤ w * h :=
  (Nat.add_le_add_left (runAt_bounds hw bpp buf c).2 c).trans (runLimit_le_left hc)

/-- A run within its limit stays in its row (R103). -/
theorem mod_add_runLimit_le {w : Nat} (hw : 1 ≤ w) (c : Nat) : c % w + runLimit w c ≤ w := by
  have := Nat.mod_lt c hw
  unfold runLimit leftInRow
  omega

/-- Settles O33: the run's own bounds, and its limit, which is the end of the row. -/
theorem runStaysInItsRow : Obligations.RunStaysInItsRow := by
  intro s hc hp
  obtain ⟨h1, h128, hn⟩ := run_bounds hc hp
  obtain ⟨⟨hw, -⟩, -⟩ := (Cfg.legal_iff _).1 hc
  have hlim : s.run.2 ≤ runLimit s.cfg.w s.enc.curPix := (scanRun_bounds _ hw _).2
  exact ⟨h1, h128, (Nat.add_le_add_left hlim _).trans (mod_add_runLimit_le hw _), hn⟩

/-! ### A run depends on its own row alone -/

/-- The loop compares neighbours of its row from the run's first pixel on and nothing else (R104, R112). -/
theorem scanLoop_congr {e e' : Nat → Nat → Bool} {w c c' : Nat} (hm : c % w = c' % w)
    (he : ∀ j, j + 1 < runLimit w c → e (c + j) (c + j + 1) = e' (c' + j) (c' + j + 1)) (fuel : Nat) (m : Mode) {r : Nat}
    (h1 : 1 ≤ r) : scanLoop e w c fuel m r = scanLoop e' w c' fuel m r := by
  induction fuel generalizing m r with
  | zero => rfl
  | succ fuel ih =>
    rw [scanLoop, scanLoop, ← hm]
    by_cases hg : r < Config.maxChunk ∧ c % w + r < w
    · have hpair : e (c + r - 1) (c + r) = e' (c' + r - 1) (c' + r) := by
        obtain ⟨k, rfl⟩ := Nat.exists_eq_add_of_le' h1
        exact he k (scan_guard_iff.1 hg)
      simp only [if_pos hg, hpair, ih _ (Nat.le_add_left 1 r)]
    · rw [if_neg hg, if_neg hg]

theorem scanRun_congr {e e' : Nat → Nat → Bool} {w c c' : Nat} (hm : c % w = c' % w)
    (he : ∀ j, j + 1 < runLimit w c → e (c + j) (c + j + 1) = e' (c' + j) (c' + j + 1)) :
    scanRun e w c = scanRun e' w c' :=
  scanLoop_congr hm he _ _ le_rfl

/-- Two places at the same column whose rows go on with the same pixels have the same run (R112, R115). -/
theorem runAt_congr {w bpp c c' : Nat} {buf buf' : List Byte} (hw : 1 ≤ w) (hm : c % w = c' % w)
    (hp : ∀ j < runLimit w c, pixOf bpp buf (c + j) = pixOf bpp buf' (c' + j)) :
    runAt w bpp buf c = runAt w bpp buf' c' := by
  rw [← scanRun_eq_runAt hw, ← scanRun_eq_runAt hw]
  refine scanRun_congr hm fun j hj => ?_
  rw [pixOfEq, pixOfEq, Nat.add_assoc, Nat.add_assoc, hp j (by omega), hp (j + 1) hj]

end Sys2Proof.Machine
end

section
/-! PROOFS. The encoder as a function, packet by packet and row by row, the length of an encoding, and with that O40 and O39. -/

namespace Sys2Proof.Machine

open Sys2Proof.Codec

/-! ### One packet -/

/-- The packet of the closed form is the header byte of its run and that many bytes of the image (R84, R114). -/
theorem packetAt_eq {w : Nat} (hw : 1 ≤ w) (bpp : Nat) (buf : List Byte) (c : Nat) :
    packetAt w bpp buf c = encodeByte (runInstr (runAt w bpp buf c)) ::
      (buf.drop (pixAddr bpp c)).take (payloadLength bpp (runInstr (runAt w bpp buf c))) := by
  have h1 := (runAt_bounds hw bpp buf c).1
  unfold packetAt
  by_cases hm : (runAt w bpp buf c).1 = .repeating
  · simp only [if_pos hm, runInstr_repeating hm, encodeByte, payloadLength, pixOf, pixAddr]
    congr 2
    omega
  · simp only [if_neg hm, runInstr_of_ne_repeating hm, encodeByte, payloadLength, pixAddr]

/-- The payload of a run is at least one pixel and at most the pixels it stands for (R83). -/
theorem EmittableRun.payload_bounds {run : Mode × Nat} (h : EmittableRun run) (bpp : Nat) :
    bpp ≤ payloadLength bpp (runInstr run) ∧ payloadLength bpp (runInstr run) ≤ run.2 * bpp := by
  have hle : bpp ≤ run.2 * bpp := Nat.le_mul_of_pos_left bpp h.one_le
  by_cases hm : run.1 = .repeating
  · rw [runInstr_repeating hm]
    exact ⟨le_rfl, hle⟩
  · rw [runInstr_of_ne_repeating hm]
    exact ⟨hle, le_rfl⟩

/-- A packet is no longer than a header and the pixels it stands for (R115). -/
theorem length_packetAt_le {w : Nat} (hw : 1 ≤ w) (bpp : Nat) (buf : List Byte) (c : Nat) :
    (packetAt w bpp buf c).length ≤ 1 + (runAt w bpp buf c).2 * bpp := by
  have hpay := ((runAt_emittable hw bpp buf c).payload_bounds bpp).2
  rw [packetAt_eq hw, List.length_cons, List.length_take]
  omega

/-- The pixels of a run lie in the image (R112). -/
theorem run_bytes_le {w h bpp c : Nat} {buf : List Byte} (hw : 1 ≤ w) (hc : c < w * h) :
    c * bpp + (runAt w bpp buf c).2 * bpp ≤ w * h * bpp := by
  rw [← Nat.add_mul]
  exact Nat.mul_le_mul_right bpp (runAt_le_left hw hc bpp buf)

/-- A packet of an image is at least a header and one pixel (R115). -/
theorem le_length_packetAt {w h bpp c : Nat} {buf : List Byte} (hw : 1 ≤ w) (hc : c < w * h)
    (hbuf : buf.length = w * h * bpp) : 1 + bpp ≤ (packetAt w bpp buf c).length := by
  obtain ⟨hpay, hle⟩ := (runAt_emittable hw bpp buf c).payload_bounds bpp
  have hin := run_bytes_le (bpp := bpp) (buf := buf) hw hc
  rw [packetAt_eq hw, List.length_cons, List.length_take, List.length_drop, hbuf, pixAddr]
  omega

/-! ### The rest of an encoding, from a pixel on -/

/-- The packets from pixel `c` to the end of the image: `Encode from c` with just enough fuel (R114). -/
def encodeTail (w h bpp : Nat) (buf : List Byte) (c : Nat) : List Byte := encodeFrom w h bpp buf (w * h - c) c

/-- An encoding is its packets from the first pixel on (R114). -/
theorem encodeImage_eq_encodeTail (w h bpp : Nat) (buf : List Byte) :
    encodeImage w h bpp buf = encodeTail w h bpp buf 0 := rfl

theorem encodeFrom_of_le {w h c : Nat} (hc : w * h ≤ c) (bpp : Nat) (buf : List Byte) (fuel : Nat) :
    encodeFrom w h bpp buf fuel c = [] := by
  cases fuel with
  | zero => rfl
  | succ fuel => exact if_pos hc

/-- Fuel for every pixel that is left is enough (R101). -/
theorem encodeFrom_fuel {w h : Nat} (hw : 1 ≤ w) (bpp : Nat) (buf : List Byte) {c f f' : Nat} (hf : w * h ≤ c + f)
    (hf' : w * h ≤ c + f') : encodeFrom w h bpp buf f c = encodeFrom w h bpp buf f' c := by
  induction f generalizing c f' with
  | zero =>
    have hc : w * h ≤ c := hf
    rw [encodeFrom_of_le hc, encodeFrom_of_le hc]
  | succ f ih =>
    by_cases hc : w * h ≤ c
    · rw [encodeFrom_of_le hc, encodeFrom_of_le hc]
    · obtain ⟨k, rfl⟩ : ∃ k, f' = k + 1 := Nat.exists_eq_add_of_le' (by omega)
      have h1 := (runAt_bounds hw bpp buf c).1
      rw [encodeFrom, encodeFrom, ih (by omega) (f' := k) (by omega)]

/-- At the end of the image no packet is left (R101). -/
theorem encodeTail_of_le {w h c : Nat} (hc : w * h ≤ c) (bpp : Nat) (buf : List Byte) : encodeTail w h bpp buf c = [] :=
  encodeFrom_of_le hc bpp buf _

/-- Before the end of the image the packet at `c` comes first, then the packets from the end of its run on (R114). -/
theorem encodeTail_of_lt {w h c : Nat} (hw : 1 ≤ w) (hc : c < w * h) (bpp : Nat) (buf : List Byte) :
    encodeTail w h bpp buf c = packetAt w bpp buf c ++ encodeTail w h bpp buf (c + (runAt w bpp buf c).2) := by
  have h1 := (runAt_bounds hw bpp buf c).1
  obtain ⟨f, hf⟩ : ∃ f, w * h - c = f + 1 := Nat.exists_eq_add_of_le' (by omega)
  rw [encodeTail, hf, encodeFrom, if_neg (by omega), encodeTail]
  congr 1
  exact encodeFrom_fuel hw bpp buf (by omega) (by omega)

/-- Induction over the packets of an image: what holds at its end, and before a packet when it holds after it, holds at every
pixel. -/
theorem packet_induction {w : Nat} (hw : 1 ≤ w) (h bpp : Nat) (buf : List Byte) {P : Nat → Prop}
    (done : ∀ c, w * h ≤ c → P c) (packet : ∀ c, c < w * h → P (c + (runAt w bpp buf c).2) → P c) (c : Nat) : P c := by
  induction hn : w * h - c using Nat.strong_induction_on generalizing c with
  | _ n ih =>
    rcases Nat.lt_or_ge c (w * h) with hc | hc
    · have h1 := (runAt_bounds hw bpp buf c).1
      exact packet c hc (ih _ (by omega) _ rfl)
    · exact done c hc

/-! ### Row by row -/

/-- The bytes of a row taken alone stand in the image after the rows before it (R51, R115). -/
theorem take_drop_rowOf {w bpp x n : Nat} (y : Nat) (buf : List Byte) (hn : x * bpp + n ≤ w * bpp) :
    ((rowOf (w * bpp) y buf).drop (x * bpp)).take n = (buf.drop ((y * w + x) * bpp)).take n := by
  rw [rowOf, List.drop_take, List.take_take, List.drop_drop, Nat.min_eq_left (by omega),
    show y * (w * bpp) + x * bpp = (y * w + x) * bpp by ring]

theorem pixOf_rowOf {w x : Nat} (hx : x < w) (bpp y : Nat) (buf : List Byte) :
    pixOf bpp (rowOf (w * bpp) y buf) x = pixOf bpp buf (y * w + x) :=
  take_drop_rowOf y buf (by rw [← Nat.succ_mul]; exact Nat.mul_le_mul_right bpp hx)

/-- A row taken alone has the runs it has in the image (R115). -/
theorem runAt_rowOf {w x : Nat} (hx : x < w) (bpp y : Nat) (buf : List Byte) :
    runAt w bpp (rowOf (w * bpp) y buf) x = runAt w bpp buf (y * w + x) := by
  have hw : 1 ≤ w := Nat.one_le_of_lt hx
  have hlim := mod_add_runLimit_le hw x
  rw [Nat.mod_eq_of_lt hx] at hlim
  refine runAt_congr hw (Nat.mul_add_mod_self_right y w x).symm fun j hj => ?_
  rw [pixOf_rowOf (by omega), Nat.add_assoc]

/-- A run that begins in a row of its own ends in it (R112). -/
theorem add_runAt_le {w x : Nat} (hx : x < w) (bpp : Nat) (buf : List Byte) : x + (runAt w bpp buf x).2 ≤ w := by
  have h := runAt_le_left (h := 1) (Nat.one_le_of_lt hx) (by omega : x < w * 1) bpp buf
  omega

/-- A row taken alone has the packets it has in the image (R115). -/
theorem packetAt_rowOf {w x : Nat} (hx : x < w) (bpp y : Nat) (buf : List Byte) :
    packetAt w bpp (rowOf (w * bpp) y buf) x = packetAt w bpp buf (y * w + x) := by
  have hw : 1 ≤ w := Nat.one_le_of_lt hx
  have hpay := ((runAt_emittable hw bpp (rowOf (w * bpp) y buf) x).payload_bounds bpp).2
  have hin := Nat.mul_le_mul_right bpp (add_runAt_le hx bpp (rowOf (w * bpp) y buf))
  rw [Nat.add_mul] at hin
  rw [packetAt_eq hw, packetAt_eq hw, pixAddr, pixAddr, take_drop_rowOf y buf (by omega), runAt_rowOf hx]

/-- From a place in a row on, the packets are those of the row taken alone, then those of the rows after it (R115). -/
theorem encodeTail_in_row {w h y : Nat} (hw : 1 ≤ w) (hy : y < h) (bpp : Nat) (buf : List Byte) (x : Nat) (hx : x ≤ w) :
    encodeTail w h bpp buf (y * w + x) =
      encodeTail w 1 bpp (rowOf (w * bpp) y buf) x ++ encodeTail w h bpp buf ((y + 1) * w) := by
  induction x using packet_induction hw 1 bpp (rowOf (w * bpp) y buf) with
  | done x hend =>
    obtain rfl : x = w := by omega
    rw [encodeTail_of_le hend, Nat.succ_mul, List.nil_append]
  | packet x hlt ih =>
    have hxw : x < w := by omega
    have hin : y * w + x < w * h := by
      calc y * w + x < (y + 1) * w := by rw [Nat.succ_mul]; omega
        _ ≤ w * h := by rw [Nat.mul_comm w h]; exact Nat.mul_le_mul_right w hy
    have hrest := ih (add_runAt_le hxw bpp _)
    rw [encodeTail_of_lt hw hin, encodeTail_of_lt hw hlt, packetAt_rowOf hxw, List.append_assoc, ← hrest,
      runAt_rowOf hxw, Nat.add_assoc]

/-- An encoding is that of its first rows, each taken alone, then the packets of the rest (R115). -/
theorem encodeImage_rows {w h : Nat} (hw : 1 ≤ w) (bpp : Nat) (buf : List Byte) {k : Nat} (hk : k ≤ h) :
    encodeImage w h bpp buf =
      (List.range k).flatMap (fun y => encodeImage w 1 bpp (rowOf (w * bpp) y buf)) ++
        encodeTail w h bpp buf (k * w) := by
  induction k with
  | zero => rw [Nat.zero_mul]; rfl
  | succ k ih =>
    have hrow := encodeTail_in_row hw hk bpp buf 0 (Nat.zero_le w)
    rw [ih (by omega), List.range_succ, List.flatMap_append, List.append_assoc, List.flatMap_singleton,
      encodeImage_eq_encodeTail w 1, ← hrow, Nat.add_zero]

/-- An encoding is that of all its rows, each taken alone (R115). -/
theorem encodeImage_eq_flatMap_rows {w : Nat} (hw : 1 ≤ w) (h bpp : Nat) (buf : List Byte) :
    encodeImage w h bpp buf = (List.range h).flatMap fun y => encodeImage w 1 bpp (rowOf (w * bpp) y buf) := by
  rw [encodeImage_rows hw bpp buf le_rfl, encodeTail_of_le (Nat.mul_comm w h).le, List.append_nil]

/-- Settles O40: no run leaves its row, so the packets of each row are those of the row taken alone. -/
theorem encodingIsRowByRow : Obligations.EncodingIsRowByRow :=
  fun _ h bpp buf hw _ _ => encodeImage_eq_flatMap_rows hw h bpp buf

/-! ### The length of an encoding -/

/-- From a pixel on an encoding has at most one header for every pixel beside the pixels' own bytes (R115). -/
theorem length_encodeTail_le {w : Nat} (hw : 1 ≤ w) (h bpp : Nat) (buf : List Byte) (c : Nat) :
    (encodeTail w h bpp buf c).length ≤ (w * h - c) * (bpp + 1) := by
  induction c using packet_induction hw h bpp buf with
  | done c hend => rw [encodeTail_of_le hend]; exact Nat.zero_le _
  | packet c hlt ih =>
    have h1 := (runAt_bounds hw bpp buf c).1
    have hlen := length_packetAt_le hw bpp buf c
    have hsplit : w * h - c = (runAt w bpp buf c).2 + (w * h - (c + (runAt w bpp buf c).2)) := by
      have := runAt_le_left hw hlt bpp buf
      omega
    rw [encodeTail_of_lt hw hlt, List.length_append, hsplit, Nat.add_mul, Nat.mul_succ (runAt w bpp buf c).2]
    omega

/-- From a pixel of a row on an encoding has at least a header and a pixel for every 128 pixels (R115). -/
theorem le_length_encodeTail_row {w bpp : Nat} (hw : 1 ≤ w) {row : List Byte} (hrow : row.length = w * 1 * bpp) (x : Nat) :
    (w - x + 127) / 128 * (1 + bpp) ≤ (encodeTail w 1 bpp row x).length := by
  induction x using packet_induction hw 1 bpp row with
  | done x hend =>
    rw [show (w - x + 127) / 128 = 0 by omega, Nat.zero_mul]
    exact Nat.zero_le _
  | packet x hlt ih =>
    have hlen := le_length_packetAt hw hlt hrow
    have h128 := (runAt_emittable hw bpp row x).le_max
    have hcount : (w - x + 127) / 128 ≤ (w - (x + (runAt w bpp row x).2) + 127) / 128 + 1 := by omega
    have hmul := Nat.mul_le_mul_right (1 + bpp) hcount
    rw [Nat.succ_mul] at hmul
    rw [encodeTail_of_lt hw hlt, List.length_append]
    omega

/-- A row inside the image has all its bytes (R51). -/
theorem length_rowOf {w h bpp y : Nat} {buf : List Byte} (hy : y < h) (hbuf : buf.length = w * h * bpp) :
    (rowOf (w * bpp) y buf).length = w * bpp := by
  have hin : y * (w * bpp) + w * bpp ≤ w * h * bpp := by
    calc y * (w * bpp) + w * bpp = (y + 1) * (w * bpp) := (Nat.succ_mul ..).symm
      _ ≤ h * (w * bpp) := Nat.mul_le_mul_right _ hy
      _ = w * h * bpp := by ring
  rw [rowOf, List.length_take, List.length_drop, hbuf]
  omega

/-- Settles O39: at most a header for every pixel, and at least a header and a pixel for every 128 pixels of each row. -/
theorem encodingLengthBounds : Obligations.EncodingLengthBounds := by
  intro w h bpp buf hw _ hbuf
  refine ⟨?upper, ?lower⟩
  case upper =>
    have hle := length_encodeTail_le hw h bpp buf 0
    rwa [Nat.sub_zero, Nat.mul_succ] at hle
  case lower =>
    have hrow : ∀ n ∈ (List.range h).map fun y => (encodeImage w 1 bpp (rowOf (w * bpp) y buf)).length,
        (w + 127) / 128 * (1 + bpp) ≤ n := by
      intro n hn
      obtain ⟨y, hy, rfl⟩ := List.mem_map.1 hn
      exact le_length_encodeTail_row hw (by rw [length_rowOf (List.mem_range.1 hy) hbuf, Nat.mul_one]) 0
    have hsum := List.card_nsmul_le_sum _ _ hrow
    rw [List.length_map, List.length_range, smul_eq_mul] at hsum
    rw [encodeImage_eq_flatMap_rows hw, List.length_flatMap, Nat.mul_assoc]
    exact hsum

end Sys2Proof.Machine
end

section
/-! PROOFS. The encoder's step over a written image, the run of a whole encode step by step, and with that O35, O36 and O38. -/

namespace Sys2Proof.Machine

/-! ### A running encode over a written image -/

/-- Part of the bytes read from 0 on is what a read of that part answers (R53). -/
theorem Mem.readN_part {m : Mem} {n a k : Nat} {buf : List Byte} (h : m.readN 0 n = some buf) (hk : a + k ≤ n) :
    m.readN a k = some ((buf.drop a).take k) := by
  obtain ⟨hlen, hread⟩ := Mem.readN_eq_some.1 h
  refine Mem.readN_eq_some.2 ⟨by rw [List.length_take, List.length_drop]; omega, fun i hi => ?_⟩
  rw [List.getElem?_take_of_lt hi, List.getElem?_drop, ← hread (a + i) (by omega), Nat.zero_add]

/-- A written range is read as some bytes (R53, R238). -/
theorem Mem.exists_readN_of_written {m : Mem} {a n : Nat} (h : m.written a n = true) : ∃ buf, m.readN a n = some buf :=
  Option.isSome_iff_exists.1 h

/-- A running encode with a pixel to go whose image holds the bytes `buf` (R109, R112). -/
structure State.EncodesImage (s : State) (buf : List Byte) : Prop where
  running : s.status.state = .busyEnc
  legal : s.cfg.legal = true
  inside : s.enc.curPix < s.cfg.npix
  image : s.pixbuf.readN 0 s.cfg.nbytes = some buf

namespace State.EncodesImage

variable {s : State} {buf : List Byte}

theorem ready (h : s.EncodesImage buf) : s.encReady = true := (encReady_iff s).2 ⟨h.running, h.legal, h.inside⟩

theorem one_le_width (h : s.EncodesImage buf) : 1 ≤ s.cfg.w := ((Cfg.legal_iff _).1 h.legal).1.1

/-- Bytes of pixels that lie in the image are read as the bytes of `buf` (R51, R53). -/
theorem readN_pixels (h : s.EncodesImage buf) {i k n : Nat} (hi : i + k ≤ s.cfg.npix) (hn : n ≤ k * s.cfg.bytesPerPixel) :
    s.pixbuf.readN (pixAddr s.cfg.bytesPerPixel i) n = some ((buf.drop (pixAddr s.cfg.bytesPerPixel i)).take n) := by
  have hle : (i + k) * s.cfg.bytesPerPixel ≤ s.cfg.nbytes := Nat.mul_le_mul_right _ hi
  rw [Nat.add_mul] at hle
  exact Mem.readN_part h.image (by rw [pixAddr]; omega)

/-- A pixel of the image is the pixel of `buf` (R10, R114). -/
theorem pix_eq (h : s.EncodesImage buf) {i : Nat} (hi : i < s.cfg.npix) :
    s.pixbuf.pix s.cfg.bytesPerPixel i = some (pixOf s.cfg.bytesPerPixel buf i) :=
  h.readN_pixels (k := 1) hi (Nat.one_mul _).ge

/-- From `CURPIX` the run's limit is within the image (R112). -/
theorem add_runLimit_le (h : s.EncodesImage buf) : s.enc.curPix + runLimit s.cfg.w s.enc.curPix ≤ s.cfg.npix :=
  runLimit_le_left h.inside

/-- The scan over the pixel memory finds the run of the closed form over `buf` (R109, R114). -/
theorem run_eq (h : s.EncodesImage buf) : s.run = runAt s.cfg.w s.cfg.bytesPerPixel buf s.enc.curPix := by
  rw [← scanRun_eq_runAt h.one_le_width]
  refine scanRun_congr rfl fun j hj => ?_
  have hlim := h.add_runLimit_le
  rw [Mem.pixEq, h.pix_eq (by omega), h.pix_eq (by omega)]
  rfl

/-- The packet at `CURPIX` is the packet of the closed form (R110, R111, R114). -/
theorem packetBytes_eq (h : s.EncodesImage buf) :
    s.packetBytes = some (packetAt s.cfg.w s.cfg.bytesPerPixel buf s.enc.curPix) := by
  have hpay := ((runAt_emittable h.one_le_width s.cfg.bytesPerPixel buf s.enc.curPix).payload_bounds s.cfg.bytesPerPixel).2
  have hin : s.enc.curPix + (runAt s.cfg.w s.cfg.bytesPerPixel buf s.enc.curPix).2 ≤ s.cfg.npix :=
    runAt_le_left h.one_le_width h.inside _ _
  rw [State.packetBytes, h.run_eq, h.readN_pixels hin hpay, packetAt_eq h.one_le_width]
  rfl

/-- Every pixel the scan may read is written (R112, R238). -/
theorem rowWritten (h : s.EncodesImage buf) : s.rowWritten = true := by
  rw [State.rowWritten, Mem.written, h.readN_pixels h.add_runLimit_le le_rfl]
  rfl

end State.EncodesImage

/-! ### The ends of an encoder step -/

/-- A packet written whole is counted (R109, R112). -/
theorem encPacket_of_ok {s : State} {bs : List Byte} {o : OutStream} (hready : s.encReady = true)
    (hrow : s.rowWritten = true) (hbytes : s.packetBytes = some bs) (hout : outWriteN bs s.output = (.ok, o)) :
    encPacket s = .next (s.scanned.withOutput o).advance := by
  simp [encPacket, hready, hrow, hbytes, hout]

/-- A packet that the output does not take whole raises IOFailure (R113). -/
theorem encPacket_of_fail {s : State} {bs : List Byte} {o : OutStream} (hready : s.encReady = true)
    (hrow : s.rowWritten = true) (hbytes : s.packetBytes = some bs) (hout : outWriteN bs s.output = (.fail, o)) :
    encPacket s = .next (failEncode .ioFailure (s.withOutput o)) := by
  simp [encPacket, hready, hrow, hbytes, hout]

/-- Settles O35: the scan finds the run of the closed form, its packet fits `OUT`, and the run is counted. -/
theorem encoderStepEmitsThePacket : Obligations.EncoderStepEmitsThePacket := by
  intro s buf hh hst hc hp himage hroom
  have h : s.EncodesImage buf := ⟨hst, hc, hp, himage⟩
  have hstep := encPacket_of_ok h.ready h.rowWritten h.packetBytes_eq (outWriteN_ok hroom)
  rw [advance_scanned, h.run_eq] at hstep
  refine ⟨_, (step_of_busyEnc hh hst).trans hstep, ⟨rfl, rfl, rfl, rfl, rfl, rfl, rfl⟩, rfl, rfl, rfl, ?_⟩
  simp only [hst]

/-- A packet has its header byte (R80). -/
theorem packetBytes_ne_nil {s : State} {bytes : List Byte} (h : s.packetBytes = some bytes) : bytes ≠ [] := by
  obtain ⟨payload, -, rfl⟩ := Option.map_eq_some_iff.1 h
  exact List.cons_ne_nil _ _

/-- Settles O36: the write that passes the failure point ends the step, and the bytes before it stay. -/
theorem failingOutputRaisesIOFailure : Obligations.FailingOutputRaisesIOFailure := by
  intro s bytes f hh hst hc hp hwritten hbytes hf hlt
  obtain ⟨buf, himage⟩ := Mem.exists_readN_of_written hwritten
  have h : s.EncodesImage buf := ⟨hst, hc, hp, himage⟩
  have hstep := encPacket_of_fail h.ready h.rowWritten hbytes (outWriteN_fail hf hlt (packetBytes_ne_nil hbytes))
  exact ⟨_, (step_of_busyEnc hh hst).trans hstep, rfl, ⟨rfl, rfl, rfl, rfl, rfl, rfl, rfl⟩, rfl⟩

/-! ### A whole encode -/

/-- No failure point of the output, or one that these bytes do not pass (R59). -/
def OutStream.Fits (o : OutStream) (bs : List Byte) : Prop := ∀ f, o.failAt = some f → o.data.length + bs.length ≤ f

theorem OutStream.Fits.left {o : OutStream} {bs cs : List Byte} (h : o.Fits (bs ++ cs)) : o.Fits bs := by
  intro f hf
  have := h f hf
  rw [List.length_append] at this
  omega

/-- Where two pieces fit, the second fits once the first has been written. -/
theorem OutStream.Fits.right {o o' : OutStream} {bs cs : List Byte} (h : o.Fits (bs ++ cs))
    (hfail : o'.failAt = o.failAt) (hdata : o'.data = o.data ++ bs) : o'.Fits cs := by
  intro f hf
  have := h f (hfail.symm.trans hf)
  rw [List.length_append] at this
  rw [hdata, List.length_append]
  omega

theorem State.encodeFrame.refl (s : State) : s.encodeFrame s := ⟨rfl, rfl, rfl, rfl, rfl, rfl, rfl⟩

theorem State.encodeFrame.trans {s t u : State} (h : s.encodeFrame t) (h' : t.encodeFrame u) : s.encodeFrame u := by
  obtain ⟨hcfg, hdec, hpix, hin, hfail, hhost, hread⟩ := h
  obtain ⟨hcfg', hdec', hpix', hin', hfail', hhost', hread'⟩ := h'
  exact ⟨hcfg'.trans hcfg, hdec'.trans hdec, hpix'.trans hpix, hin'.trans hin, hfail'.trans hfail, hhost'.trans hhost,
    hread'.trans hread⟩

/-- From a state, at most `n` steps reach DONE with `OUT` extended by `bs` and the encoder's frame kept (R101, R216). -/
def State.EncodeEnds (s : State) (n : Nat) (bs : List Byte) : Prop :=
  ∃ k t, k ≤ n ∧ Sys2Proof.core.run k s = .next t ∧ t.status = { state := .done, err := .noError } ∧ s.encodeFrame t ∧
    t.output.data = s.output.data ++ bs

/-- An encode that is DONE has ended. -/
theorem State.EncodeEnds.of_done {s : State} (h : s.status = { state := .done, err := .noError }) (n : Nat) :
    s.EncodeEnds n [] :=
  ⟨0, s, Nat.zero_le n, rfl, h, .refl s, (List.append_nil _).symm⟩

/-- A run of the machine begins with its first step. -/
theorem run_succ {s t : State} (h : step s = .next t) (k : Nat) : Sys2Proof.core.run (k + 1) s = Sys2Proof.core.run k t := by
  have hcore : Sys2Proof.core.step s = .next t := h
  simp only [Host.Core.run, hcore]

/-- An encode ends one step before it ends after that step. -/
theorem State.EncodeEnds.of_step {s t : State} {n m : Nat} {bs cs : List Byte} (h : step s = .next t)
    (hframe : s.encodeFrame t) (hout : t.output.data = s.output.data ++ bs) (hmn : m < n) (ht : t.EncodeEnds m cs) :
    s.EncodeEnds n (bs ++ cs) := by
  obtain ⟨k, u, hk, hrun, hdone, hframe', hout'⟩ := ht
  exact ⟨k + 1, u, by omega, (run_succ h k).trans hrun, hdone, hframe.trans hframe',
    by rw [hout', hout, List.append_assoc]⟩

/-- From any pixel of a written image, and with room for the packets that are left, an encode ends with them written, in at
most as many steps as there are pixels left (R101, R114). -/
theorem encodeEnds_tail {c : Cfg} (hw : 1 ≤ c.w) (buf : List Byte) (cur : Nat) :
    ∀ s : State, s.cfg = c → s.enc.curPix = cur → s.host = [] → s.status.err = .noError → s.EncodesImage buf →
      s.output.Fits (encodeTail c.w c.hgt c.bytesPerPixel buf cur) →
      s.EncodeEnds (c.npix - cur) (encodeTail c.w c.hgt c.bytesPerPixel buf cur) := by
  induction cur using packet_induction hw c.hgt c.bytesPerPixel buf with
  | done cur hend =>
    rintro s rfl rfl - - himage
    exact absurd himage.inside (Nat.not_lt.2 hend)
  | packet cur hlt ih =>
    rintro s rfl rfl hh herr himage hfits
    rw [encodeTail_of_lt hw hlt] at hfits ⊢
    obtain ⟨t, hstep, hframe, -, hout, henc, hst⟩ := encoderStepEmitsThePacket s buf hh himage.running himage.legal
      himage.inside himage.image hfits.left
    have h1 := (runAt_bounds hw s.cfg.bytesPerPixel buf s.enc.curPix).1
    have hlt : s.enc.curPix < s.cfg.npix := himage.inside
    have hin : s.enc.curPix + (runAt s.cfg.w s.cfg.bytesPerPixel buf s.enc.curPix).2 ≤ s.cfg.npix :=
      runAt_le_left hw hlt _ buf
    have hcur : t.enc.curPix = s.enc.curPix + (runAt s.cfg.w s.cfg.bytesPerPixel buf s.enc.curPix).2 := by rw [henc]
    rw [← hcur] at ih hin hfits ⊢
    obtain ⟨hcfg, -, hpix, -, hfail, hhost, -⟩ := id hframe
    refine .of_step hstep hframe hout (show s.cfg.npix - t.enc.curPix < s.cfg.npix - s.enc.curPix by omega) ?_
    rcases Nat.eq_or_lt_of_le hin with hend | hmore
    · rw [encodeTail_of_le hend.ge]
      exact .of_done (by simp only [hst, if_pos hend, herr]) _
    · rw [if_neg (Nat.ne_of_lt hmore)] at hst
      refine ih t hcfg rfl (hhost.trans hh) (by rw [hst]; exact herr) ?_ (hfits.right hfail hout)
      exact ⟨by rw [hst], by rw [hcfg]; exact himage.legal, by rw [hcfg]; exact hmore,
        by rw [hcfg, hpix]; exact himage.image⟩

/-- Settles O38: the encode from its first pixel, by induction over its packets. -/
theorem encodeRunReachesDone : Obligations.EncodeRunReachesDone := by
  intro s buf hh hst hc hcur himage hroom
  have h : s.EncodesImage buf := ⟨by rw [hst], hc, by rw [hcur]; exact (Cfg.npix_bounds hc).1, himage⟩
  exact encodeEnds_tail h.one_le_width buf 0 s rfl hcur hh (by rw [hst]) h hroom

end Sys2Proof.Machine
end

section
/-! PROOFS. What `ENC_START` answers, the progress of both engines, that neither is ever stuck, and with that O22, O37 and O46. -/

namespace Sys2Proof.Machine

/-! ### `ENC_START` -/

/-- The size test in words (R201). -/
theorem Cfg.dimsOk_iff (c : Cfg) : c.dimsOk = true ↔ 1 ≤ c.width.toInt ∧ 1 ≤ c.height.toInt := by
  simp [Cfg.dimsOk]

/-- The format test in words (R202). -/
theorem Cfg.bppOk_iff (c : Cfg) : c.bppOk = true ↔ c.bpp = 1#8 ∨ c.bpp = 3#8 ∨ c.bpp = 4#8 := by
  simp [Cfg.bppOk, or_assoc]

/-- A width or height that is not positive is the first error of a START command (R201, R209). -/
theorem Cfg.startError_of_dims {c : Cfg} (h : ¬ (1 ≤ c.width.toInt ∧ 1 ≤ c.height.toInt)) :
    c.startError = some .invalidDimensions := by
  have hd : c.dimsOk = false := by rwa [← c.dimsOk_iff, Bool.not_eq_true] at h
  simp [Cfg.startError, hd]

/-- A pixel size of another number of bytes is the second (R202, R209). -/
theorem Cfg.startError_of_format {c : Cfg} (hd : 1 ≤ c.width.toInt ∧ 1 ≤ c.height.toInt)
    (hb : ¬ (c.bpp = 1#8 ∨ c.bpp = 3#8 ∨ c.bpp = 4#8)) : c.startError = some .unsupportedFormat := by
  have hd := c.dimsOk_iff.2 hd
  have hb : c.bppOk = false := by rwa [← c.bppOk_iff, Bool.not_eq_true] at hb
  simp [Cfg.startError, hd, hb]

/-- A legal configuration gives no error (R100, R130). -/
theorem Cfg.startError_of_ok {c : Cfg} (hd : 1 ≤ c.width.toInt ∧ 1 ≤ c.height.toInt)
    (hb : c.bpp = 1#8 ∨ c.bpp = 3#8 ∨ c.bpp = 4#8) : c.startError = none :=
  (startError_eq_none_iff c).2 (by rw [Cfg.legal, c.dimsOk_iff.2 hd, c.bppOk_iff.2 hb]; rfl)

/-- While busy `ENC_START` is ignored (R100). -/
theorem execEncStart_of_busy {s : State} (hb : s.busy = true) : execEncStart s = .next s := if_pos hb

/-- An error of the configuration is raised at once (R100, R209). -/
theorem execEncStart_of_error {s : State} {e : ErrKind} (hb : s.busy = false) (he : s.cfg.startError = some e) :
    execEncStart s = .next (raiseError e s) := by
  simp [execEncStart, hb, he]

/-- With a legal configuration over a written image the encode starts (R100, R233). -/
theorem execEncStart_of_written {s : State} (hb : s.busy = false) (he : s.cfg.startError = none)
    (hw : s.pixbuf.written 0 s.cfg.nbytes = true) :
    execEncStart s = .next ((s.withEnc { s.enc with curPix := 0 }).withStatus { state := .busyEnc, err := .noError }) := by
  simp [execEncStart, hb, he, hw]

/-- Settles O22: the four answers of `ENC_START`, by busy and the two tests of the configuration in their order. -/
theorem encStartEffect : Obligations.EncStartEffect := by
  refine fun s => ⟨execEncStart_of_busy, fun hb hd => ?dims, fun hb hw hh hf => ?format, fun hb hw hh hf hmem => ?start⟩
  case dims => exact execEncStart_of_error hb (Cfg.startError_of_dims hd)
  case format => exact execEncStart_of_error hb (Cfg.startError_of_format ⟨hw, hh⟩ (by simpa using hf))
  case start =>
    refine execEncStart_of_written hb (Cfg.startError_of_ok ⟨hw, hh⟩ hf) (Mem.written_iff.2 fun a ha => ?_)
    rw [Nat.zero_add]
    exact hmem a ha

/-! ### Progress -/

/-- A step of the encoder that does not fail moves `CURPIX` past the run, and is DONE exactly at `NPIX` (R101, R112). -/
theorem encPacket_progress {s t : State} (h : encPacket s = .next t) (hne : t.status.state ≠ .error) :
    t.enc.curPix = s.enc.curPix + s.run.2 ∧ (t.status.state = .done ↔ t.enc.curPix = s.cfg.npix) := by
  obtain ⟨hready, -, bs, -, ⟨o, -, rfl⟩ | ⟨o, -, rfl⟩⟩ := encPacket_next h
  · exact absurd rfl hne
  · obtain ⟨hst, -⟩ := (encReady_iff s).1 hready
    rw [advance_scanned]
    exact ⟨rfl, by simp [hst]⟩

/-- A step of the decoder with a header byte that does not fail counts its pixels within `NPIX`, and is DONE exactly there
(R131, R135). -/
theorem decPacket_progress {s t : State} {b : Byte} (hb : s.input.data[s.input.pos]? = some b)
    (h : decPacket s = .next t) (hne : t.status.state ≠ .error) :
    t.dec.count = s.dec.count + headerCount b ∧ t.dec.count ≤ s.cfg.npix ∧
      (t.status.state = .done ↔ t.dec.count = s.cfg.npix) := by
  obtain ⟨hready, -⟩ := decPacket_next h
  obtain ⟨hst, -⟩ := (decReady_iff s).1 hready
  rw [decPacket_of_byte hready hb] at h
  obtain ⟨-, ⟨e, u, rfl, -⟩ | ⟨hcount, hle, hstatus, -⟩⟩ := execPacket_next (decodeHeader_cases b) h
  · exact absurd rfl hne
  · rw [hstatus, hcount]
    exact ⟨rfl, hle, by simp [hst, State.headerTaken]⟩

/-- Settles O37: the encoder's run and the decoder's header count, both within `NPIX`. -/
theorem packetStepsProgressToNpix : Obligations.PacketStepsProgressToNpix := by
  refine fun s t hh h hne => ⟨fun hst => ?encode, fun hst b hb => ?decode⟩
  case encode =>
    rw [step_of_busyEnc hh hst] at h
    obtain ⟨hready, -⟩ := encPacket_next h
    obtain ⟨-, hc, hp⟩ := (encReady_iff s).1 hready
    obtain ⟨h1, h128, hn⟩ := run_bounds hc hp
    obtain ⟨hcur, hdone⟩ := encPacket_progress h hne
    exact ⟨by omega, by omega, by omega, hdone⟩
  case decode =>
    rw [step_of_busyDec hh hst] at h
    exact decPacket_progress hb h hne

/-! ### Never stuck -/

/-- Over a written image the encoder's step always answers a next state, whatever the output does (R112, R113). -/
theorem State.EncodesImage.exists_next {s : State} {buf : List Byte} (h : s.EncodesImage buf) :
    ∃ t, encPacket s = .next t := by
  rcases hout : outWriteN (packetAt s.cfg.w s.cfg.bytesPerPixel buf s.enc.curPix) s.output with ⟨_ | _, o⟩
  · exact ⟨_, encPacket_of_ok h.ready h.rowWritten h.packetBytes_eq hout⟩
  · exact ⟨_, encPacket_of_fail h.ready h.rowWritten h.packetBytes_eq hout⟩

/-- A packet of a running decode always answers a next state (R133, R134). -/
theorem execPacket_exists_next {s : State} (hready : s.decReady = true) (b : Byte) :
    ∃ t, exec (decodeHeader b) s = .next t := by
  rcases decodeHeader_cases b with hb | hb <;> rw [hb]
  · exact ⟨_, if_pos hready⟩
  · exact ⟨_, if_pos hready⟩

/-- With its precondition the decoder's step always answers a next state, whatever the stream does (R138, R139). -/
theorem decPacket_exists_next {s : State} (hready : s.decReady = true) : ∃ t, decPacket s = .next t := by
  cases hb : s.input.data[s.input.pos]? with
  | none => exact ⟨_, decPacket_of_no_byte hready hb⟩
  | some b =>
    rw [decPacket_of_byte hready hb]
    exact execPacket_exists_next (s := s.headerTaken b) hready b

/-- Settles O46: the invariant gives each engine its precondition, and outside an operation the block does nothing. -/
theorem blockIsNeverStuck : Obligations.BlockIsNeverStuck := by
  intro s hs hh
  cases hst : s.status.state with
  | busyEnc =>
    obtain ⟨hc, hp, hwritten⟩ := hs.enc hst
    obtain ⟨buf, himage⟩ := Mem.exists_readN_of_written hwritten
    rw [step_of_busyEnc hh hst]
    exact State.EncodesImage.exists_next ⟨hst, hc, hp, himage⟩
  | busyDec =>
    obtain ⟨hc, hp⟩ := hs.dec hst
    rw [step_of_busyDec hh hst]
    exact decPacket_exists_next ((decReady_iff s).2 ⟨hst, hc, hp⟩)
  | idle | done | error => exact ⟨s, by rw [step_block hh, blockStep, hst]⟩

end Sys2Proof.Machine
end

section
/-! PROOFS. The packet at the head of a byte sequence: either a whole one is there, or the bytes end inside it (R80 to R89). -/

namespace Sys2Proof

/-! ### The pixels of a packet -/

theorem length_cutPixels (bpp n : Nat) (bs : List Byte) : (cutPixels bpp n bs).length = n := by
  induction n generalizing bs with
  | zero => rfl
  | succ n ih => rw [cutPixels, List.length_cons, ih]

/-- The pixels cut off a byte sequence are its leading bytes (R85). -/
theorem flatten_cutPixels (bpp n : Nat) (bs : List Byte) : (cutPixels bpp n bs).flatten = bs.take (n * bpp) := by
  induction n generalizing bs with
  | zero => simp [cutPixels]
  | succ n ih => rw [cutPixels, List.flatten_cons, ih, Nat.succ_mul, Nat.add_comm, List.take_add]

/-- Where the bytes are there, every pixel cut off has `bpp` of them (R80). -/
theorem length_of_mem_cutPixels {bpp n : Nat} {bs : List Byte} (h : n * bpp ≤ bs.length) :
    ∀ p ∈ cutPixels bpp n bs, p.length = bpp := by
  induction n generalizing bs with
  | zero => exact nofun
  | succ n ih =>
    rw [Nat.succ_mul] at h
    refine List.forall_mem_cons.2 ⟨?_, ih ?_⟩
    · rw [List.length_take]
      omega
    · rw [List.length_drop]
      omega

/-- The bytes of a repeated pixel are its own, over and over (R134). -/
theorem getElem?_flatten_replicate {n k : Nat} {p : Pixel} (hk : k < n * p.length) :
    (List.replicate n p).flatten[k]? = p[k % p.length]? := by
  induction n generalizing k with
  | zero => omega
  | succ n ih =>
    rw [Nat.succ_mul] at hk
    rw [List.replicate_succ, List.flatten_cons]
    rcases Nat.lt_or_ge k p.length with hlt | hge
    · rw [List.getElem?_append_left hlt, Nat.mod_eq_of_lt hlt]
    · rw [List.getElem?_append_right hge, ih (by omega), Nat.mod_eq_sub_mod hge]

/-- A well-formed packet stands for 1 to 128 pixels (R82). -/
theorem Packet.length_expand_bounds {bpp : Nat} {p : Packet} (hwf : p.wf bpp = true) :
    1 ≤ p.expand.length ∧ p.expand.length ≤ 128 := by
  cases p with
  | lit ps => exact (Packet.wf_lit_iff.1 hwf).1
  | rep n q =>
    rw [Packet.expand, List.length_replicate]
    exact (Packet.wf_rep_iff.1 hwf).1

/-- The pixels a well-formed packet stands for have `bpp` bytes each (R80). -/
theorem Packet.length_flatten_expand {bpp : Nat} {p : Packet} (hwf : p.wf bpp = true) :
    p.expand.flatten.length = p.expand.length * bpp := by
  refine length_flatten_pixels fun q hq => ?_
  cases p with
  | lit ps => exact (Packet.wf_lit_iff.1 hwf).2 q hq
  | rep n q' =>
    rw [List.eq_of_mem_replicate hq]
    exact (Packet.wf_rep_iff.1 hwf).2

/-- The instruction of a well-formed packet is a literal or a repeat of as many pixels as it stands for (R80). -/
theorem Packet.instr_cases (p : Packet) : p.instr = .lit p.expand.length ∨ p.instr = .rep p.expand.length := by
  cases p with
  | lit ps => exact .inl rfl
  | rep n q => exact .inr (by rw [Packet.expand, List.length_replicate]; rfl)

/-- A payload is at least one pixel (R83). -/
theorem Packet.le_length_payload {bpp : Nat} {p : Packet} (hwf : p.wf bpp = true) : bpp ≤ p.payload.length := by
  rw [Packet.length_payload hwf]
  cases p with
  | lit ps => exact Nat.le_mul_of_pos_left bpp (Packet.wf_lit_iff.1 hwf).1.1
  | rep n q => exact le_rfl

/-! ### The header byte of a packet -/

/-- The decoder reads the header of a well-formed packet as its instruction (R84). -/
theorem Packet.decodeHeader_encodeByte {bpp : Nat} {p : Packet} (hwf : p.wf bpp = true) :
    decodeHeader (encodeByte p.instr) = p.instr := by
  cases p with
  | lit ps =>
    obtain ⟨⟨h1, h128⟩, -⟩ := Packet.wf_lit_iff.1 hwf
    exact decodeHeader_encodeByte_lit h1 h128
  | rep n q =>
    obtain ⟨⟨h1, h128⟩, -⟩ := Packet.wf_rep_iff.1 hwf
    exact decodeHeader_encodeByte_rep h1 h128

/-! ### The packet at the head of a byte sequence -/

/-- The byte at the head of what stands from a position on is the byte at that position. -/
theorem getElem?_of_drop_eq_cons {bs tl : List Byte} {pos : Nat} {h : Byte} (hd : bs.drop pos = h :: tl) :
    bs[pos]? = some h := by
  rw [← List.head?_drop, hd, List.head?_cons]

/-- An instruction whose payload is there is that of a whole packet with that payload (R83). -/
theorem exists_packet_of_payload {bpp n : Nat} {i : Instr} {bs : List Byte} (hi : i = .lit n ∨ i = .rep n)
    (hwf : i.wf = true) (hlen : payloadLength bpp i ≤ bs.length) :
    ∃ (p : Packet) (rest : List Byte), p.wf bpp = true ∧ p.instr = i ∧ bs = p.payload ++ rest := by
  rcases hi with rfl | rfl
  · have hcount := length_cutPixels bpp n bs
    refine ⟨.lit (cutPixels bpp n bs), bs.drop (n * bpp), Packet.wf_lit_iff.2 ⟨?_, length_of_mem_cutPixels hlen⟩, ?_, ?_⟩
    · rw [hcount]
      exact (countOk_iff n).1 hwf
    · rw [Packet.instr, hcount]
    · rw [Packet.payload, flatten_cutPixels, List.take_append_drop]
  · exact ⟨.rep n (bs.take bpp), bs.drop bpp, Packet.wf_rep_iff.2 ⟨(countOk_iff n).1 hwf, List.length_take_of_le hlen⟩, rfl,
      (List.take_append_drop bpp bs).symm⟩

/-- The bytes end before the packet they begin with does: in its payload, or before its header (R89). -/
def CutShort (bpp : Nat) : List Byte → Prop
  | [] => True
  | h :: tl => tl.length < payloadLength bpp (decodeHeader h)

/-- A byte sequence begins with a whole packet, or is cut short (R86, R89). -/
theorem packet_or_cutShort (bpp : Nat) (bs : List Byte) :
    (∃ (p : Packet) (rest : List Byte), p.wf bpp = true ∧ bs = encodePacket p ++ rest) ∨ CutShort bpp bs := by
  cases bs with
  | nil => exact .inr trivial
  | cons h tl =>
    obtain ⟨hwf, -, hbyte⟩ := everyHeaderByteIsAPacket h
    rcases Nat.lt_or_ge tl.length (payloadLength bpp (decodeHeader h)) with hlt | hge
    · exact .inr hlt
    · obtain ⟨p, rest, hp, hinstr, rfl⟩ := exists_packet_of_payload (Machine.decodeHeader_cases h) hwf hge
      exact .inl ⟨p, rest, hp, by rw [encodePacket, hinstr, hbyte]; rfl⟩

end Sys2Proof
end

section
/-! PROOFS. What `DEC_START` answers, whose step a packet is, that the decoder knows no rows, and with that O24, O18, O29 and
O31. -/

namespace Sys2Proof.Machine

/-! ### `DEC_START` -/

/-- While busy `DEC_START` is ignored (R130). -/
theorem execDecStart_of_busy {s : State} (hb : s.busy = true) : execDecStart s = .next s := if_pos hb

/-- An error of the configuration is raised at once (R130, R209). -/
theorem execDecStart_of_error {s : State} {e : ErrKind} (hb : s.busy = false) (he : s.cfg.startError = some e) :
    execDecStart s = .next (raiseError e s) := by
  simp [execDecStart, hb, he]

/-- With a legal configuration the decode starts (R130). -/
theorem execDecStart_of_ok {s : State} (hb : s.busy = false) (he : s.cfg.startError = none) :
    execDecStart s = .next (((s.withDec { s.dec with count := 0 }).withInput s.input.restart).withStatus
      { state := .busyDec, err := .noError }) := by
  simp [execDecStart, hb, he]

/-- What the next decode reads is what the last left unread (R58, log 12). -/
theorem InStream.data_restart (i : InStream) : i.restart.data = i.data.drop i.pos := List.drop_drop.symm

/-- Settles O24: the four answers of `DEC_START`, by busy and the two tests of the configuration in their order. -/
theorem decStartEffect : Obligations.DecStartEffect := by
  refine fun s => ⟨execDecStart_of_busy, fun hb hd => ?dims, fun hb hw hh hf => ?format, fun hb hw hh hf => ?start⟩
  case dims => exact execDecStart_of_error hb (Cfg.startError_of_dims hd)
  case format => exact execDecStart_of_error hb (Cfg.startError_of_format ⟨hw, hh⟩ (by simpa using hf))
  case start =>
    exact ⟨_, execDecStart_of_ok hb (Cfg.startError_of_ok ⟨hw, hh⟩ hf), rfl, rfl, rfl, rfl, rfl, s.input.data_restart, rfl,
      rfl, rfl, rfl, rfl, rfl, rfl⟩

/-! ### Whose step a packet is -/

/-- Settles O18: the byte at `IN.POS` is the header, and the instruction is the one it decodes to. -/
theorem stepRunsThePacketFetched : Obligations.StepRunsThePacketFetched := by
  intro s h i rest hh hst hc hp hdata hdec
  obtain rfl : decodeHeader h = i := by
    rw [decode_packet] at hdec
    cases hdec
    rfl
  rw [step_of_busyDec hh hst, decPacket_of_byte ((decReady_iff s).2 ⟨hst, hc, hp⟩) (getElem?_of_drop_eq_cons hdata)]
  rfl

/-- Settles O29: both packets test the precondition first. -/
theorem packetOutsideDecodeStops : Obligations.PacketOutsideDecodeStops := by
  intro i n s hi hnot
  have hready : ¬ s.decReady = true := by rwa [decReady_iff]
  rcases hi with rfl | rfl
  · exact if_neg hready
  · exact if_neg hready

/-! ### The decoder and the rows -/

/-- Two configurations that are the same to the decoder: legality, number of pixels and pixel size agree (R137). -/
structure Cfg.SamePixels (c c' : Cfg) : Prop where
  legal : c'.legal = c.legal
  npix : c'.npix = c.npix
  bytesPerPixel : c'.bytesPerPixel = c.bytesPerPixel

theorem Cfg.SamePixels.nbytes {c c' : Cfg} (h : c.SamePixels c') : c'.nbytes = c.nbytes := by
  rw [Cfg.nbytes, Cfg.nbytes, h.npix, h.bytesPerPixel]

/-- A change of the state that uses the configuration only for what the decoder knows of it, and keeps it (R137). -/
def IgnoresRows (f : State → State) : Prop :=
  ∀ (s : State) (c : Cfg), s.cfg.SamePixels c → f (s.withCfg c) = (f s).withCfg c

theorem failDecode_ignoresRows (e : ErrKind) : IgnoresRows (failDecode e) := by
  intro s c hc
  simp only [failDecode, raiseError, State.freeDecodeMemory, State.freeDecRegs, State.withCfg, State.withStatus,
    State.withPixbuf, State.withInput, State.withDec, State.drawn, hc.nbytes, hc.bytesPerPixel]

theorem countPacket_ignoresRows (n : Nat) : IgnoresRows fun s => (countPacket n s).settle := by
  intro s c hc
  have hnpix : (s.withCfg c).cfg.npix = s.cfg.npix := hc.npix
  beta_reduce
  rcases Nat.lt_trichotomy (s.dec.count + n) s.cfg.npix with hn | hn | hn
  · rw [countPacket_of_within hn, countPacket_of_within (s := s.withCfg c) (hnpix ▸ hn)]; rfl
  · rw [countPacket_of_end hn, countPacket_of_end (s := s.withCfg c) (hnpix ▸ hn)]; rfl
  · rw [countPacket_of_overrun hn, countPacket_of_overrun (s := s.withCfg c) (hnpix ▸ hn)]
    exact failDecode_ignoresRows .corruptStream (s.counted n) c hc

theorem literalPacket_ignoresRows (n : Nat) : IgnoresRows fun s => (literalPacket n s).settle := by
  intro s c hc
  simp only [literalPacket, State.withCfg_cfg, State.withCfg_dec, State.withCfg_input, State.withCfg_pixbuf, hc.npix,
    hc.bytesPerPixel]
  cases copyPixels s.cfg.bytesPerPixel s.cfg.npix n s.dec.count s.input s.pixbuf with
  | stopped t i m => exact failDecode_ignoresRows t.errKind ((s.withInput i).withPixbuf m) c hc
  | copied i m => exact countPacket_ignoresRows n ((s.withInput i).withPixbuf m) c hc

theorem repeatPacket_ignoresRows (n : Nat) : IgnoresRows fun s => (repeatPacket n s).settle := by
  intro s c hc
  simp only [repeatPacket, State.withCfg_cfg, State.withCfg_dec, State.withCfg_input, State.withCfg_pixbuf, hc.npix,
    hc.bytesPerPixel]
  cases inReadN s.cfg.bytesPerPixel s.input with
  | stop t i => exact failDecode_ignoresRows t.errKind (s.withInput i) c hc
  | bytes p i =>
    exact countPacket_ignoresRows n (((s.withInput i).withDec { s.dec with pixLatch := p }).withPixbuf
      (replicatePixel s.cfg.bytesPerPixel s.cfg.npix p n s.dec.count s.pixbuf)) c hc

theorem decReady_withCfg {s : State} {c : Cfg} (hc : s.cfg.SamePixels c) : (s.withCfg c).decReady = s.decReady := by
  simp only [State.decReady, State.withCfg_cfg, State.withCfg_dec, State.withCfg_status, hc.npix, hc.legal]

/-- A packet instruction that goes on does so with other rows, to the same end (R137). -/
theorem execPacket_ignoresRows {s t : State} {i : Instr} {n : Nat} (hi : i = .lit n ∨ i = .rep n) (h : exec i s = .next t)
    {c : Cfg} (hc : s.cfg.SamePixels c) : exec i (s.withCfg c) = .next (t.withCfg c) := by
  obtain ⟨hready, -⟩ := execPacket_next hi h
  have hready' : (s.withCfg c).decReady = true := (decReady_withCfg hc).trans hready
  rcases hi with rfl | rfl
  · rw [exec_lit, execLit, if_pos hready] at h
    cases h
    rw [exec_lit, execLit, if_pos hready']
    exact congrArg _ (literalPacket_ignoresRows n s c hc)
  · rw [exec_rep, execRep, if_pos hready] at h
    cases h
    rw [exec_rep, execRep, if_pos hready']
    exact congrArg _ (repeatPacket_ignoresRows n s c hc)

/-- A decoder step that goes on does so with other rows, to the same end (R137). -/
theorem decPacket_ignoresRows {s t : State} (h : decPacket s = .next t) {c : Cfg} (hc : s.cfg.SamePixels c) :
    decPacket (s.withCfg c) = .next (t.withCfg c) := by
  obtain ⟨hready, ⟨b, hb, hx⟩ | ⟨hb, rfl⟩⟩ := decPacket_next h
  · rw [decPacket_of_byte (s := s.withCfg c) ((decReady_withCfg hc).trans hready) hb]
    exact execPacket_ignoresRows (decodeHeader_cases b) hx hc
  · rw [decPacket_of_no_byte (s := s.withCfg c) ((decReady_withCfg hc).trans hready) hb]
    exact congrArg _ (failDecode_ignoresRows s.input.term.errKind s c hc)

/-- Settles O31: the decoder's packet with other rows. -/
theorem decoderIgnoresRows : Obligations.DecoderIgnoresRows := by
  intro s t c hh hst hlegal hnpix hbpp h
  rw [step_of_busyDec hh hst] at h
  rw [step_of_busyDec (s := s.withCfg c) hh hst]
  exact decPacket_ignoresRows h ⟨hlegal, hnpix, congrArg BitVec.toNat hbpp⟩

end Sys2Proof.Machine
end

section
/-! PROOFS. What a packet of a running decode does, with its payload there and with its payload cut short, and with that O25 to
O28. -/

namespace Sys2Proof

/-- What a packet leaves in `PIXLATCH`: a repeat packet latches its own pixel (R134). -/
def Packet.latch (old : Pixel) : Packet → Pixel
  | .lit _ => old
  | .rep _ q => q

/-- A repeat packet stands for as many pixels as it counts (R80). -/
theorem Packet.length_expand_rep (n : Nat) (q : Pixel) : (Packet.rep n q).expand.length = n := List.length_replicate

end Sys2Proof

namespace Sys2Proof.Machine

/-! ### A packet with its payload there -/

/-- `u` is `s` after a packet has taken its payload from `IN` and stored its pixels from `COUNT` on, before they are counted
(R133, R134, R136). -/
structure State.Stored (s u : State) (p : Packet) : Prop where
  frame : s.decodeFrame u
  draws : u.draws = s.draws
  status : u.status = s.status
  pos : u.input.pos = s.input.pos + p.payload.length
  dec : u.dec = { s.dec with pixLatch := p.latch s.dec.pixLatch }
  read : ∀ a, u.pixbuf.read a =
    if s.dec.count * s.cfg.bytesPerPixel ≤ a ∧
        a < min (s.dec.count + p.expand.length) s.cfg.npix * s.cfg.bytesPerPixel then
      p.expand.flatten[a - s.dec.count * s.cfg.bytesPerPixel]?
    else s.pixbuf.read a

/-- `t` is `s` after a packet that does not overrun the image (R131, R133 to R135). -/
structure State.Counted (s t : State) (p : Packet) : Prop where
  frame : s.decodeFrame t
  draws : t.draws = s.draws
  status : t.status =
    { s.status with state := if s.dec.count + p.expand.length = s.cfg.npix then .done else .busyDec }
  pos : t.input.pos = s.input.pos + p.payload.length
  dec : t.dec = { s.dec with count := s.dec.count + p.expand.length, pixLatch := p.latch s.dec.pixLatch }
  read : ∀ a, t.pixbuf.read a =
    if s.dec.count * s.cfg.bytesPerPixel ≤ a ∧ a < (s.dec.count + p.expand.length) * s.cfg.bytesPerPixel then
      p.expand.flatten[a - s.dec.count * s.cfg.bytesPerPixel]?
    else s.pixbuf.read a

/-- The place of an address among the bytes of `n` pixels that stand from pixel `cnt` on. -/
theorem place_lt {bpp cnt n a : Nat} (h : cnt * bpp ≤ a ∧ a < (cnt + n) * bpp) : a - cnt * bpp < n * bpp := by
  rw [Nat.add_mul] at h
  omega

/-- The same where only the pixels inside the image are stored. -/
theorem stored_place_lt {bpp npix cnt n a : Nat} (h : cnt * bpp ≤ a ∧ a < min (cnt + n) npix * bpp) :
    a - cnt * bpp < n * bpp :=
  place_lt ⟨h.1, h.2.trans_le (Nat.mul_le_mul_right bpp (Nat.min_le_left _ _))⟩

/-- A legal configuration has at least one byte per pixel (R23). -/
theorem one_le_bytesPerPixel {c : Cfg} (h : c.legal = true) : 1 ≤ c.bytesPerPixel := by
  obtain ⟨-, -, hb⟩ := (Cfg.legal_iff c).1 h
  omega

/-- The bytes at `IN.POS` that begin with a packet's payload are there to be read. -/
theorem payload_within {bpp pos : Nat} {data rest : List Byte} {p : Packet} (hbpp : 1 ≤ bpp) (hwf : p.wf bpp = true)
    (hpay : data.drop pos = p.payload ++ rest) : pos + p.payload.length ≤ data.length := by
  have hle := Packet.le_length_payload hwf
  have hlen := congrArg List.length hpay
  rw [List.length_drop, List.length_append] at hlen
  omega

/-- A byte of a payload at `IN.POS` is the byte of the stream at its place. -/
theorem getElem?_payload {pos k : Nat} {data pay rest : List Byte} (hpay : data.drop pos = pay ++ rest)
    (hk : k < pay.length) : data[pos + k]? = pay[k]? := by
  rw [← List.getElem?_drop, hpay, List.getElem?_append_left hk]

/-! ### The two packets as equations, one for each answer of the stream -/

theorem literalPacket_of_copied {n : Nat} {s : State} {i : InStream} {m : Mem}
    (h : copyPixels s.cfg.bytesPerPixel s.cfg.npix n s.dec.count s.input s.pixbuf = .copied i m) :
    literalPacket n s = countPacket n ((s.withInput i).withPixbuf m) := by
  rw [literalPacket, h]

theorem literalPacket_of_stopped {n : Nat} {s : State} {t : Term} {i : InStream} {m : Mem}
    (h : copyPixels s.cfg.bytesPerPixel s.cfg.npix n s.dec.count s.input s.pixbuf = .stopped t i m) :
    literalPacket n s = .raised t.errKind ((s.withInput i).withPixbuf m) := by
  rw [literalPacket, h]

theorem repeatPacket_of_bytes {n : Nat} {s : State} {q : Pixel} {i : InStream}
    (h : inReadN s.cfg.bytesPerPixel s.input = .bytes q i) :
    repeatPacket n s = countPacket n (((s.withInput i).withDec { s.dec with pixLatch := q }).withPixbuf
      (replicatePixel s.cfg.bytesPerPixel s.cfg.npix q n s.dec.count s.pixbuf)) := by
  rw [repeatPacket, h]

theorem repeatPacket_of_stop {n : Nat} {s : State} {t : Term} {i : InStream}
    (h : inReadN s.cfg.bytesPerPixel s.input = .stop t i) :
    repeatPacket n s = .raised t.errKind (s.withInput i) := by
  rw [repeatPacket, h]

theorem exec_lit_of_ready {s : State} (h : s.decReady = true) (n : Nat) :
    exec (.lit n) s = .next (literalPacket n s).settle := if_pos h

theorem exec_rep_of_ready {s : State} (h : s.decReady = true) (n : Nat) :
    exec (.rep n) s = .next (repeatPacket n s).settle := if_pos h

/-! ### The payload there -/

/-- `LIT n` with its payload there copies the pixels and counts them (R133). -/
theorem literalPacket_of_payload {s : State} {ps : List Pixel} {rest : List Byte} (hbpp : 1 ≤ s.cfg.bytesPerPixel)
    (hwf : (Packet.lit ps).wf s.cfg.bytesPerPixel = true) (hpay : s.input.data.drop s.input.pos = ps.flatten ++ rest) :
    ∃ u, literalPacket ps.length s = countPacket ps.length u ∧ s.Stored u (.lit ps) := by
  have hlen : ps.flatten.length = ps.length * s.cfg.bytesPerPixel := Packet.length_payload hwf
  have hin : s.input.pos + ps.flatten.length ≤ s.input.data.length := payload_within hbpp hwf hpay
  obtain ⟨m, hcopy, -, hread⟩ :=
    copyPixels_copied s.cfg.bytesPerPixel s.cfg.npix ps.length s.dec.count (hlen ▸ hin) s.pixbuf
  refine ⟨_, literalPacket_of_copied hcopy, ⟨rfl, rfl, rfl, rfl, rfl, rfl, rfl, rfl⟩, rfl, rfl,
    congrArg (s.input.pos + ·) hlen.symm, rfl, fun a => ?_⟩
  exact (hread a).trans
    (if_ctx_congr Iff.rfl (fun ha => getElem?_payload hpay (hlen ▸ stored_place_lt ha)) fun _ => rfl)

/-- `REP n` with its pixel there latches it, stores it `n` times and counts it (R134). -/
theorem repeatPacket_of_payload {s : State} {n : Nat} {q : Pixel} {rest : List Byte} (hbpp : 1 ≤ s.cfg.bytesPerPixel)
    (hwf : (Packet.rep n q).wf s.cfg.bytesPerPixel = true) (hpay : s.input.data.drop s.input.pos = q ++ rest) :
    ∃ u, repeatPacket n s = countPacket n u ∧ s.Stored u (.rep n q) := by
  have hlen : q.length = s.cfg.bytesPerPixel := (Packet.wf_rep_iff.1 hwf).2
  have hin : s.input.pos + q.length ≤ s.input.data.length := payload_within hbpp hwf hpay
  have hread := inReadN_bytes (hlen ▸ hin)
  rw [hpay, List.take_left' hlen] at hread
  refine ⟨_, repeatPacket_of_bytes hread, ⟨rfl, rfl, rfl, rfl, rfl, rfl, rfl, rfl⟩, rfl, rfl,
    congrArg (s.input.pos + ·) hlen.symm, rfl, fun a => ?_⟩
  refine (read_replicatePixel _ _ hlen n s.dec.count s.pixbuf a).trans ?_
  rw [Packet.length_expand_rep]
  refine if_ctx_congr Iff.rfl (fun ha => ?_) fun _ => rfl
  rw [Packet.expand, getElem?_flatten_replicate (by rw [hlen]; exact stored_place_lt ha), hlen,
    Nat.mul_comm s.dec.count, Nat.sub_mul_mod (by rw [Nat.mul_comm]; exact ha.1)]

/-- A packet with its payload there ends by its count alone, in whatever way (R133 to R135). -/
theorem exec_of_payload {s : State} {p : Packet} {rest : List Byte} (hready : s.decReady = true)
    (hwf : p.wf s.cfg.bytesPerPixel = true) (hpay : s.input.data.drop s.input.pos = p.payload ++ rest) :
    ∃ u, exec p.instr s = .next (countPacket p.expand.length u).settle ∧ s.Stored u p := by
  have hbpp := one_le_bytesPerPixel ((decReady_iff s).1 hready).2.1
  cases p with
  | lit ps =>
    obtain ⟨u, hend, hu⟩ := literalPacket_of_payload hbpp hwf hpay
    exact ⟨u, (exec_lit_of_ready hready ps.length).trans (by rw [hend]; rfl), hu⟩
  | rep n q =>
    obtain ⟨u, hend, hu⟩ := repeatPacket_of_payload hbpp hwf hpay
    exact ⟨u, (exec_rep_of_ready hready n).trans (by rw [hend, Packet.length_expand_rep]), hu⟩

/-- A packet with its payload there that stays in the image is counted, and DONE exactly at `NPIX` (R131, R135). -/
theorem exec_packet_within {s : State} {p : Packet} {rest : List Byte} (hready : s.decReady = true)
    (hwf : p.wf s.cfg.bytesPerPixel = true) (hpay : s.input.data.drop s.input.pos = p.payload ++ rest)
    (hle : s.dec.count + p.expand.length ≤ s.cfg.npix) : ∃ t, exec p.instr s = .next t ∧ s.Counted t p := by
  obtain ⟨u, hexec, hu⟩ := exec_of_payload hready hwf hpay
  have hst := ((decReady_iff s).1 hready).1
  have hcfg : u.cfg = s.cfg := hu.frame.1
  have hcount : u.dec.count = s.dec.count := by rw [hu.dec]
  have hdec : { u.dec with count := u.dec.count + p.expand.length } =
      { s.dec with count := s.dec.count + p.expand.length, pixLatch := p.latch s.dec.pixLatch } := by rw [hu.dec]
  have hread := hu.read
  rw [Nat.min_eq_left hle] at hread
  refine ⟨_, hexec, ?_⟩
  rcases Nat.eq_or_lt_of_le hle with hn | hn
  · rw [countPacket_of_end (by rw [hcount, hcfg, hn])]
    exact ⟨hu.frame, hu.draws, by rw [if_pos hn, ← hu.status]; rfl, hu.pos, hdec, hread⟩
  · rw [countPacket_of_within (by rw [hcount, hcfg]; exact hn)]
    exact ⟨hu.frame, hu.draws, by rw [if_neg (Nat.ne_of_lt hn), ← hst]; exact hu.status, hu.pos, hdec, hread⟩

/-! ### A decode that fails -/

/-- A decode that fails after touching no more than a decode may keeps the bounds of the error rule (R206, R208). -/
theorem failDecode_decodeFailed {s u : State} (e : ErrKind) {bound : Nat} (hframe : s.decodeFrame u)
    (hpos : u.input.pos ≤ bound) (hread : ∀ a, s.cfg.nbytes ≤ a → u.pixbuf.read a = s.pixbuf.read a) :
    s.decodeFailed (failDecode e u) e bound :=
  ⟨rfl, hframe, (failDecode_pos e u).trans hpos, fun a ha =>
    (failDecode_read_outside e u (by rwa [hframe.1])).trans (hread a ha)⟩

/-- A packet with its payload there that runs past the image fails with CorruptStream (R135, R136). -/
theorem exec_packet_overrun {s : State} {p : Packet} {rest : List Byte} (hready : s.decReady = true)
    (hwf : p.wf s.cfg.bytesPerPixel = true) (hpay : s.input.data.drop s.input.pos = p.payload ++ rest)
    (hgt : s.cfg.npix < s.dec.count + p.expand.length) :
    ∃ t, exec p.instr s = .next t ∧ s.decodeFailed t .corruptStream (s.input.pos + p.payload.length) := by
  obtain ⟨u, hexec, hu⟩ := exec_of_payload hready hwf hpay
  have hcfg : u.cfg = s.cfg := hu.frame.1
  rw [countPacket_of_overrun (by rw [hu.dec, hcfg]; exact hgt)] at hexec
  refine ⟨_, hexec, failDecode_decodeFailed _ hu.frame hu.pos.le fun a ha => (hu.read a).trans (if_neg fun hin => ?_)⟩
  have hle : min (s.dec.count + p.expand.length) s.cfg.npix * s.cfg.bytesPerPixel ≤ s.cfg.nbytes :=
    Nat.mul_le_mul_right _ (Nat.min_le_right _ _)
  omega

/-- A packet whose payload is cut short fails with the terminator's error, whatever it would count (R138). -/
theorem exec_packet_short {i : Instr} {n : Nat} {s : State} (hi : i = .lit n ∨ i = .rep n) (hready : s.decReady = true)
    (hpos : s.input.pos ≤ s.input.data.length)
    (hlt : s.input.data.length < s.input.pos + payloadLength s.cfg.bytesPerPixel i) :
    ∃ t, exec i s = .next t ∧ s.decodeFailed t s.input.term.errKind s.input.data.length := by
  rcases hi with rfl | rfl
  · obtain ⟨m, hcopy, -, hread⟩ := copyPixels_stopped s.cfg.bytesPerPixel s.cfg.npix n s.dec.count hpos hlt s.pixbuf
    refine ⟨_, (exec_lit_of_ready hready n).trans (by rw [literalPacket_of_stopped hcopy, PacketEnd.settle_raised]), ?_⟩
    exact failDecode_decodeFailed _ ⟨rfl, rfl, rfl, rfl, rfl, rfl, rfl, rfl⟩ le_rfl hread
  · have hend := repeatPacket_of_stop (n := n) (inReadN_stop hpos hlt)
    refine ⟨_, (exec_rep_of_ready hready n).trans (by rw [hend, PacketEnd.settle_raised]), ?_⟩
    exact failDecode_decodeFailed _ ⟨rfl, rfl, rfl, rfl, rfl, rfl, rfl, rfl⟩ le_rfl fun _ _ => rfl

/-! ### The statements about one packet -/

/-- An instruction whose payload is there at a position of a stream is that of a whole packet with that payload (R83). -/
theorem exists_packet_at_pos {bpp n pos : Nat} {i : Instr} {data : List Byte} (hi : i = .lit n ∨ i = .rep n)
    (hwf : i.wf = true) (hlen : pos + payloadLength bpp i ≤ data.length) :
    ∃ (p : Packet) (rest : List Byte), p.wf bpp = true ∧ p.instr = i ∧ data.drop pos = p.payload ++ rest :=
  exists_packet_of_payload hi hwf (by rw [List.length_drop]; exact Nat.le_sub_of_add_le' hlen)

/-- Settles O25: the packet's pixels are its payload. -/
theorem literalPacketCopiesPixels : Obligations.LiteralPacketCopiesPixels := by
  intro n s hwf hst hc hp hlen hle
  have hready := (decReady_iff s).2 ⟨hst, hc, hp⟩
  obtain ⟨p, rest, hpwf, hinstr, hpay⟩ := exists_packet_at_pos (.inl rfl) hwf hlen
  cases p with
  | rep => cases hinstr
  | lit ps =>
    cases hinstr
    have hflat : ps.flatten.length = ps.length * s.cfg.bytesPerPixel := Packet.length_payload hpwf
    obtain ⟨t, hexec, ht⟩ := exec_packet_within hready hpwf hpay hle
    refine ⟨t, hexec, ht.frame, ht.draws, ht.pos.trans (congrArg _ hflat), ht.dec, ht.status, fun a => ?_⟩
    refine (ht.read a).trans (if_ctx_congr Iff.rfl (fun ha => (getElem?_payload hpay ?_).symm) fun _ => rfl)
    exact hflat ▸ place_lt ha

/-- Settles O26: the packet's pixels are its payload, over and over. -/
theorem repeatPacketReplicatesPixel : Obligations.RepeatPacketReplicatesPixel := by
  intro n s hwf hst hc hp hlen hle
  have hready := (decReady_iff s).2 ⟨hst, hc, hp⟩
  obtain ⟨p, rest, hpwf, hinstr, hpay⟩ := exists_packet_at_pos (.inr rfl) hwf hlen
  cases p with
  | lit => cases hinstr
  | rep k q =>
    cases hinstr
    have hq : q.length = s.cfg.bytesPerPixel := (Packet.wf_rep_iff.1 hpwf).2
    have hpay : s.input.data.drop s.input.pos = q ++ rest := hpay
    have hbpp := one_le_bytesPerPixel hc
    obtain ⟨t, hexec, ht⟩ := exec_packet_within hready hpwf hpay (by rwa [Packet.length_expand_rep])
    obtain ⟨hframe, hdraws, hstatus, hpos, hdec, hread⟩ := ht
    rw [Packet.length_expand_rep] at hstatus hdec hread
    refine ⟨t, hexec, hframe, hdraws, hpos.trans (congrArg _ hq), ?_, hstatus, fun a => ?_⟩
    · rw [hdec, hpay, List.take_left' hq]; rfl
    · refine (hread a).trans (if_ctx_congr Iff.rfl (fun ha => ?_) fun _ => rfl)
      rw [getElem?_payload hpay (by rw [hq]; exact Nat.mod_lt _ hbpp), ← hq]
      exact getElem?_flatten_replicate (hq ▸ place_lt ha)

/-- Settles O27: a packet with its payload there that the count takes past the image. -/
theorem overrunRaisesCorruptStream : Obligations.OverrunRaisesCorruptStream := by
  intro i n s hi hwf hst hc hp hlen hgt
  have hready := (decReady_iff s).2 ⟨hst, hc, hp⟩
  obtain ⟨p, rest, hpwf, rfl, hpay⟩ := exists_packet_at_pos hi hwf hlen
  have hn : p.expand.length = n := by
    rcases p.instr_cases with h | h <;> rw [h] at hi <;> simpa using hi
  rw [← Packet.length_payload hpwf]
  exact exec_packet_overrun hready hpwf hpay (by rwa [hn])

/-- The error of a terminator in the words of R138. -/
theorem Term.errKind_eq (t : Term) : t.errKind = if t = .endOfStream then .corruptStream else .ioFailure := by
  cases t <;> rfl

/-- Settles O28: at the header the decode fails as it stands, in the payload after what was there has been read. -/
theorem streamAnswersStopTheDecode : Obligations.StreamAnswersStopTheDecode := by
  refine ⟨fun s hh hst hc hp hend => ?header, fun i n s hi _ hst hc hp hpos hlt => ?payload⟩ <;>
    rw [← Term.errKind_eq]
  case header =>
    have hnone := List.getElem?_eq_none hend.ge
    refine ⟨_, (step_of_busyDec hh hst).trans (decPacket_of_no_byte ((decReady_iff s).2 ⟨hst, hc, hp⟩) hnone), ?_⟩
    exact failDecode_decodeFailed _ ⟨rfl, rfl, rfl, rfl, rfl, rfl, rfl, rfl⟩ hend.le fun _ _ => rfl
  case payload => exact exec_packet_short hi ((decReady_iff s).2 ⟨hst, hc, hp⟩) hpos hlt

end Sys2Proof.Machine
end

section
/-! PROOFS. `Decode` packet by packet, the streams it accepts and the error it gives for every other, and with that O42. -/

namespace Sys2Proof

/-! ### The header byte in the numbers of R140 -/

/-- The payload length of a header byte, as `Decode` computes it (R83, R140). -/
theorem payloadLength_decodeHeader (bpp : Nat) (h : Byte) :
    payloadLength bpp (decodeHeader h) = if h.toNat < 128 then (h.toNat % 128 + 1) * bpp else bpp := by
  rcases Nat.lt_or_ge h.toNat 128 with hh | hh
  · rw [decodeHeader_of_lt hh, if_pos hh, Nat.mod_eq_of_lt hh, payloadLength]
  · rw [decodeHeader_of_ge hh, if_neg (by omega), payloadLength]

/-- The header byte of a well-formed packet gives the number of its pixels (R82, R84). -/
theorem Packet.header_count {bpp : Nat} {p : Packet} (hwf : p.wf bpp = true) :
    (encodeByte p.instr).toNat % 128 + 1 = p.expand.length := by
  obtain ⟨h1, h128⟩ := Packet.length_expand_bounds hwf
  rcases p.instr_cases with h | h <;> rw [h]
  · rw [encodeByte_lit_toNat h128]
    omega
  · rw [encodeByte_rep_toNat h128]
    omega

/-- The pixels of a well-formed packet are its payload, or that over and over, by its header byte (R133, R134). -/
theorem Packet.flatten_expand_eq {bpp : Nat} {p : Packet} (hwf : p.wf bpp = true) :
    (if (encodeByte p.instr).toNat < 128 then p.payload else (List.replicate p.expand.length p.payload).flatten) =
      p.expand.flatten := by
  cases p with
  | lit ps =>
    obtain ⟨⟨h1, h128⟩, -⟩ := Packet.wf_lit_iff.1 hwf
    rw [if_pos (by rw [Packet.instr, encodeByte_lit_toNat h128]; omega)]
    rfl
  | rep n q =>
    obtain ⟨⟨-, h128⟩, -⟩ := Packet.wf_rep_iff.1 hwf
    rw [if_neg (by rw [Packet.instr, encodeByte_rep_toNat h128]; omega), Packet.length_expand_rep]
    rfl

end Sys2Proof

namespace Sys2Proof.Machine

/-! ### The buffer -/

theorem length_putBytes {a : Nat} {bs buf : List Byte} (h : a + bs.length ≤ buf.length) :
    (putBytes a bs buf).length = buf.length := by
  simp only [putBytes, List.length_append, List.length_take, List.length_drop]
  omega

/-- Up to the end of the bytes put the buffer holds what stood before them and then them (R140). -/
theorem take_putBytes {a : Nat} {bs buf : List Byte} (h : a + bs.length ≤ buf.length) :
    (putBytes a bs buf).take (a + bs.length) = buf.take a ++ bs := by
  rw [putBytes, List.take_of_length_le (by omega : bs.length ≤ buf.length - a)]
  refine List.take_left' ?_
  rw [List.length_append, List.length_take_of_le (by omega)]

/-- A packet that stays in the image puts its pixels inside the buffer (R140). -/
theorem pixels_within {npix bpp cnt : Nat} {p : Packet} (hwf : p.wf bpp = true) (hle : cnt + p.expand.length ≤ npix) :
    cnt * bpp + p.expand.flatten.length = (cnt + p.expand.length) * bpp ∧
      cnt * bpp + p.expand.flatten.length ≤ npix * bpp := by
  have hsum : cnt * bpp + p.expand.flatten.length = (cnt + p.expand.length) * bpp := by
    rw [Packet.length_flatten_expand hwf, Nat.add_mul]
  exact ⟨hsum, hsum ▸ Nat.mul_le_mul_right bpp hle⟩

/-! ### One step of `Decode` -/

/-- `Decode` from a point on: the result once `N` pixels are there, else the step (R140). -/
def decodeFrom (npix bpp : Nat) (s : List Byte) (term : Term) (fuel cnt pos : Nat) (buf : List Byte) : Decoded :=
  if cnt = npix then .ok buf pos else decodeStep npix bpp s term fuel cnt pos buf

theorem decodeFrom_done (npix bpp : Nat) (s : List Byte) (term : Term) (fuel pos : Nat) (buf : List Byte) :
    decodeFrom npix bpp s term fuel npix pos buf = .ok buf pos := if_pos rfl

/-- With a pixel to go and the bytes cut short, `Decode` answers the terminator's error (R138, R140). -/
theorem decodeFrom_of_cutShort {npix bpp fuel cnt pos : Nat} {s : List Byte} (term : Term) (buf : List Byte)
    (hcnt : cnt ≠ npix) (hcut : CutShort bpp (s.drop pos)) :
    decodeFrom npix bpp s term (fuel + 1) cnt pos buf = .err term.errKind := by
  rw [decodeFrom, if_neg hcnt, decodeStep, ← List.head?_drop]
  cases hd : s.drop pos with
  | nil => rfl
  | cons h tl =>
    rw [hd, CutShort, payloadLength_decodeHeader] at hcut
    have hlen := congrArg List.length hd
    rw [List.length_drop, List.length_cons] at hlen
    simp only [List.head?_cons]
    exact if_pos (by omega)

/-- With a pixel to go and a whole packet there, `Decode` fails if it overruns the image, and else goes on after it with its
pixels put (R135, R140). -/
theorem decodeFrom_of_packet {npix bpp fuel cnt pos : Nat} {s rest : List Byte} {p : Packet} (term : Term)
    (buf : List Byte) (hcnt : cnt ≠ npix) (hwf : p.wf bpp = true) (hs : s.drop pos = encodePacket p ++ rest) :
    decodeFrom npix bpp s term (fuel + 1) cnt pos buf =
      if npix < cnt + p.expand.length then .err .corruptStream
      else decodeFrom npix bpp s term fuel (cnt + p.expand.length) (pos + (encodePacket p).length)
        (putBytes (cnt * bpp) p.expand.flatten buf) := by
  have hs : s.drop pos = encodeByte p.instr :: (p.payload ++ rest) := hs
  have htl : s.drop (pos + 1) = p.payload ++ rest := by rw [← List.tail_drop, hs, List.tail_cons]
  have hlen : (if (encodeByte p.instr).toNat < 128 then p.expand.length * bpp else bpp) = p.payload.length := by
    rw [← Packet.header_count hwf, ← payloadLength_decodeHeader, Packet.decodeHeader_encodeByte hwf,
      Packet.length_payload hwf]
  have hthere : ¬ s.length < pos + 1 + p.payload.length := by
    have hall := congrArg List.length hs
    rw [List.length_drop, List.length_cons, List.length_append] at hall
    omega
  rw [decodeFrom, if_neg hcnt, decodeStep, ← List.head?_drop, hs, List.head?_cons]
  simp only [Packet.header_count hwf, hlen, if_neg hthere, htl, List.take_left, Packet.flatten_expand_eq hwf]
  rw [decodeFrom, encodePacket, List.length_cons, Nat.add_assoc, Nat.add_comm 1]

/-- The only errors of `Decode` are CorruptStream and the terminator's (R141). -/
theorem decodeFrom_err {npix bpp fuel cnt pos : Nat} {s buf : List Byte} {term : Term} {e : ErrKind}
    (h : decodeFrom npix bpp s term fuel cnt pos buf = .err e) : e = .corruptStream ∨ e = term.errKind := by
  induction fuel generalizing cnt pos buf with
  | zero =>
    rw [decodeFrom] at h
    split_ifs at h
    cases h
    exact .inl rfl
  | succ fuel ih =>
    by_cases hcnt : cnt = npix
    · rw [hcnt, decodeFrom_done] at h
      cases h
    · rcases packet_or_cutShort bpp (s.drop pos) with ⟨p, rest, hwf, hs⟩ | hcut
      · rw [decodeFrom_of_packet term buf hcnt hwf hs] at h
        split_ifs at h
        · cases h
          exact .inl rfl
        · exact ih h
      · rw [decodeFrom_of_cutShort term buf hcnt hcut] at h
        cases h
        exact .inr rfl

/-! ### The streams that `Decode` accepts -/

/-- Whole packets that complete an image of which `cnt` pixels are there, at the position `pos` of a stream (R143). -/
structure CompletesImage (npix bpp : Nat) (s : List Byte) (cnt pos : Nat) (ps : List Packet) : Prop where
  wf : ∀ p ∈ ps, p.wf bpp = true
  count : cnt + (ps.map fun p => p.expand.length).sum = npix
  bytes : ps.flatMap encodePacket <+: s.drop pos

/-- With a pixel to go the packets begin with one that stays in the image, and the others complete the image after it. -/
theorem completesImage_cons_iff {npix bpp cnt pos : Nat} {s rest : List Byte} {p : Packet} {ps : List Packet}
    (hs : s.drop pos = encodePacket p ++ rest) :
    CompletesImage npix bpp s cnt pos (p :: ps) ↔
      p.wf bpp = true ∧ CompletesImage npix bpp s (cnt + p.expand.length) (pos + (encodePacket p).length) ps := by
  have hrest : s.drop (pos + (encodePacket p).length) = rest := by rw [← List.drop_drop, hs, List.drop_left]
  constructor
  · rintro ⟨hwf, hcount, hbytes⟩
    obtain ⟨hp, hps⟩ := List.forall_mem_cons.1 hwf
    rw [List.map_cons, List.sum_cons, ← Nat.add_assoc] at hcount
    rw [List.flatMap_cons, hs, List.prefix_append_right_inj] at hbytes
    exact ⟨hp, hps, hcount, hrest ▸ hbytes⟩
  · rintro ⟨hp, hps, hcount, hbytes⟩
    refine ⟨List.forall_mem_cons.2 ⟨hp, hps⟩, ?_, ?_⟩
    · rw [List.map_cons, List.sum_cons, ← Nat.add_assoc, hcount]
    · rw [List.flatMap_cons, hs, List.prefix_append_right_inj, ← hrest]
      exact hbytes

/-- `Decode` of whole packets that complete the image is their pixels after those that were there, and the position their end
(R143). -/
theorem decodeFrom_of_completesImage {npix bpp fuel cnt pos : Nat} {s buf : List Byte} {ps : List Packet} (term : Term)
    (h : CompletesImage npix bpp s cnt pos ps) (hfuel : npix ≤ cnt + fuel) (hbuf : buf.length = npix * bpp) :
    decodeFrom npix bpp s term fuel cnt pos buf =
      .ok (buf.take (cnt * bpp) ++ (ps.flatMap Packet.expand).flatten) (pos + (ps.flatMap encodePacket).length) := by
  induction ps generalizing fuel cnt pos buf with
  | nil =>
    obtain rfl : cnt = npix := h.count
    rw [decodeFrom_done, ← hbuf, List.take_length]
    simp
  | cons p ps ih =>
    obtain ⟨rest, hrest⟩ := h.bytes
    rw [List.flatMap_cons, List.append_assoc] at hrest
    obtain ⟨hwf, h⟩ := (completesImage_cons_iff hrest.symm).1 h
    have h1 := (Packet.length_expand_bounds hwf).1
    have hle : cnt + p.expand.length ≤ npix := h.count ▸ Nat.le_add_right _ _
    obtain ⟨hend, hin⟩ := pixels_within hwf hle
    rw [← hbuf] at hin
    obtain ⟨f, rfl⟩ : ∃ f, fuel = f + 1 := Nat.exists_eq_add_of_le' (by omega)
    rw [decodeFrom_of_packet term buf (by omega) hwf hrest.symm, if_neg (by omega),
      ih h (by omega) ((length_putBytes hin).trans hbuf), ← hend, take_putBytes hin]
    simp only [List.flatMap_cons, List.flatten_append, List.append_assoc, List.length_append, Nat.add_assoc]

/-- Where `Decode` is Ok, whole packets complete the image (R143). -/
theorem exists_completesImage {npix bpp fuel cnt pos pos' : Nat} {s buf buf' : List Byte} {term : Term}
    (h : decodeFrom npix bpp s term fuel cnt pos buf = .ok buf' pos') : ∃ ps, CompletesImage npix bpp s cnt pos ps := by
  induction fuel generalizing cnt pos buf with
  | zero =>
    rw [decodeFrom] at h
    split_ifs at h with hcnt
    · exact ⟨[], nofun, hcnt, List.nil_prefix⟩
    · cases h
  | succ fuel ih =>
    by_cases hcnt : cnt = npix
    · exact ⟨[], nofun, hcnt, List.nil_prefix⟩
    · rcases packet_or_cutShort bpp (s.drop pos) with ⟨p, rest, hwf, hs⟩ | hcut
      · rw [decodeFrom_of_packet term buf hcnt hwf hs] at h
        split_ifs at h
        obtain ⟨ps, hps⟩ := ih h
        exact ⟨p :: ps, (completesImage_cons_iff hs).2 ⟨hwf, hps⟩⟩
      · rw [decodeFrom_of_cutShort term buf hcnt hcut] at h
        cases h

/-! ### `Decode` as a whole -/

/-- `Decode` of an image that has a pixel begins with none of it there (R140). -/
theorem decodeImage_eq_decodeFrom {w h : Nat} (hw : 1 ≤ w) (hh : 1 ≤ h) (bpp : Nat) (s : List Byte) (term : Term) :
    decodeImage w h bpp s term =
      decodeFrom (w * h) bpp s term (w * h) 0 0 (List.replicate (w * h * bpp) 0) :=
  (if_neg (Nat.mul_pos hw hh).ne).symm

/-- `Decode` of whole packets that count to the image is their pixels, and the position their length (R143). -/
theorem decodeImage_of_packets {w h bpp : Nat} {s : List Byte} {ps : List Packet} (hw : 1 ≤ w) (hh : 1 ≤ h) (term : Term)
    (hps : CompletesImage (w * h) bpp s 0 0 ps) :
    decodeImage w h bpp s term = .ok (ps.flatMap Packet.expand).flatten (ps.flatMap encodePacket).length := by
  rw [decodeImage_eq_decodeFrom hw hh, decodeFrom_of_completesImage term hps (Nat.zero_add _).ge List.length_replicate]
  simp

/-- Settles O42: by its packets, `Decode` from the first pixel; and what is not Ok is an error, with `End` only one. -/
theorem acceptedStreamsAreWholePackets : Obligations.AcceptedStreamsAreWholePackets := by
  refine fun w h bpp s hw hh _ => ⟨fun term buf pos => ⟨fun hok => ?packets, ?accepted⟩, fun hnot => ?rejected⟩
  case packets =>
    obtain ⟨ps, hps⟩ := exists_completesImage ((decodeImage_eq_decodeFrom hw hh bpp s term).symm.trans hok)
    have hdec := decodeImage_of_packets hw hh term hps
    obtain ⟨hwf, hcount, rest, hrest⟩ := hps
    rw [hok] at hdec
    cases hdec
    exact ⟨ps, rest, hwf, (Nat.zero_add _).symm.trans hcount, hrest.symm, rfl, rfl⟩
  case accepted =>
    rintro ⟨ps, rest, hwf, hcount, hs, rfl, rfl⟩
    exact decodeImage_of_packets hw hh term ⟨hwf, (Nat.zero_add _).trans hcount, rest, hs.symm⟩
  case rejected =>
    cases hd : decodeImage w h bpp s .endOfStream with
    | ok buf pos => exact absurd hd (hnot buf pos)
    | err e =>
      rcases decodeFrom_err ((decodeImage_eq_decodeFrom hw hh bpp s .endOfStream).symm.trans hd) with rfl | rfl <;> rfl

end Sys2Proof.Machine
end

section
/-! PROOFS. The run of a whole decode, step by step beside `Decode`, and with that O41. -/

namespace Sys2Proof.Machine

/-! ### One step of a running decode, by the bytes at `IN.POS` -/

/-- A header byte of a whole packet at `IN.POS`: the step is the packet, with its payload at `IN.POS` (R132). -/
theorem step_of_packet {s : State} {p : Packet} {rest : List Byte} (hh : s.host = []) (hready : s.decReady = true)
    (hwf : p.wf s.cfg.bytesPerPixel = true) (hs : s.input.data.drop s.input.pos = encodePacket p ++ rest) :
    step s = exec p.instr (s.headerTaken (encodeByte p.instr)) ∧
      s.input.data.drop (s.input.pos + 1) = p.payload ++ rest := by
  have hs : s.input.data.drop s.input.pos = encodeByte p.instr :: (p.payload ++ rest) := hs
  obtain ⟨hst, -⟩ := (decReady_iff s).1 hready
  refine ⟨?_, by rw [← List.tail_drop, hs, List.tail_cons]⟩
  rw [step_of_busyDec hh hst, decPacket_of_byte hready (getElem?_of_drop_eq_cons hs), Packet.decodeHeader_encodeByte hwf]

/-- With the bytes at `IN.POS` cut short, the step ends in ERROR with the terminator's kind (R138). -/
theorem step_of_cutShort {s : State} (hh : s.host = []) (hready : s.decReady = true)
    (hcut : CutShort s.cfg.bytesPerPixel (s.input.data.drop s.input.pos)) :
    ∃ t, step s = .next t ∧ t.status = { state := .error, err := s.input.term.errKind } := by
  obtain ⟨hst, -⟩ := (decReady_iff s).1 hready
  rw [step_of_busyDec hh hst]
  cases hd : s.input.data.drop s.input.pos with
  | nil =>
    exact ⟨_, decPacket_of_no_byte hready (List.getElem?_eq_none (List.drop_eq_nil_iff.1 hd)), rfl⟩
  | cons h tl =>
    have hlen := congrArg List.length hd
    rw [List.length_drop, List.length_cons] at hlen
    rw [hd, CutShort] at hcut
    obtain ⟨t, hexec, hstatus, -⟩ := exec_packet_short (s := s.headerTaken h) (decodeHeader_cases h) hready
      (show s.input.pos + 1 ≤ s.input.data.length by omega)
      (show s.input.data.length < s.input.pos + 1 + payloadLength s.cfg.bytesPerPixel (decodeHeader h) by omega)
    exact ⟨t, (decPacket_of_byte hready (getElem?_of_drop_eq_cons hd)).trans hexec, hstatus⟩

/-! ### The end of a decode -/

/-- `t` holds what `Decode` gives: DONE with its buffer and position, or ERROR with its kind (R140). -/
def State.Holds (t : State) (nbytes : Nat) : Decoded → Prop
  | .ok buf pos => t.status = { state := .done, err := .noError } ∧ t.input.pos = pos ∧ t.pixbuf.readN 0 nbytes = some buf
  | .err e => t.status = { state := .error, err := e }

/-- From a state, at most `n` steps reach what `Decode` gives (R131, R216). -/
def State.DecodeEnds (s : State) (n nbytes : Nat) (d : Decoded) : Prop :=
  ∃ k t, k ≤ n ∧ Sys2Proof.core.run k s = .next t ∧ t.Holds nbytes d

theorem State.DecodeEnds.of_holds {s : State} {nbytes : Nat} {d : Decoded} (h : s.Holds nbytes d) (n : Nat) :
    s.DecodeEnds n nbytes d :=
  ⟨0, s, Nat.zero_le n, rfl, h⟩

theorem State.DecodeEnds.of_error {s : State} {e : ErrKind} (h : s.status = { state := .error, err := e }) (n nbytes : Nat) :
    s.DecodeEnds n nbytes (.err e) :=
  .of_holds (d := .err e) h n

/-- A decode ends one step before it ends after that step. -/
theorem State.DecodeEnds.of_step {s t : State} {n nbytes : Nat} {d : Decoded} (h : step s = .next t)
    (ht : t.DecodeEnds n nbytes d) : s.DecodeEnds (n + 1) nbytes d := by
  obtain ⟨k, u, hk, hrun, hu⟩ := ht
  exact ⟨k + 1, u, Nat.succ_le_succ hk, (run_succ h k).trans hrun, hu⟩

/-! ### A decode between two packets -/

/-- Where the pixels before `COUNT` read as some bytes, a packet that is counted has put its own after them (R133, R134). -/
theorem State.Counted.readN {s t : State} {p : Packet} {done : List Byte} (ht : s.Counted t p)
    (hwf : p.wf s.cfg.bytesPerPixel = true)
    (hdone : s.pixbuf.readN 0 (s.dec.count * s.cfg.bytesPerPixel) = some done) :
    t.pixbuf.readN 0 ((s.dec.count + p.expand.length) * s.cfg.bytesPerPixel) = some (done ++ p.expand.flatten) := by
  obtain ⟨hlen, hread⟩ := Mem.readN_eq_some.1 hdone
  refine Mem.readN_eq_some.2 ⟨?_, fun i hi => ?_⟩
  · rw [List.length_append, hlen, Packet.length_flatten_expand hwf, Nat.add_mul]
  · rw [Nat.zero_add, ht.read]
    rcases Nat.lt_or_ge i (s.dec.count * s.cfg.bytesPerPixel) with hold | hnew
    · rw [if_neg fun hc => Nat.not_le.2 hold hc.1, List.getElem?_append_left (by omega), ← hread i hold, Nat.zero_add]
    · rw [if_pos ⟨hnew, hi⟩, List.getElem?_append_right (by omega), hlen]

/-- A decode between two packets, DONE if no pixel is to go, whose first `COUNT` pixels stand in `PIXBUF` as in the buffer of
`Decode` (R131, R140). -/
structure State.DecodesInto (s : State) (buf : List Byte) : Prop where
  host : s.host = []
  legal : s.cfg.legal = true
  status : s.status = { state := if s.dec.count = s.cfg.npix then .done else .busyDec, err := .noError }
  length : buf.length = s.cfg.nbytes
  image : s.pixbuf.readN 0 (s.dec.count * s.cfg.bytesPerPixel) = some (buf.take (s.dec.count * s.cfg.bytesPerPixel))

namespace State.DecodesInto

variable {s : State} {buf : List Byte}

/-- With a pixel to go the decoder's step can be taken (R139). -/
theorem ready (h : s.DecodesInto buf) (hlt : s.dec.count < s.cfg.npix) : s.decReady = true :=
  (decReady_iff s).2 ⟨by rw [h.status, if_neg (Nat.ne_of_lt hlt)], h.legal, hlt⟩

/-- With no pixel to go the buffer is decoded (R131). -/
theorem holds_ok (h : s.DecodesInto buf) (hend : s.dec.count = s.cfg.npix) :
    s.Holds s.cfg.nbytes (.ok buf s.input.pos) := by
  have himage := h.image
  rw [hend, show s.cfg.npix * s.cfg.bytesPerPixel = s.cfg.nbytes from rfl, ← h.length, List.take_length, h.length] at himage
  exact ⟨by rw [h.status, if_pos hend], rfl, himage⟩

/-- A packet that stays in the image leaves the decode between two packets, with its pixels put in the buffer (R140). -/
theorem packet (h : s.DecodesInto buf) {p : Packet} {rest : List Byte} (hlt : s.dec.count < s.cfg.npix)
    (hwf : p.wf s.cfg.bytesPerPixel = true) (hs : s.input.data.drop s.input.pos = encodePacket p ++ rest)
    (hle : s.dec.count + p.expand.length ≤ s.cfg.npix) :
    ∃ t, step s = .next t ∧ t.DecodesInto (putBytes (s.dec.count * s.cfg.bytesPerPixel) p.expand.flatten buf) ∧
      t.cfg = s.cfg ∧ t.dec.count = s.dec.count + p.expand.length ∧ t.input.data = s.input.data ∧
      t.input.term = s.input.term ∧ t.input.pos = s.input.pos + (encodePacket p).length := by
  obtain ⟨hstep, hpay⟩ := step_of_packet h.host (h.ready hlt) hwf hs
  obtain ⟨t, hexec, ht⟩ := exec_packet_within (s := s.headerTaken (encodeByte p.instr)) (h.ready hlt) hwf hpay hle
  have himage := ht.readN hwf h.image
  obtain ⟨⟨hcfg, -, -, hcontent, hpoint, hterm, hhost, -⟩, -, hstatus, hpos, hdec, -⟩ := ht
  have hcfg : t.cfg = s.cfg := hcfg
  have hcount : t.dec.count = s.dec.count + p.expand.length := by rw [hdec]; rfl
  obtain ⟨hend, hin⟩ := pixels_within hwf hle
  have hin : s.dec.count * s.cfg.bytesPerPixel + p.expand.flatten.length ≤ buf.length := h.length ▸ hin
  refine ⟨t, hstep.trans hexec, ⟨hhost.trans h.host, by rw [hcfg]; exact h.legal, ?_, ?_, ?_⟩, hcfg, hcount, ?_, hterm, ?_⟩
  · rw [hstatus, hcount, hcfg]
    exact congrArg (Status.mk _) (congrArg Status.err h.status)
  · rw [length_putBytes hin, hcfg, h.length]
  · rw [hcount, hcfg, ← hend, take_putBytes hin, hend]
    exact himage
  · rw [InStream.data, hcontent, hpoint]
    rfl
  · rw [hpos, encodePacket, List.length_cons]
    show s.input.pos + 1 + p.payload.length = _
    omega

/-- A packet that runs past the image ends the decode in ERROR with CorruptStream (R135). -/
theorem overrun (h : s.DecodesInto buf) {p : Packet} {rest : List Byte} (hlt : s.dec.count < s.cfg.npix)
    (hwf : p.wf s.cfg.bytesPerPixel = true) (hs : s.input.data.drop s.input.pos = encodePacket p ++ rest)
    (hgt : s.cfg.npix < s.dec.count + p.expand.length) :
    ∃ t, step s = .next t ∧ t.status = { state := .error, err := .corruptStream } := by
  obtain ⟨hstep, hpay⟩ := step_of_packet h.host (h.ready hlt) hwf hs
  obtain ⟨t, hexec, hstatus, -⟩ :=
    exec_packet_overrun (s := s.headerTaken (encodeByte p.instr)) (h.ready hlt) hwf hpay hgt
  exact ⟨t, hstep.trans hexec, hstatus⟩

/-- From between two packets a decode reaches what `Decode` gives from there, a packet of the one for a packet of the other, in
at most as many steps as there are pixels to go (R131, R140). -/
theorem decodeEnds (h : s.DecodesInto buf) {fuel : Nat} (hle : s.dec.count ≤ s.cfg.npix)
    (hfuel : s.cfg.npix ≤ s.dec.count + fuel) :
    s.DecodeEnds fuel s.cfg.nbytes (decodeFrom s.cfg.npix s.cfg.bytesPerPixel s.input.data s.input.term fuel s.dec.count
      s.input.pos buf) := by
  induction fuel generalizing s buf with
  | zero =>
    have hend : s.dec.count = s.cfg.npix := Nat.le_antisymm hle hfuel
    rw [hend, decodeFrom_done]
    exact .of_holds (h.holds_ok hend) _
  | succ fuel ih =>
    rcases Nat.eq_or_lt_of_le hle with hend | hlt
    · rw [hend, decodeFrom_done]
      exact .of_holds (h.holds_ok hend) _
    · rcases packet_or_cutShort s.cfg.bytesPerPixel (s.input.data.drop s.input.pos) with ⟨p, rest, hwf, hs⟩ | hcut
      · rw [decodeFrom_of_packet _ buf (Nat.ne_of_lt hlt) hwf hs]
        rcases Nat.lt_or_ge s.cfg.npix (s.dec.count + p.expand.length) with hgt | hin
        · rw [if_pos hgt]
          obtain ⟨t, hstep, hstatus⟩ := h.overrun hlt hwf hs hgt
          exact .of_step hstep (.of_error hstatus _ _)
        · rw [if_neg (Nat.not_lt.2 hin)]
          obtain ⟨t, hstep, ht, hcfg, hcount, hdata, hterm, hpos⟩ := h.packet hlt hwf hs hin
          have h1 := (Packet.length_expand_bounds hwf).1
          rw [← hcfg, ← hcount] at hin
          have hrest := ih ht hin (by rw [hcfg, hcount]; omega)
          rw [hcfg, hcount, hdata, hterm, hpos] at hrest
          exact .of_step hstep hrest
      · rw [decodeFrom_of_cutShort _ buf (Nat.ne_of_lt hlt) hcut]
        obtain ⟨t, hstep, hstatus⟩ := step_of_cutShort h.host (h.ready hlt) hcut
        exact .of_step hstep (.of_error hstatus _ _)

end State.DecodesInto

/-- Settles O41: the decode from its first packet, beside `Decode` packet by packet. -/
theorem decodeRunAgreesWithDecode : Obligations.DecodeRunAgreesWithDecode := by
  intro s hh hst hc hcount hpos
  obtain ⟨⟨hw, -⟩, ⟨hhgt, -⟩, -⟩ := (Cfg.legal_iff _).1 hc
  have hn : 0 < s.cfg.npix := (Cfg.npix_bounds hc).1
  have h : s.DecodesInto (List.replicate s.cfg.nbytes 0) :=
    ⟨hh, hc, by rw [hst, hcount, if_neg hn.ne], List.length_replicate, by rw [hcount, Nat.zero_mul]; rfl⟩
  have hends := h.decodeEnds (fuel := s.cfg.npix) (by rw [hcount]; exact hn.le) (Nat.le_add_left _ _)
  rw [hcount, hpos] at hends
  rw [decodeImage_eq_decodeFrom hw hhgt]
  exact hends

end Sys2Proof.Machine
end

section
/-! PROOFS. The packets of an encoding, the round trip of every image, and with that O43. -/

namespace Sys2Proof.Machine

/-! ### The pixels of a run -/

/-- Every pixel of a repeat run is its first (R107, R114). -/
theorem pixOf_eq_of_repeating {w bpp c : Nat} {buf : List Byte} (hm : (runAt w bpp buf c).1 = .repeating) :
    ∀ j < (runAt w bpp buf c).2, pixOf bpp buf (c + j) = pixOf bpp buf c := by
  by_cases hl : runLimit w c = 1
  · rw [runAt_single hl] at hm
    cases hm
  · by_cases he : pixOf bpp buf c = pixOf bpp buf (c + 1)
    · rw [runAt_repeating hl he]
      intro j hj
      have hmem := List.mem_takeWhile_imp (List.getElem_mem hj)
      rw [(List.takeWhile_prefix _).getElem hj, List.getElem_range] at hmem
      exact beq_iff_eq.1 hmem
    · rw [runAt_literal hl he] at hm
      cases hm

/-- Pixels that are all the first are its bytes, over and over (R134). -/
theorem take_drop_eq_flatten_replicate {bpp c n : Nat} {buf : List Byte} {q : Pixel}
    (h : ∀ j < n, pixOf bpp buf (c + j) = q) :
    (buf.drop (c * bpp)).take (n * bpp) = (List.replicate n q).flatten := by
  induction n with
  | zero => simp
  | succ n ih =>
    rw [Nat.succ_mul, List.take_add, ih fun j hj => h j (by omega), List.drop_drop, ← Nat.add_mul,
      show (buf.drop ((c + n) * bpp)).take bpp = q from h n (Nat.lt_succ_self n), List.replicate_succ',
      List.flatten_append, List.flatten_singleton]

/-! ### The packets of an encoding -/

/-- The packet of the closed form is a well-formed packet that stands for the pixels of its run (R84, R114). -/
theorem exists_packet_of_run {w h bpp c : Nat} {buf : List Byte} (hw : 1 ≤ w) (hc : c < w * h)
    (hbuf : buf.length = w * h * bpp) :
    ∃ p : Packet, p.wf bpp = true ∧ encodePacket p = packetAt w bpp buf c ∧
      p.expand.length = (runAt w bpp buf c).2 ∧
      p.expand.flatten = (buf.drop (c * bpp)).take ((runAt w bpp buf c).2 * bpp) := by
  have hrun := runAt_emittable hw bpp buf c
  have hpay := (hrun.payload_bounds bpp).2
  have hin := run_bytes_le (bpp := bpp) (buf := buf) hw hc
  have hlen : payloadLength bpp (runInstr (runAt w bpp buf c)) ≤ (buf.drop (c * bpp)).length := by
    rw [List.length_drop]
    omega
  by_cases hm : (runAt w bpp buf c).1 = .repeating
  · rw [runInstr_repeating hm] at hlen
    rw [packetAt_eq hw, runInstr_repeating hm]
    refine ⟨.rep (runAt w bpp buf c).2 (pixOf bpp buf c), ?_, rfl, Packet.length_expand_rep _ _, ?_⟩
    · exact Packet.wf_rep_iff.2 ⟨⟨hrun.one_le, hrun.le_max⟩, List.length_take_of_le hlen⟩
    · exact (take_drop_eq_flatten_replicate (pixOf_eq_of_repeating hm)).symm
  · rw [runInstr_of_ne_repeating hm] at hlen
    rw [packetAt_eq hw, runInstr_of_ne_repeating hm]
    have hpix := length_cutPixels bpp (runAt w bpp buf c).2 (buf.drop (c * bpp))
    have hflat := flatten_cutPixels bpp (runAt w bpp buf c).2 (buf.drop (c * bpp))
    refine ⟨.lit (cutPixels bpp (runAt w bpp buf c).2 (buf.drop (c * bpp))), ?_, ?_, hpix, hflat⟩
    · exact Packet.wf_lit_iff.2 ⟨by rw [hpix]; exact ⟨hrun.one_le, hrun.le_max⟩, length_of_mem_cutPixels hlen⟩
    · rw [encodePacket, Packet.instr, Packet.payload, hpix, hflat]
      rfl

/-- From a pixel on an encoding is well-formed packets that complete the image with the pixels that are left (R114, R144). -/
theorem exists_packets_of_encodeTail {w h bpp : Nat} {buf : List Byte} (hw : 1 ≤ w) (hbuf : buf.length = w * h * bpp)
    (c : Nat) (hc : c ≤ w * h) :
    ∃ ps : List Packet, (∀ p ∈ ps, p.wf bpp = true) ∧ ps.flatMap encodePacket = encodeTail w h bpp buf c ∧
      c + (ps.map fun p => p.expand.length).sum = w * h ∧ (ps.flatMap Packet.expand).flatten = buf.drop (c * bpp) := by
  induction c using packet_induction hw h bpp buf with
  | done c hend =>
    obtain rfl : c = w * h := Nat.le_antisymm hc hend
    exact ⟨[], nofun, (encodeTail_of_le hend bpp buf).symm, rfl, by rw [← hbuf, List.drop_length]; rfl⟩
  | packet c hlt ih =>
    obtain ⟨p, hwf, hbytes, hlen, hpix⟩ := exists_packet_of_run hw hlt hbuf
    obtain ⟨ps, hps, hrest, hcount, himage⟩ := ih (runAt_le_left hw hlt bpp buf)
    refine ⟨p :: ps, List.forall_mem_cons.2 ⟨hwf, hps⟩, ?_, ?_, ?_⟩
    · rw [List.flatMap_cons, hbytes, hrest, encodeTail_of_lt hw hlt]
    · rw [List.map_cons, List.sum_cons, hlen, ← Nat.add_assoc, hcount]
    · rw [List.flatMap_cons, List.flatten_append, hpix, himage, Nat.add_mul, ← List.drop_drop, List.take_append_drop]

/-- `Decode` of `Encode` is the image, and it consumes the whole encoding, whatever the terminator (R144). -/
theorem decodeImage_encodeImage {w h bpp : Nat} {buf : List Byte} (hw : 1 ≤ w) (hh : 1 ≤ h)
    (hbuf : buf.length = w * h * bpp) (term : Term) :
    decodeImage w h bpp (encodeImage w h bpp buf) term = .ok buf (encodeImage w h bpp buf).length := by
  obtain ⟨ps, hwf, hbytes, hcount, himage⟩ := exists_packets_of_encodeTail hw hbuf 0 (Nat.zero_le _)
  rw [← encodeImage_eq_encodeTail] at hbytes
  rw [Nat.zero_mul, List.drop_zero] at himage
  rw [decodeImage_of_packets hw hh term ⟨hwf, hcount, hbytes ▸ List.prefix_rfl⟩, himage, hbytes]

/-- Settles O43: the packets of the encoding are accepted, and their pixels are the image. -/
theorem decodeOfEncodeGivesTheImage : Obligations.DecodeOfEncodeGivesTheImage :=
  fun _ _ _ _ hw _ hh _ _ hbuf => decodeImage_encodeImage hw hh hbuf .endOfStream

end Sys2Proof.Machine
end

section
/-! PROOFS. The file that Save writes read back field by field, and with that O57. -/

namespace Sys2Proof.Codec

open Sys2Proof.Machine

/-! ### The header read back -/

/-- The two bytes of a 16-bit field stand for it again (R163). -/
theorem half_halfBytes (v : Half) : half (v.extractLsb' 0 8) (v.extractLsb' 8 8) = v := by
  refine BitVec.eq_of_getLsbD_eq fun i hi => ?_
  rw [half, BitVec.getLsbD_append]
  split_ifs with h8
  · simp [h8]
  · simp [show 8 + (i - 8) = i by omega, show i - 8 < 8 by omega]

/-- The header is read back from its bytes, with the bytes after it (R163, R164, R177). -/
theorem parseHeader_bytes (h : TgaHeader) (rest : List Byte) : parseHeader (h.bytes ++ rest) = some (h, rest) := by
  simp only [TgaHeader.bytes, halfBytes, List.cons_append, List.nil_append, parseHeader, half_halfBytes]

/-! ### The tests of Load on the header of Save -/

/-- A size of 1 to 32767 in a header is positive, and is that size (R21, R163). -/
theorem half_ofNat_size {n : Nat} (h1 : 1 ≤ n) (hn : n ≤ 32767) :
    1 ≤ (BitVec.ofNat 16 n).toInt ∧ (BitVec.ofNat 16 n).toNat = n := by
  have hnat : (BitVec.ofNat 16 n).toNat = n := by
    rw [BitVec.toNat_ofNat, Nat.mod_eq_of_lt (by omega)]
  exact ⟨(half_pos_iff _).2 (by omega), hnat⟩

theorem ofBytes_bitsPerPixel (f : PixelFormat) :
    PixelFormat.ofBytes ((BitVec.ofNat 8 (f.bytesPerPixel * 8)).toNat / 8) = some f := by
  cases f <;> rfl

theorem acceptedDataType_saveDataType (rle : Bool) (f : PixelFormat) :
    acceptedDataType (saveDataType rle f).code = some rle := by
  cases f <;> cases rle <;> rfl

/-- Save writes the origin bit as 1, so Load does not flip (R173, R182). -/
theorem saveDescriptor_origin (f : PixelFormat) : saveDescriptor f &&& 0x20#8 ≠ 0 := by
  cases f <;> decide

theorem validateHeader_saveHeader {b : PixelBuffer} (rle : Bool) (hw : 1 ≤ b.width) (hw' : b.width ≤ 32767)
    (hh : 1 ≤ b.height) (hh' : b.height ≤ 32767) : validateHeader (saveHeader rle b) = .ok (b.format, rle) := by
  have hsize : 1 ≤ (saveHeader rle b).width.toInt ∧ 1 ≤ (saveHeader rle b).height.toInt :=
    ⟨(half_ofNat_size hw hw').1, (half_ofNat_size hh hh').1⟩
  rw [validateHeader, if_neg (not_not.2 hsize)]
  simp only [saveHeader, ofBytes_bitsPerPixel, acceptedDataType_saveDataType]

/-! ### The pixel data -/

/-- The parts of a well-formed buffer, in words (R162). -/
theorem PixelBuffer.wf_iff {b : PixelBuffer} :
    b.wf = true ↔ 1 ≤ b.width ∧ 1 ≤ b.height ∧ b.bytes.length = b.height * b.width * b.format.bytesPerPixel := by
  simp [PixelBuffer.wf, and_assoc, Nat.one_le_iff_ne_zero, Nat.pos_iff_ne_zero]

/-- The pixel data that Save writes is read back, raw or as packets (R144, R180, R181). -/
theorem loadPixels_savePixels {b : PixelBuffer} (rle : Bool) (hwf : b.wf = true) (term : Term) :
    loadPixels rle b.width b.height b.format.bytesPerPixel (savePixels rle b) term = .ok b.bytes := by
  obtain ⟨hw, hh, hlen⟩ := PixelBuffer.wf_iff.1 hwf
  cases rle with
  | true =>
    rw [Nat.mul_comm b.height] at hlen
    simp [loadPixels, savePixels, decodeImage_encodeImage hw hh hlen]
  | false =>
    rw [Nat.mul_assoc] at hlen
    simp [loadPixels, savePixels, ← hlen]

/-! ### The file as a whole -/

/-- Load of the file that Save writes gives the buffer back (R144, R177 to R182). -/
theorem load_saveFile {b : PixelBuffer} (rle : Bool) (hwf : b.wf = true) (hw : b.width ≤ 32767) (hh : b.height ≤ 32767)
    (term : Term) : load (saveFile rle b) term = .ok b := by
  obtain ⟨hw1, hh1, -⟩ := PixelBuffer.wf_iff.1 hwf
  have hwidth : (saveHeader rle b).width.toNat = b.width := (half_ofNat_size hw1 hw).2
  have hheight : (saveHeader rle b).height.toNat = b.height := (half_ofNat_size hh1 hh).2
  have hid : ¬ (saveHeader rle b).idLength ≠ 0 := not_not.2 rfl
  have horigin : ¬ (saveHeader rle b).imageDescriptor &&& 0x20#8 = 0 := saveDescriptor_origin b.format
  simp only [load, saveFile, parseHeader_bytes, validateHeader_saveHeader rle hw1 hw hh1 hh, if_neg hid, hwidth, hheight,
    loadPixels_savePixels rle hwf term, if_neg horigin]

/-- Settles O57: Load of the file field by field, and the one write of the file by where the output fails. -/
theorem loadOfSaveGivesTheBuffer : Obligations.LoadOfSaveGivesTheBuffer := by
  refine fun b rle hwf => ⟨fun hw hh => ⟨load_saveFile rle hwf hw hh _, fun o => ⟨fun hroom => ?saved,
    fun f hf hlt => ?failed⟩⟩, fun hbig o => if_neg (by omega)⟩
  case saved => rw [save_eq hw hh, outWriteN_ok hroom]
  case failed => rw [save_eq hw hh, outWriteN_fail hf hlt (by simp [saveFile, TgaHeader.bytes])]

end Sys2Proof.Codec
end

section
/-! PROOFS. What the host's scripts for Save and Load do from any state outside an operation, and with that O59 and O60. -/

namespace Sys2Proof.Machine

/-! ### Runs of the machine -/

/-- Some number of steps leads from `s` to `t`. -/
def State.Reaches (s t : State) : Prop := ∃ k, Sys2Proof.core.run k s = .next t

theorem State.Reaches.refl (s : State) : s.Reaches s := ⟨0, rfl⟩

theorem State.Reaches.head {s t u : State} (h : step s = .next t) (htu : t.Reaches u) : s.Reaches u := by
  obtain ⟨k, hk⟩ := htu
  exact ⟨k + 1, (run_succ h k).trans hk⟩

theorem State.Reaches.trans {s t u : State} (hst : s.Reaches t) (htu : t.Reaches u) : s.Reaches u := by
  obtain ⟨k, hk⟩ := hst
  induction k generalizing s with
  | zero => cases hk; exact htu
  | succ k ih =>
    simp only [Host.Core.run] at hk
    split at hk
    next s' hs => exact .head hs (ih hk)
    all_goals cases hk

/-! ### An output without a failure point -/

/-- Without a failure point all bytes fit (R59). -/
theorem OutStream.fits_of_failAt_none {o : OutStream} (h : o.failAt = none) (bs : List Byte) : o.Fits bs := by
  intro f hf
  cases h.symm.trans hf

end Sys2Proof.Machine

namespace Sys2Proof.Codec

open Sys2Proof.Machine

/-! ### The moves of the scripts -/

section Owned

variable {s : State} (hb : s.busy = false) (rest : List HostMove)

include hb

/-- Outside an operation a byte of the pixel memory is stored (R42). -/
theorem step_writePix {a : Nat} (ha : a < 2 ^ 32) (v : Byte) :
    step (s.withHost (.writePix a v :: rest)) = .next ((s.withPixbuf (s.pixbuf.write a v)).withHost rest) :=
  (step_owned (s := s.withHost (.writePix a v :: rest)) hb (fun _ => rfl) rfl).trans (hostWritePix_below ha v _)

/-- Outside an operation `OUT` is set up as the move says (R42). -/
theorem step_setOut (data : List Byte) (failAt : Option Nat) :
    step (s.withHost (.setOut data failAt :: rest)) =
      .next ((s.withOutput { data := data, failAt := failAt }).withHost rest) :=
  step_owned (s := s.withHost (.setOut data failAt :: rest)) hb (fun _ => rfl) rfl

/-- Outside an operation `IN` is set up as the move says, with `IN.POS` 0 (R42, R58). -/
theorem step_setIn (content : List Byte) (point : Nat) (term : Term) :
    step (s.withHost (.setIn content point term :: rest)) =
      .next ((s.withInput { content := content, point := point, term := term, pos := 0 }).withHost rest) :=
  step_owned (s := s.withHost (.setIn content point term :: rest)) hb (fun _ => rfl) rfl

end Owned

/-- A write of 0x01 to `CMD` is `ENC_START` (R90). -/
theorem step_writeCmd_encStart (s : State) (rest : List HostMove) :
    step (s.withHost (.writeCmd 0x01#8 :: rest)) = execEncStart (s.withHost rest) := rfl

/-- A write of 0x02 to `CMD` is `DEC_START` (R90). -/
theorem step_writeCmd_decStart (s : State) (rest : List HostMove) :
    step (s.withHost (.writeCmd 0x02#8 :: rest)) = execDecStart (s.withHost rest) := rfl

/-- The configuration that the three writes of a script give (R233, R234). -/
def sizeCfg (w h bpp : Nat) : Cfg :=
  { width := BitVec.ofNat 16 w, height := BitVec.ofNat 16 h, bpp := BitVec.ofNat 8 bpp }

/-- Outside an operation the three writes store the configuration (R21 to R23). -/
theorem configureScript_reaches {s : State} (hb : s.busy = false) (w h bpp : Nat) (rest : List HostMove) :
    (s.withHost (configureScript w h bpp ++ rest)).Reaches ((s.withCfg (sizeCfg w h bpp)).withHost rest) := by
  have hwrite : ∀ (c c' : Cfg) (r : List HostMove),
      writeConfig c' ((s.withCfg c).withHost r) = .next ((s.withCfg c').withHost r) := fun c c' r =>
    (writeConfig_eq c' _).trans (congrArg _ (if_neg (by simpa [State.busy] using hb)))
  exact .head (hwrite s.cfg _ _) (.head (hwrite _ _ _) (.head (hwrite _ _ _) (.refl _)))

/-- Outside an operation the writes of a script put the bytes into `PIXBUF`, as far as the memory goes (R42, R233). -/
theorem fillScript_reaches {s : State} (hb : s.busy = false) {a : Nat} {bs : List Byte} (ha : a + bs.length ≤ 2 ^ 32)
    (rest : List HostMove) :
    (s.withHost (fillScript a bs ++ rest)).Reaches ((s.withPixbuf (s.pixbuf.writeN a bs)).withHost rest) := by
  induction bs generalizing s a with
  | nil => exact .refl _
  | cons v bs ih =>
    rw [List.length_cons] at ha
    exact .head (step_writePix hb _ (by omega) v) (ih (s := s.withPixbuf (s.pixbuf.write a v)) hb (by omega))

/-! ### The configuration of a buffer -/

/-- The configuration with which the block works on a buffer (R233, R234). -/
def PixelBuffer.cfg (b : PixelBuffer) : Cfg := sizeCfg b.width b.height b.format.bytesPerPixel

@[simp] theorem PixelBuffer.cfg_bytesPerPixel (b : PixelBuffer) : b.cfg.bytesPerPixel = b.format.bytesPerPixel := by
  simp only [PixelBuffer.cfg, sizeCfg, Cfg.bytesPerPixel]
  cases b.format <;> rfl

/-- A well-formed buffer whose width and height are sizes that the block can have (R21, R22, R162). -/
structure PixelBuffer.FitsBlock (b : PixelBuffer) : Prop where
  wf : b.wf = true
  width_le : b.width ≤ 32767
  height_le : b.height ≤ 32767

namespace PixelBuffer.FitsBlock

variable {b : PixelBuffer}

theorem cfg_w (h : b.FitsBlock) : b.cfg.w = b.width :=
  (half_ofNat_size (wf_iff.1 h.wf).1 h.width_le).2

theorem cfg_hgt (h : b.FitsBlock) : b.cfg.hgt = b.height :=
  (half_ofNat_size (wf_iff.1 h.wf).2.1 h.height_le).2

/-- The block takes the buffer's configuration (R21 to R23). -/
theorem cfg_legal (h : b.FitsBlock) : b.cfg.legal = true := by
  obtain ⟨hw, hh, -⟩ := wf_iff.1 h.wf
  refine (Cfg.legal_iff _).2 ⟨?_, ?_, ?_⟩
  · rw [h.cfg_w]
    exact ⟨hw, h.width_le⟩
  · rw [h.cfg_hgt]
    exact ⟨hh, h.height_le⟩
  · rw [cfg_bytesPerPixel]
    cases b.format <;> decide

/-- The buffer's bytes are the image's (R39, R162). -/
theorem cfg_nbytes (h : b.FitsBlock) : b.cfg.nbytes = b.bytes.length := by
  obtain ⟨-, -, hlen⟩ := wf_iff.1 h.wf
  rw [hlen, Cfg.nbytes, Cfg.npix, h.cfg_w, h.cfg_hgt, cfg_bytesPerPixel, Nat.mul_comm b.width]

end PixelBuffer.FitsBlock

/-! ### Save with the block -/

/-- Save onto an empty output without a failure point leaves the file there (R174 to R176). -/
theorem save_without_failAt (rle : Bool) {b : PixelBuffer} (hw : b.width ≤ 32767) (hh : b.height ≤ 32767) :
    save rle b { data := [], failAt := none } = .saved { data := saveFile rle b, failAt := none } := by
  rw [save_eq hw hh, outWriteN_ok (OutStream.fits_of_failAt_none rfl _)]
  rfl

/-- The state that the script for an encode leads to from `s`, with the output `o` (R100, R233). -/
def encodeStarted (s : State) (b : PixelBuffer) (o : OutStream) : State :=
  { s with
    cfg := b.cfg
    status := { state := .busyEnc, err := .noError }
    enc := { s.enc with curPix := 0 }
    pixbuf := s.pixbuf.writeN 0 b.bytes
    output := o
    host := [] }

/-- A host that follows the script for an encode has it started over the buffer's bytes (R176, R233). -/
theorem encodeScript_reaches {s : State} (hb : s.busy = false) {b : PixelBuffer} (hfit : b.FitsBlock)
    (header : List Byte) (failAt : Option Nat) :
    (s.withHost (encodeScript b header failAt)).Reaches (encodeStarted s b { data := header, failAt := failAt }) := by
  have hcap : 0 + b.bytes.length ≤ 2 ^ 32 := by
    rw [Nat.zero_add, ← hfit.cfg_nbytes]
    exact Cfg.nbytes_le hfit.cfg_legal
  have hwritten : (s.pixbuf.writeN 0 b.bytes).written 0 b.cfg.nbytes = true := by
    rw [hfit.cfg_nbytes, Mem.written, Mem.readN_writeN]
    rfl
  have hlegal : b.cfg.startError = none := (startError_eq_none_iff _).2 hfit.cfg_legal
  rw [encodeScript, List.append_assoc]
  refine (configureScript_reaches hb _ _ _ _).trans ?_
  refine (fillScript_reaches (s := s.withCfg b.cfg) hb hcap _).trans ?_
  refine .head (step_setOut (s := (s.withCfg b.cfg).withPixbuf (s.pixbuf.writeN 0 b.bytes)) hb _ _ _) ?_
  exact .head ((step_writeCmd_encStart _ _).trans (execEncStart_of_written hb hlegal hwritten)) (.refl _)

/-- Settles O59: the script starts an encode of the buffer's bytes after the header, and the encode appends its packets. -/
theorem blockWritesTheFileSaveWrites : Obligations.BlockWritesTheFileSaveWrites := by
  intro b hwf hw hh
  have hfit : b.FitsBlock := ⟨hwf, hw, hh⟩
  have himage : (Mem.writeN 0 b.bytes State.reset.pixbuf).readN 0 b.cfg.nbytes = some b.bytes := by
    rw [hfit.cfg_nbytes, Mem.readN_writeN]
  obtain ⟨k, t, -, hrun, hdone, hframe, hout⟩ := encodeRunReachesDone
    (encodeStarted State.reset b { data := (saveHeader true b).bytes, failAt := none }) b.bytes rfl rfl hfit.cfg_legal rfl
    himage (OutStream.fits_of_failAt_none rfl _)
  obtain ⟨-, -, -, -, hfail, -, -⟩ := hframe
  obtain ⟨n, hn⟩ := (encodeScript_reaches (s := State.reset) rfl hfit (saveHeader true b).bytes none).trans ⟨k, hrun⟩
  refine ⟨n, t, hn, hdone, ?_⟩
  have hfile : t.output = { data := saveFile true b, failAt := none } := by
    simp only [encodeStarted, hfit.cfg_w, hfit.cfg_hgt, PixelBuffer.cfg_bytesPerPixel] at hout hfail
    exact congrArg₂ OutStream.mk hout hfail
  rw [save_without_failAt true hw hh, hfile]

/-! ### Load with the block -/

/-- The state that the script for a decode leads to from `s` (R130, R234). -/
def decodeStarted (s : State) (c : Cfg) (file : List Byte) (point : Nat) (term : Term) : State :=
  { s with
    cfg := c
    status := { state := .busyDec, err := .noError }
    dec := { s.dec with count := 0 }
    input := { content := file, point := point, term := term, pos := 0 }
    host := [] }

/-- A host that follows the script for a decode has it started at the point of the file (R181, R234). -/
theorem decodeScript_reaches {s : State} (hb : s.busy = false) {w h bpp : Nat} (hc : (sizeCfg w h bpp).legal = true)
    (file : List Byte) (point : Nat) (term : Term) :
    (s.withHost (decodeScript w h bpp file point term)).Reaches (decodeStarted s (sizeCfg w h bpp) file point term) := by
  refine (configureScript_reaches hb _ _ _ _).trans ?_
  refine .head (step_setIn (s := s.withCfg (sizeCfg w h bpp)) hb _ _ _ _) ?_
  exact .head ((step_writeCmd_decStart _ _).trans (execDecStart_of_ok hb ((startError_eq_none_iff _).2 hc))) (.refl _)

/-- What Save has left on an output is of a buffer within the sizes (U1). -/
theorem size_of_save {rle : Bool} {b : PixelBuffer} {o o' : OutStream} (h : save rle b o = .saved o') :
    b.width ≤ 32767 ∧ b.height ≤ 32767 := by
  rcases save_cases rle b o with ⟨hw, hh, -⟩ | ⟨-, hs⟩
  · exact ⟨hw, hh⟩
  · cases hs.symm.trans h

/-- After the 18 bytes of the header stands the pixel data (R164, R174). -/
theorem drop_saveFile (rle : Bool) (b : PixelBuffer) : (saveFile rle b).drop 18 = savePixels rle b := rfl

/-- Settles O60: the script starts a decode of the file's packets, and that is the decode of the buffer's encoding. -/
theorem blockReadsBackTheFileSaveWrote : Obligations.BlockReadsBackTheFileSaveWrote := by
  intro b o hwf hsave
  obtain ⟨hw, hh⟩ := size_of_save hsave
  obtain rfl := SaveEnd.saved.inj ((save_without_failAt true hw hh).symm.trans hsave)
  have hfit : b.FitsBlock := ⟨hwf, hw, hh⟩
  obtain ⟨hw1, hh1, hlen⟩ := PixelBuffer.wf_iff.1 hwf
  rw [Nat.mul_comm b.height] at hlen
  obtain ⟨k, t, -, hrun, hend⟩ := decodeRunAgreesWithDecode
    (decodeStarted State.reset b.cfg (saveFile true b) 18 .endOfStream) rfl rfl hfit.cfg_legal rfl rfl
  have hdecode : decodeImage b.cfg.w b.cfg.hgt b.cfg.bytesPerPixel ((saveFile true b).drop 18) .endOfStream =
      .ok b.bytes (savePixels true b).length := by
    rw [hfit.cfg_w, hfit.cfg_hgt, PixelBuffer.cfg_bytesPerPixel, drop_saveFile]
    exact decodeImage_encodeImage hw1 hh1 hlen _
  simp only [decodeStarted, InStream.data, hdecode] at hend
  obtain ⟨hdone, hpos, hbuf⟩ := hend
  rw [hfit.cfg_nbytes] at hbuf
  obtain ⟨n, hn⟩ := (decodeScript_reaches (s := State.reset) rfl hfit.cfg_legal (saveFile true b) 18 .endOfStream).trans
    ⟨k, hrun⟩
  exact ⟨n, t, hn, hdone, by rw [hpos, saveFile, List.length_append, Nat.add_comm]; rfl, hbuf⟩

end Sys2Proof.Codec
end

section
/-! PROOFS. Bytes put into a buffer read back, the pixels and the rows of a buffer, and with that O53, O54 and O55. -/

namespace Sys2Proof.Codec

open Sys2Proof.Machine

/-! ### Bytes put into a buffer -/

/-- The bytes put are what stands at their place (R140). -/
theorem take_drop_putBytes {a : Nat} {bs buf : List Byte} (h : a + bs.length ≤ buf.length) :
    ((putBytes a bs buf).drop a).take bs.length = bs := by
  rw [List.take_drop, take_putBytes h]
  exact List.drop_left' (List.length_take_of_le (by omega))

/-- Bytes before the place, or after it, stay (R140). -/
theorem take_drop_putBytes_outside {a i n : Nat} {bs buf : List Byte} (h : a + bs.length ≤ buf.length)
    (hout : i + n ≤ a ∨ a + bs.length ≤ i) : ((putBytes a bs buf).drop i).take n = (buf.drop i).take n := by
  rcases hout with hout | hout
  · have hbefore : (putBytes a bs buf).take (i + n) = buf.take (i + n) := by
      rw [putBytes, List.append_assoc, List.take_append_of_le_length (by rw [List.length_take]; omega), List.take_take,
        Nat.min_eq_left hout]
    rw [List.take_drop, hbefore, ← List.take_drop]
  · have hafter : (putBytes a bs buf).drop (a + bs.length) = buf.drop (a + bs.length) := by
      rw [putBytes, List.take_of_length_le (by omega : bs.length ≤ buf.length - a)]
      exact List.drop_left' (by rw [List.length_append, List.length_take_of_le (by omega)])
    obtain ⟨d, rfl⟩ := Nat.exists_eq_add_of_le hout
    rw [← List.drop_drop, hafter, List.drop_drop]

/-! ### One pixel -/

/-- The four bounds of a place inside the buffer (R168). -/
theorem PixelBuffer.inside_iff {b : PixelBuffer} {x y : Int} :
    b.inside x y = true ↔ 0 ≤ x ∧ x < b.width ∧ 0 ≤ y ∧ y < b.height := by
  simp [PixelBuffer.inside, and_assoc]

/-- Settles O54: on each of the four sides the place is not inside. -/
theorem pixelAccessOutsideTheBuffer : Obligations.PixelAccessOutsideTheBuffer := by
  intro b x y c hout
  have hnot : ¬ b.inside x y = true := by
    rw [PixelBuffer.inside_iff]
    omega
  exact ⟨if_neg hnot, if_neg hnot⟩

/-- The bytes of a pixel inside a well-formed buffer are bytes of the buffer (R162, R168). -/
theorem PixelBuffer.offset_add_le {b : PixelBuffer} {x y : Int} (hwf : b.wf = true) (hin : b.inside x y = true) :
    b.offset x y + b.format.bytesPerPixel ≤ b.bytes.length := by
  obtain ⟨-, -, hlen⟩ := PixelBuffer.wf_iff.1 hwf
  obtain ⟨hx, hx', hy, hy'⟩ := PixelBuffer.inside_iff.1 hin
  calc b.offset x y + b.format.bytesPerPixel
      = (y.toNat * b.width + x.toNat + 1) * b.format.bytesPerPixel := by rw [offset, Nat.succ_mul]
    _ ≤ ((y.toNat + 1) * b.width) * b.format.bytesPerPixel := Nat.mul_le_mul_right _ (by rw [Nat.succ_mul]; omega)
    _ ≤ (b.height * b.width) * b.format.bytesPerPixel :=
      Nat.mul_le_mul_right _ (Nat.mul_le_mul_right _ (by omega))
    _ = b.bytes.length := hlen.symm

/-- The channels that a format has are the bytes stored for them, the others 0xFF (R168, R169). -/
theorem channelOf_map_range (f : Nat → Byte) (n i : Nat) :
    channelOf ((List.range n).map f) i = if i < n then f i else 0xFF#8 := by
  rw [channelOf, List.getD_eq_getElem?_getD, List.getElem?_map]
  split_ifs with hi
  · rw [List.getElem?_range hi]
    rfl
  · rw [List.getElem?_eq_none (by rw [List.length_range]; omega)]
    rfl

/-- Packing four channels and indexing give each channel back (R161). -/
theorem index_packColor_of_lt (f : Nat → Byte) (t : PixelFormat) :
    ∀ i < 4, (Color.mk (packColor (f 0) (f 1) (f 2) (f 3)) t).index i = f i := by
  obtain ⟨h0, h1, h2, h3⟩ := index_packColor (f 0) (f 1) (f 2) (f 3) t
  intro i hi
  match i, hi with
  | 0, _ => exact h0
  | 1, _ => exact h1
  | 2, _ => exact h2
  | 3, _ => exact h3

/-- Settles O55: the pixel read is the bytes that were put at its place. -/
theorem getPixelAfterSetPixel : Obligations.GetPixelAfterSetPixel := by
  intro b x y c hwf hin
  have hplace : b.offset x y + ((List.range b.format.bytesPerPixel).map c.index).length ≤ b.bytes.length := by
    rw [List.length_map, List.length_range]
    exact PixelBuffer.offset_add_le hwf hin
  have hpixel := take_drop_putBytes hplace
  rw [List.length_map, List.length_range] at hpixel
  refine ⟨_, by rw [setPixel, if_pos hin]; exact if_pos hin, rfl, fun i hi => ?_⟩
  rw [index_packColor_of_lt (channelOf _) _ i hi]
  exact (congrArg (channelOf · i) hpixel).trans (channelOf_map_range _ _ _)

/-! ### The rows -/

section Rows

variable {rowBytes height : Nat} {bytes : List Byte}

theorem row_end_le {l : Nat} (hl : l < height) : l * rowBytes + rowBytes ≤ height * rowBytes := by
  rw [← Nat.succ_mul]
  exact Nat.mul_le_mul_right _ hl

/-- Of two rows, the one with the lower number ends before the other begins. -/
theorem rows_disjoint {l m : Nat} (h : l ≠ m) :
    l * rowBytes + rowBytes ≤ m * rowBytes ∨ m * rowBytes + rowBytes ≤ l * rowBytes :=
  (Nat.lt_or_gt_of_ne h).imp row_end_le row_end_le

/-- A row of a buffer has `ROWBYTES` bytes (R171). -/
theorem length_rowOf_of_lt (hlen : bytes.length = height * rowBytes) {l : Nat} (hl : l < height) :
    (rowOf rowBytes l bytes).length = rowBytes := by
  have := row_end_le (rowBytes := rowBytes) hl
  rw [rowOf, List.length_take_of_le]
  rw [List.length_drop]
  omega

/-- The rows of a buffer one after the other are its bytes. -/
theorem flatMap_rowOf (n : Nat) : (List.range n).flatMap (rowOf rowBytes · bytes) = bytes.take (n * rowBytes) := by
  induction n with
  | zero => simp
  | succ n ih => rw [List.range_succ, List.flatMap_append, ih, List.flatMap_singleton, rowOf, Nat.succ_mul, List.take_add]

/-- Buffers of one size with the same rows are the same. -/
theorem eq_of_rowOf_eq {bytes' : List Byte} (hlen : bytes.length = height * rowBytes)
    (hlen' : bytes'.length = height * rowBytes) (h : ∀ l < height, rowOf rowBytes l bytes = rowOf rowBytes l bytes') :
    bytes = bytes' := by
  calc bytes = (List.range height).flatMap (rowOf rowBytes · bytes) := by rw [flatMap_rowOf, ← hlen, List.take_length]
    _ = (List.range height).flatMap (rowOf rowBytes · bytes') :=
      List.flatMap_congr fun l hl => h l (List.mem_range.1 hl)
    _ = bytes' := by rw [flatMap_rowOf, ← hlen', List.take_length]

/-- A row put in the place of row `l` is row `l` of the result, and the other rows stay (R171). -/
theorem rowOf_putBytes (hlen : bytes.length = height * rowBytes) {l : Nat} (hl : l < height) {row : List Byte}
    (hrow : row.length = rowBytes) (j : Nat) :
    rowOf rowBytes j (putBytes (l * rowBytes) row bytes) = if j = l then row else rowOf rowBytes j bytes := by
  have hin : l * rowBytes + row.length ≤ bytes.length := by
    rw [hrow, hlen]
    exact row_end_le hl
  split_ifs with hj
  · subst hj hrow
    exact take_drop_putBytes hin
  · exact take_drop_putBytes_outside hin (hrow.symm ▸ rows_disjoint hj)

/-- A row put into a buffer leaves its size. -/
theorem length_putBytes_row (hlen : bytes.length = height * rowBytes) {l : Nat} (hl : l < height) {row : List Byte}
    (hrow : row.length = rowBytes) : (putBytes (l * rowBytes) row bytes).length = height * rowBytes :=
  (length_putBytes (by rw [hrow, hlen]; exact row_end_le hl)).trans hlen

section Swap

variable {l m : Nat} (hlen : bytes.length = height * rowBytes) (hl : l < height) (hm : m < height)

include hlen hl hm

theorem length_swapRows : (swapRows rowBytes l m bytes).length = height * rowBytes :=
  length_putBytes_row (length_putBytes_row hlen hl (length_rowOf_of_lt hlen hm)) hm (length_rowOf_of_lt hlen hl)

/-- After a swap each of the two rows holds the other, and every other row stays (R171). -/
theorem rowOf_swapRows (j : Nat) :
    rowOf rowBytes j (swapRows rowBytes l m bytes) =
      if j = m then rowOf rowBytes l bytes else if j = l then rowOf rowBytes m bytes else rowOf rowBytes j bytes := by
  have hrow := length_rowOf_of_lt hlen hm
  rw [swapRows, rowOf_putBytes (length_putBytes_row hlen hl hrow) hm (length_rowOf_of_lt hlen hl),
    rowOf_putBytes hlen hl hrow]

end Swap

/-! ### The flip -/

section Flip

variable (hlen : bytes.length = height * rowBytes)

include hlen

theorem length_flipRows {k : Nat} (hk : k ≤ height / 2) :
    (flipRows rowBytes height k bytes).length = height * rowBytes := by
  induction k with
  | zero => exact hlen
  | succ k ih => exact length_swapRows (ih (by omega)) (by omega) (by omega)

/-- After the swaps of the rows below `k` those rows, and the rows as far from the other end, hold their partners, and every
row between stays (R171). -/
theorem rowOf_flipRows {k : Nat} (hk : k ≤ height / 2) {j : Nat} (hj : j < height) :
    rowOf rowBytes j (flipRows rowBytes height k bytes) =
      if j < k ∨ height - 1 - j < k then rowOf rowBytes (height - 1 - j) bytes else rowOf rowBytes j bytes := by
  induction k generalizing j with
  | zero => exact (if_neg (by omega)).symm
  | succ k ih =>
    have hk' : k ≤ height / 2 := by omega
    rw [flipRows, rowOf_swapRows (length_flipRows hlen hk') (by omega) (by omega)]
    by_cases hpartner : j = height - 1 - k
    · rw [if_pos hpartner, ih hk' (by omega), if_neg (by omega), if_pos (by omega)]
      congr 1
      omega
    · rw [if_neg hpartner]
      by_cases hself : j = k
      · subst hself
        rw [if_pos rfl, ih hk' (by omega), if_neg (by omega), if_pos (by omega)]
      · rw [if_neg hself, ih hk' hj]
        exact if_congr (by omega) rfl rfl

/-- `VerticalFlip` puts each row in the place of its partner (R171). -/
theorem rowOf_flipRows_half {j : Nat} (hj : j < height) :
    rowOf rowBytes j (flipRows rowBytes height (height / 2) bytes) = rowOf rowBytes (height - 1 - j) bytes := by
  rw [rowOf_flipRows hlen le_rfl hj]
  split_ifs with hmoved
  · rfl
  · congr 1
    omega

/-- Flipped twice each row is in its own place again (R171). -/
theorem flipRows_flipRows :
    flipRows rowBytes height (height / 2) (flipRows rowBytes height (height / 2) bytes) = bytes := by
  have hflip := length_flipRows hlen le_rfl
  refine eq_of_rowOf_eq (length_flipRows hflip le_rfl) hlen fun j hj => ?_
  rw [rowOf_flipRows_half hflip hj, rowOf_flipRows_half hlen (by omega)]
  congr 1
  omega

end Flip

end Rows

/-- Settles O53: the partner of a row's partner is the row. -/
theorem verticalFlipIsItsOwnInverse : Obligations.VerticalFlipIsItsOwnInverse := by
  intro b hwf
  obtain ⟨-, -, hlen⟩ := PixelBuffer.wf_iff.1 hwf
  rw [Nat.mul_assoc] at hlen
  exact congrArg (PixelBuffer.mk b.width b.height b.format) (flipRows_flipRows hlen)

end Sys2Proof.Codec
end

section
/-! PROOFS. The channels of a scaled color, the header read back and the tests that Load makes on it, and with that O52, O56
and O58. -/

namespace Sys2Proof.Codec

open Sys2Proof.Machine

/-! ### The channels of a scaled color -/

/-- Settles O52: the clamped factor is 0, 1 or the factor itself, and the product is then a whole number of at most 255. -/
theorem colorScaleIsExactOnWholeProducts : Obligations.ColorScaleIsExactOnWholeProducts := by
  intro f c
  obtain ⟨hchannel, hfourth⟩ := scale_index f c
  refine ⟨hfourth, fun hf i hi => ?zero, fun hf i hi => ?keep, fun h0 h1 i hi n hn => ?whole⟩
  case zero =>
    rw [hchannel i hi, clampFactor_of_nonpos hf, mul_zero]
    exact channelByte_natCast 0
  case keep =>
    rw [hchannel i hi, clampFactor_of_one_le hf, mul_one, channelByte_natCast, BitVec.ofNat_toNat, BitVec.setWidth_eq]
  case whole =>
    have hle : (n : Rat) ≤ (c.index i).toNat := hn ▸ mul_le_of_le_one_right (Nat.cast_nonneg _) h1
    have hlt : n < 2 ^ 8 := (Nat.cast_le.1 hle).trans_lt (c.index i).isLt
    rw [hchannel i hi, clampFactor_of_mem h0 h1, hn, channelByte_natCast, BitVec.toNat_ofNat, Nat.mod_eq_of_lt hlt]

/-! ### The header -/

/-- Settles O56: the 18 bytes are the fields in their order. -/
theorem headerReadBackFromItsBytes : Obligations.HeaderReadBackFromItsBytes :=
  fun h rest => ⟨rfl, parseHeader_bytes h rest⟩

/-! ### The tests of Load -/

/-- A number of bytes that is no format (R160). -/
theorem ofBytes_eq_none {n : Nat} (h : n ≠ 1 ∧ n ≠ 3 ∧ n ≠ 4) : PixelFormat.ofBytes n = none := by
  obtain ⟨h1, h3, h4⟩ := h
  rw [PixelFormat.ofBytes, if_neg h1, if_neg h3, if_neg h4]

/-- A data type code that Load does not accept (R165, R178). -/
theorem acceptedDataType_eq_none {code : Byte} (h : code ≠ 2#8 ∧ code ≠ 3#8 ∧ code ≠ 10#8 ∧ code ≠ 11#8) :
    acceptedDataType code = none := by
  obtain ⟨h2, h3, h10, h11⟩ := h
  exact (if_neg (not_or.2 ⟨h2, h3⟩)).trans (if_neg (not_or.2 ⟨h10, h11⟩))

/-- The size is the first test (R178). -/
theorem validateHeader_of_size {h : TgaHeader} (hsize : ¬ (1 ≤ h.width.toInt ∧ 1 ≤ h.height.toInt)) :
    validateHeader h = .error .invalidDimensions := if_pos hsize

/-- With a positive size, a pixel size that is no format, or else a data type that is not accepted, fails the second or third
test (R178). -/
theorem validateHeader_of_unsupported {h : TgaHeader} (hsize : 1 ≤ h.width.toInt ∧ 1 ≤ h.height.toInt)
    (hbad : PixelFormat.ofBytes (h.bitsPerPixel.toNat / 8) = none ∨ acceptedDataType h.dataTypeCode = none) :
    validateHeader h = .error .unsupportedFormat := by
  rw [validateHeader, if_neg (not_not.2 hsize)]
  cases hformat : PixelFormat.ofBytes (h.bitsPerPixel.toNat / 8) with
  | none => rfl
  | some f =>
    have htype : acceptedDataType h.dataTypeCode = none := hbad.resolve_left (by rw [hformat]; exact Option.some_ne_none f)
    simp only [htype]

/-- A header that fails a test ends Load with that error, whatever follows it (R178). -/
theorem load_of_invalid {h : TgaHeader} {e : ErrKind} (he : validateHeader h = .error e) (rest : List Byte) (term : Term) :
    load (h.bytes ++ rest) term = .error (.failed e) := by
  simp only [load, parseHeader_bytes, he]

/-- Settles O58: the size test, and with a positive size the format test or the data type test. -/
theorem loadTestsSizeThenFormatThenType : Obligations.LoadTestsSizeThenFormatThenType := by
  refine fun h rest term => ⟨fun hsize => load_of_invalid (validateHeader_of_size hsize) rest term, fun hw hh hbad => ?_⟩
  exact load_of_invalid
    (validateHeader_of_unsupported ⟨hw, hh⟩ (hbad.imp ofBytes_eq_none acceptedDataType_eq_none)) rest term

end Sys2Proof.Codec
end

section
/-! PROOFS. What raising an error writes (R206), and the block outside an operation (R214). -/

namespace Sys2Proof.Machine

/-- Settles O10: `raise E` is, by definition, one write of `STATUS`. -/
theorem raiseWritesStatusOnly : Obligations.RaiseWritesStatusOnly := fun _ _ => rfl

/-- Outside an operation the block's own step is idle (R214). -/
theorem blockStep_of_not_busy {s : State} (hb : s.busy = false) : blockStep s = .next s := by
  have hnot : ¬ (s.status.state = .busyEnc ∨ s.status.state = .busyDec) := fun h => by
    rw [(busy_iff s).2 h] at hb; cases hb
  cases hst : s.status.state with
  | idle | done | error => rw [blockStep, hst]
  | busyEnc => exact absurd (.inl hst) hnot
  | busyDec => exact absurd (.inr hst) hnot

/-- Settles O21: with no move pending the step is the block's own, which outside an operation is idle. -/
theorem idleBlockKeepsAllState : Obligations.IdleBlockKeepsAllState :=
  fun _ hh hb => (step_block hh).trans (blockStep_of_not_busy hb)

end Sys2Proof.Machine
end

section
/-! PROOFS. What the reset input leaves, outside an operation and during one (R230, R231), and with that O13 and O12. -/

namespace Sys2Proof.Machine

/-! ### The registers -/

@[simp] theorem resetBlock_cfg (s : State) : (resetBlock s).cfg = Cfg.reset := rfl
@[simp] theorem resetBlock_status (s : State) : (resetBlock s).status = Status.reset := rfl

/-! ### An abandoned encode -/

/-- A write of a leading part of some bytes appends a leading part of them (R59). -/
theorem outWriteN_take_appends (bs : List Byte) (k : Nat) (o : OutStream) :
    ∃ part, part <+: bs ∧ (outWriteN (bs.take k) o).2.data = o.data ++ part := by
  obtain ⟨n, hn⟩ := outWriteN_appends (bs.take k) o
  exact ⟨(bs.take k).take n, (List.take_prefix _ _).trans (List.take_prefix _ _), by rw [hn]⟩

/-- An abandoned encode has `OUT` grow by a leading part of the packet in progress (R231, log 11). -/
theorem State.abandonEncode_appends (s : State) :
    ∃ part, part <+: s.packetBytes.getD [] ∧ s.abandonEncode.output.data = s.output.data ++ part := by
  unfold State.abandonEncode
  by_cases hready : (s.encReady && s.rowWritten) = true
  · simp only [if_pos hready]
    exact outWriteN_take_appends _ _ _
  · simp only [if_neg hready, List.take_nil]
    exact ⟨[], List.nil_prefix, (List.append_nil _).symm⟩

/-! ### An abandoned decode -/

/-- An abandoned decode changes no byte outside the image (R208, R231). -/
theorem State.abandonDecode_read_outside (s : State) {a : Nat} (ha : s.cfg.nbytes ≤ a) :
    s.abandonDecode.pixbuf.read a = s.pixbuf.read a :=
  (Mem.read_overwriteBelow _ _ _ _).trans (if_neg (Nat.not_lt.2 ha))

/-! ### The reset input -/

theorem resetBlock_of_busyEnc {s : State} (h : s.status.state = .busyEnc) :
    resetBlock s = resetRegisters s.abandonEncode := by
  rw [resetBlock, h]

theorem resetBlock_of_busyDec {s : State} (h : s.status.state = .busyDec) :
    resetBlock s = resetRegisters s.abandonDecode := by
  rw [resetBlock, h]

theorem resetBlock_of_not_busy {s : State} (hb : s.busy = false) : resetBlock s = resetRegisters s := by
  unfold State.busy at hb
  unfold resetBlock
  cases hst : s.status.state with
  | idle | done | error => rfl
  | busyEnc | busyDec => rw [hst] at hb; cases hb

/-- A reset leaves the moves still to come (log 1). -/
@[simp] theorem resetBlock_host (s : State) : (resetBlock s).host = s.host := by
  unfold resetBlock
  cases s.status.state <;> rfl

/-- With the reset input next, the step is the reset of the state it is taken off (log 1). -/
theorem step_reset {s : State} {rest : List HostMove} (hh : s.host = .reset :: rest) :
    step s = .next (resetBlock (s.withHost rest)) :=
  step_move hh

/-- Settles O13: what each engine's abandoned operation leaves, under the registers' reset values. -/
theorem resetDuringOperationAbandonsIt : Obligations.ResetDuringOperationAbandonsIt := by
  intro s rest hh
  refine ⟨_, step_reset hh, ?status, fun hst => ?decode, fun hst => ?encode⟩
  case status =>
    rw [resetBlock_status]
    decide
  case decode =>
    rw [resetBlock_of_busyDec (s := s.withHost rest) hst]
    exact ⟨rfl, rfl, rfl, abandonDecode_streamSound (s.withHost rest),
      fun _ => State.abandonDecode_read_outside (s.withHost rest)⟩
  case encode =>
    rw [resetBlock_of_busyEnc (s := s.withHost rest) hst]
    exact ⟨rfl, rfl, State.abandonEncode_appends (s.withHost rest)⟩

/-- Settles O12: the registers at their reset values whatever runs, and with nothing to abandon nothing else changed. -/
theorem resetInputSetsRegisters : Obligations.ResetInputSetsRegisters := by
  intro s rest hh
  refine ⟨_, step_reset hh, resetBlock_cfg _, resetBlock_status _, resetBlock_host _, fun hb => ?_⟩
  rw [resetBlock_of_not_busy (s := s.withHost rest) hb]
  exact ⟨rfl, rfl, rfl⟩

end Sys2Proof.Machine
end

section
/-! PROOFS. The hazards: what is lost or refused while an operation runs (R235, R236), a start over an unwritten image (R238),
and with that O49, O50 and O23. -/

namespace Sys2Proof.Machine

/-! ### Moves during an operation -/

/-- A move that touches `PIXBUF` or a stream is refused while an operation runs (R235). -/
theorem whenOwned_of_busy {s : State} (hb : s.busy = true) (r : Result) :
    whenOwned s r = .refused .hostTouchedDuringOperation :=
  if_pos hb

/-- A configuration write is lost while an operation runs (R236). -/
theorem writeConfig_of_busy {s : State} (hb : s.busy = true) (c : Cfg) : writeConfig c s = .next s :=
  if_pos hb

/-- The block's own step never changes the configuration (R60). -/
theorem blockStep_cfg {s t : State} (h : blockStep s = .next t) : t.cfg = s.cfg := by
  rcases blockStep_next h with ⟨-, h⟩ | ⟨-, h⟩ | ⟨-, rfl⟩
  · obtain ⟨-, ⟨hcfg, -⟩, -⟩ := encPacket_ends h
    exact hcfg
  · exact (decPacket_fillsImage h).cfg
  · rfl

/-- While an operation runs no move but a reset changes the configuration: a write to one of its registers is lost, a command
ignored, a move that touches `PIXBUF` or a stream refused (R235 to R237). -/
theorem hostMove_cfg_of_busy {m : HostMove} {s t : State} (hb : s.busy = true) (hm : m ≠ .reset)
    (h : hostMove m s = .next t) : t.cfg = s.cfg := by
  have lost : ∀ c, writeConfig c s = .next t → t.cfg = s.cfg := fun c hw => by
    rw [writeConfig_of_busy hb] at hw; cases hw; rfl
  have refused : ∀ r, whenOwned s r ≠ .next t := fun r hr => by
    rw [whenOwned_of_busy hb] at hr; cases hr
  cases m with
  | wait => exact blockStep_cfg h
  | writeCmd v => cases (writeCommand_busy hb v).symm.trans h; rfl
  | writeStatus v => cases h; rfl
  | writeWidth v => exact lost _ h
  | writeHeight v => exact lost _ h
  | writeBpp v => exact lost _ h
  | readReg r => cases h; rfl
  | writePix a v => exact absurd h (refused _)
  | readPix a => exact absurd h (refused _)
  | setIn c p t => exact absurd h (refused _)
  | setOut d f => exact absurd h (refused _)
  | reset => exact absurd rfl hm

/-- Settles O49: the configuration is kept by the block's own step and by every move but a reset, and the sizes are functions
of it. -/
theorem configConstantDuringOperation : Obligations.ConfigConstantDuringOperation := by
  intro s t hb hhead h
  have hcfg : t.cfg = s.cfg := by
    rcases step_next h with ⟨-, h⟩ | ⟨m, rest, hh, h⟩
    · exact blockStep_cfg h
    · exact hostMove_cfg_of_busy (s := s.withHost rest) hb (fun hm => hhead (by rw [hh, hm]; rfl)) h
  rw [hcfg]
  exact ⟨rfl, rfl, rfl, rfl⟩

/-- Settles O50: all four moves go through `whenOwned`, which refuses them while busy. -/
theorem hostTouchDuringOperationRefused : Obligations.HostTouchDuringOperationRefused := by
  rintro s m rest hb hh (⟨a, v, rfl⟩ | ⟨a, rfl⟩ | ⟨c, p, t, rfl⟩ | ⟨d, f, rfl⟩) <;>
    exact (step_move hh).trans (whenOwned_of_busy (s := s.withHost rest) hb _)

/-! ### A start over an unwritten image -/

/-- A range with a byte that nothing has written is not written (R238). -/
theorem Mem.written_eq_false {m : Mem} {n a : Nat} (ha : a < n) (hr : m.read a = none) : m.written 0 n = false := by
  rw [← Bool.not_eq_true, Mem.written_iff]
  intro h
  have hsome := h a ha
  rw [Nat.zero_add, hr] at hsome
  cases hsome

/-- With a legal configuration over an image that is not fully written `ENC_START` is refused (R238, log 6). -/
theorem execEncStart_of_unwritten {s : State} (hb : s.busy = false) (he : s.cfg.startError = none)
    (hw : s.pixbuf.written 0 s.cfg.nbytes = false) : execEncStart s = .refused .unwrittenPixel := by
  simp [execEncStart, hb, he, hw]

/-- Settles O23: `ENC_START` tests that the image is written, `DEC_START` does not. -/
theorem encStartRefusesUnwrittenImage : Obligations.EncStartRefusesUnwrittenImage := by
  intro s a hb hc ha hr
  have he : s.cfg.startError = none := (startError_eq_none_iff _).2 hc
  exact ⟨execEncStart_of_unwritten hb he (Mem.written_eq_false ha hr), _, execDecStart_of_ok hb he, rfl⟩

end Sys2Proof.Machine
end
